-- ==== Sys2Proof/Word.lean ====
section
/-! DEFINITION. The data types MHC's values live in: bytes, 32-bit slots, the words of the cube
buffer, and cube coordinates. -/

namespace Sys2Proof

/-- An 8-bit cell of KEY, IBUF, OBUF or CODELEN, and the payload of a WBUF word. -/
abbrev Byte := BitVec 8

/-- A 32-bit slot of the host port (R70), and a 32-bit register. -/
abbrev Word := BitVec 32

/-- A word of WBUF (R47): the payload byte in bits 7:0 and the field above it in bits WW−1:8, which
is the three coordinate fields X, Y, Z (R47) or one tag (R192). The tag has 3W bits, 24 at W = 8; at a
smaller W its upper bits are 0. Why a word is held as a pair: assumption 10 (DESIGN CHOICE, safe). -/
structure CubeWord where
  tag : BitVec 24
  payload : Byte
deriving DecidableEq, Repr

/-- The word as the 32-bit slot value a host sees: bits WW−1:8 above the payload (R47, R75). -/
def CubeWord.toWord (w : CubeWord) : Word := w.tag ++ w.payload

/-- The full unsigned numeric value of a word, which the sort compares (R18). -/
def CubeWord.value (w : CubeWord) : Nat := w.tag.toNat * 256 + w.payload.toNat

/-- A coordinate (x, y, z) of the cube [0, S)³ (R16). -/
structure Coord where
  x : Nat
  y : Nat
  z : Nat
deriving DecidableEq, Repr

end Sys2Proof
end

