-- ==== Sys2Proof/Config.lean ====
section
/-! DEFINITION. What an instance of MHC fixes (its parameters, R7, R11, R71) and the free values:
constants without a body, so that nothing can be proved of what they are. -/

namespace Sys2Proof

/-- The parameters of an instance. They are no state of the machine (R30), but the model carries them
in State, where no step changes them, so that every statement is about every instance (assumption 1). -/
structure Params where
  /-- The base-2 logarithm of the cube side, 4 to 8 (R7). -/
  w : Nat
  /-- The number of byte cells of IBUF, 1 to 2^24 (R11). -/
  ibufSize : Nat
  /-- The number of byte cells of OBUF, 1 to 2^24 (R11). -/
  obufSize : Nat
  /-- The block's base address in the host's address space, a multiple of 2^28 (R71). -/
  base : Nat
deriving DecidableEq, Repr

/-- The reference instance (R12): W = 8 and buffers of 2^24 cells. R71 gives BASE no reference value. -/
def Params.reference : Params := ⟨8, 2 ^ 24, 2 ^ 24, 0⟩

/-- The instance of the spec's own vectors and programs (95_test_vectors.md): W = 4 and buffers of
2^24 cells. `State.reset` is this instance's (assumption 1, DESIGN CHOICE, safe for statements over
all parameters). -/
def Params.vectors : Params := ⟨4, 2 ^ 24, 2 ^ 24, 0⟩

/-- The pieces of state whose contents the spec leaves unspecified after a reset (R57) or after a soft
reset that aborted a command (R272). -/
inductive Region where
  | key | ibuf | wbuf | obuf | cur
deriving DecidableEq, Repr

/-- FREE VALUE (I2, I3, I4; assumptions 2, 3, 4, 6). What cell `index` of a region holds, of the width
the region's cells have, since its contents became unspecified for the `era`-th time. -/
opaque Config.unspecified : (region : Region) → (era : Nat) → (index : Nat) → Word

/-- FREE VALUE (R15 `draw_byte()`, R54, R163, I1; assumption 5). The `n`-th draw of the fill source. -/
opaque Config.fillByte : (n : Nat) → Byte

end Sys2Proof
end

