-- ==== Sys2Proof/Syntax.lean ====
section
/-! DEFINITION. The commands of MHC-CMD version 1 (R102): one constructor per row of the opcode table.
No command has a register or immediate field (R104). -/

namespace Sys2Proof

inductive Instr where
  /-- NOP, R221. -/
  | nop
  /-- HUF_ENCODE, R130. -/
  | hufEncode
  /-- CUBE_ENCODE, R165. -/
  | cubeEncode
  /-- RELABEL_ENCODE, R194. -/
  | relabelEncode
  /-- ENCODE_ALL, R222. -/
  | encodeAll
  /-- HUF_DECODE, R140. -/
  | hufDecode
  /-- CUBE_DECODE, R170. -/
  | cubeDecode
  /-- RELABEL_DECODE, R197. -/
  | relabelDecode
  /-- DECODE_ALL, R223. -/
  | decodeAll
deriving DecidableEq, Repr

end Sys2Proof
end

