-- ==== Sys2Proof/WellFormed.lean ====
section
/-! DEFINITION. What the spec asks of a command, of a command word and of an instance's parameters.
Every check is a Bool, so that the smoke tests can show a term it refuses. -/

namespace Sys2Proof

/-- A command carries no operand field (R104), so there is nothing in one that could be ill-formed. -/
def Instr.wellFormed : Instr → Bool
  | .nop | .hufEncode | .cubeEncode | .relabelEncode | .encodeAll => true
  | .hufDecode | .cubeDecode | .relabelDecode | .decodeAll => true

/-- Bits 31:8 of a command word are reserved and must be 0 (R100). -/
def Word.reservedZero (v : Word) : Bool := v.extractLsb' 8 24 == 0#24

/-- OPC, bits 7:0 of a command word (R100). -/
def Word.opcode (v : Word) : Byte := v.extractLsb' 0 8

/-- The nine opcodes of the map (R102). -/
def definedOpcodes : List Byte :=
  [0x00#8, 0x01#8, 0x02#8, 0x03#8, 0x0F#8, 0x11#8, 0x12#8, 0x13#8, 0x1F#8]

/-- A command word is defined exactly when its reserved bits are 0 and its opcode is in the map (R102);
otherwise it is illegal (R103). -/
def Word.isDefined (v : Word) : Bool := Word.reservedZero v && definedOpcodes.contains (Word.opcode v)

/-- W lies in 4..8 (R7). -/
def Params.wOk (p : Params) : Bool := decide (4 ≤ p.w) && decide (p.w ≤ 8)

/-- IBUF_SIZE lies in 1..2^24 (R11). -/
def Params.ibufOk (p : Params) : Bool := decide (1 ≤ p.ibufSize) && decide (p.ibufSize ≤ 2 ^ 24)

/-- OBUF_SIZE lies in 1..2^24 (R11). -/
def Params.obufOk (p : Params) : Bool := decide (1 ≤ p.obufSize) && decide (p.obufSize ≤ 2 ^ 24)

/-- BASE is a multiple of 2^28 (R71). -/
def Params.baseOk (p : Params) : Bool := decide (p.base % 2 ^ 28 = 0)

/-- The parameters are those of an instance the spec allows. -/
def Params.wf (p : Params) : Bool := p.wOk && p.ibufOk && p.obufOk && p.baseOk

end Sys2Proof
end

