-- ==== Sys2Proof/Decode.lean ====
section
/-! DEFINITION. The decoder, total on every 32-bit command word (R103), and the encoder (R102). -/

namespace Sys2Proof

/-- Why a command word is illegal (R103). Either way the engine ends it with ILLEGAL_CMD. -/
inductive IllegalWord where
  /-- Bits 31:8 are not all 0. -/
  | reservedBits
  /-- Bits 31:8 are 0 and the opcode is one of the 247 the map does not hold. -/
  | undefinedOpcode
deriving DecidableEq, Repr

/-- The opcode map (R102), read by the whole opcode and never by its fields alone (R101). -/
def decodeOpcode (opc : Byte) : Option Instr :=
  match opc.toNat with
  | 0x00 => some .nop
  | 0x01 => some .hufEncode
  | 0x02 => some .cubeEncode
  | 0x03 => some .relabelEncode
  | 0x0F => some .encodeAll
  | 0x11 => some .hufDecode
  | 0x12 => some .cubeDecode
  | 0x13 => some .relabelDecode
  | 0x1F => some .decodeAll
  | _ => none

/-- The command a word stands for, or why it is illegal (R102, R103). -/
def decode (v : Word) : Except IllegalWord Instr :=
  if Word.reservedZero v then
    match decodeOpcode (Word.opcode v) with
    | some i => .ok i
    | none => .error .undefinedOpcode
  else .error .reservedBits

/-- The command word of a command (R102). -/
def encode : Instr → Word
  | .nop => 0x00000000#32
  | .hufEncode => 0x00000001#32
  | .cubeEncode => 0x00000002#32
  | .relabelEncode => 0x00000003#32
  | .encodeAll => 0x0000000F#32
  | .hufDecode => 0x00000011#32
  | .cubeDecode => 0x00000012#32
  | .relabelDecode => 0x00000013#32
  | .decodeAll => 0x0000001F#32

/-- The opcode of a command, as LASTOP and ERROP show it (R34). -/
def opcodeOf (i : Instr) : Byte := Word.opcode (encode i)

/-- The command the decoder reads from `nbits` bits of an instruction, bit 0 the least significant.
A command is one word (R100), so bits from 32 up belong to no command. -/
def decodeTableWord (nbits w : Nat) : Option Instr := (decode (BitVec.ofNat 32 (w % 2 ^ nbits))).toOption

end Sys2Proof
end

