-- ==== Sys2Proof/Machine/State.lean ====
section
/-! DEFINITION. MHC's state as plain data (R30), what stops a step, and the state after reset (R57). -/

namespace Sys2Proof.Machine

/-- An engine memory: the cells that something has written since the contents last became unspecified,
as (index, cell) pairs in rising order of the index. A cell that is not listed holds the free value of
the memory's `era` (assumption 3). -/
structure Memory (α : Type) where
  era : Nat
  cells : List (Nat × α)
deriving DecidableEq, Repr

/-- The cells stand in strictly rising order of their indexes, from `lo` up and all below `size`. -/
def cellsRise {α : Type} (lo size : Nat) : List (Nat × α) → Bool
  | [] => true
  | (i, _) :: rest => decide (lo ≤ i) && decide (i < size) && cellsRise (i + 1) size rest

/-- The canonical form of a memory of `size` cells: strictly rising, and no cell outside it. (An
unlisted cell has no value the spec gives, so no listed one can equal it: assumption 3.) -/
def Memory.wf {α : Type} (size : Nat) (m : Memory α) : Bool := cellsRise 0 size m.cells

/-- The engine's phase (R51). STATUS.BUSY reads 1 exactly when it is `busy`. -/
inductive Phase where
  | idle | busy
deriving DecidableEq, Repr

/-- The stored fields of STATUS (R34). BUSY is the phase, and the reserved bits read 0. -/
structure Status where
  done : Bool
  err : Bool
  ovr : Bool
  bacc : Bool
  errcode : BitVec 4
  lastop : Byte
  errop : Byte
deriving DecidableEq, Repr

/-- One host access as the port sees it: a byte address of the host's address space, and the number of
bytes it moves, 4 in every legal access (R70). A write whose byte enables are not all set moves fewer
(assumption 22). -/
inductive Access where
  | read (addr bytes : Nat)
  | write (addr bytes : Nat) (v : Word)
deriving DecidableEq, Repr

/-- What happens next from outside the engine, or that it is the engine's turn (R84, assumption 7). -/
inductive Input where
  /-- The host's next access. -/
  | access (a : Access)
  /-- The engine ends its command now, before the host's next access (R220). -/
  | engine
  /-- The platform asserts the reset input (R270). -/
  | hardReset
deriving DecidableEq, Repr

/-- The errors that end a command (R241). -/
inductive CmdError where
  /-- The accepted word is not a defined command. -/
  | illegalCmd
  /-- BITLEN exceeds the stream, or the stream ends inside a code. -/
  | decodeUnderrun
  /-- WLEN is not C. -/
  | cubeSizeMismatch
  /-- ILEN exceeds IBUF_SIZE, or the stream exceeds the front region. -/
  | inputTooLarge
  /-- A stream bit leads to no node, or the tree is empty and a bit is read. -/
  | invalidCode
  /-- More than OBUF_SIZE bytes would be written. -/
  | outputOverflow
  /-- KIDX is 1000 or more. -/
  | badConfig
deriving DecidableEq, Repr

/-- The state of MHC, with the model's own fields last. -/
structure State where
  /-- W, IBUF_SIZE, OBUF_SIZE, BASE: constants of the instance (R7, R11, R71); they are what CONFIG,
  IBUFSZ and OBUFSZ read (R32, R42). -/
  params : Params
  /-- The engine's phase (R51). -/
  phase : Phase
  /-- CUR, the accepted command word, meaningful only while busy (R51). -/
  cur : Word
  /-- CTRL.IE (R33). -/
  ie : Bool
  /-- STATUS (R34). -/
  status : Status
  /-- ILEN (R36). -/
  ilen : Word
  /-- BITLEN (R37). -/
  bitlen : Word
  /-- OLEN (R38). -/
  olen : Word
  /-- WLEN (R39). -/
  wlen : Word
  /-- KIDX (R40). -/
  kidx : BitVec 10
  /-- PRIME (R41). -/
  prime : Word
  /-- FREQ[0..255] (R43). -/
  freq : Vector Word 256
  /-- CODELEN[0..255] (R44). -/
  codelen : Vector Byte 256
  /-- KEY[0..999] (R45). -/
  key : Vector Byte 1000
  /-- IBUF (R46): byte cells, a list of `Host.Cell`. -/
  ibuf : Memory Byte
  /-- WBUF (R47). -/
  wbuf : Memory CubeWord
  /-- OBUF (R49): byte cells, a list of `Host.Cell`. -/
  obuf : Memory Byte
  /-- The model's own: how many fill bytes have been drawn (R54, assumption 5). -/
  fillDraws : Nat
  /-- The model's own: how often some contents have become unspecified (assumption 6). -/
  era : Nat
  /-- The model's own: what is still to come from outside, oldest first (assumption 7). -/
  inputs : List Input
  /-- The model's own: the values returned to host reads, newest first (assumption 9). -/
  reads : List Word
deriving DecidableEq, Repr

/-- What stops a step with a fault: the bus errors of R73, each a fault of the host agent that leaves
MHC unchanged. All are safe (assumption 8). The engine never faults. -/
inductive Fault where
  /-- R73(a): the offset is not a multiple of 4. Raised by the port. Safe: the spec's own fault. -/
  | busMisaligned
  /-- R73(b): the access is not 32 bits wide. Raised by the port. Safe: the spec's own fault. -/
  | busWidth
  /-- R73(c): the offset is unmapped, or the address lies outside the block's 2^28 bytes, which the port
  does not decode (R71). Raised by the port. Safe: the spec's own fault. -/
  | busUnmapped
deriving DecidableEq, Repr

/-- What a step can refuse. -/
inductive Refusal where
  /-- A command that has no meaning yet, by its mnemonic. Raised by exec's arms alone; no arm of this
  model answers with it. Safe. -/
  | notModelled (mnemonic : String)
deriving DecidableEq, Repr

/-- A register file of `n` cells from a function of the index. -/
def tabulate {α : Type} (n : Nat) (f : Nat → α) : Vector α n := ⟨⟨(List.range n).map f⟩, by simp⟩

/-- STATUS after reset: every field 0 (R34). -/
def Status.reset : Status := ⟨false, false, false, false, 0#4, 0#8, 0#8⟩

/-- KEY when its contents are unspecified: 1000 free values (R57, assumption 2). -/
def unspecifiedKey (era : Nat) : Vector Byte 1000 :=
  tabulate 1000 fun i => (Config.unspecified .key era i).setWidth 8

/-- The reset table (R57) for the instance `p`, with the free values of `era` for what it leaves
unspecified. -/
def State.resetOf (p : Params) (era : Nat) : State where
  params := p
  phase := .idle
  cur := Config.unspecified .cur era 0
  ie := false
  status := Status.reset
  ilen := 0#32
  bitlen := 0#32
  olen := 0#32
  wlen := 0#32
  kidx := 0#10
  prime := 0#32
  freq := tabulate 256 fun _ => 0#32
  codelen := tabulate 256 fun _ => 0#8
  key := unspecifiedKey era
  ibuf := ⟨era, []⟩
  wbuf := ⟨era, []⟩
  obuf := ⟨era, []⟩
  fillDraws := 0
  era := era
  inputs := []
  reads := []

/-- The machine right after its first reset, as the instance of the spec's vectors (assumption 1). -/
def State.reset : State := State.resetOf Params.vectors 0

end Sys2Proof.Machine
end

