-- ==== Sys2Proof/Machine/Geometry.lean ====
section
/-! DEFINITION. The cube's sizes (R8, R9), bit slices (R14), coordinates and the word layout (R16). -/

namespace Sys2Proof

/-- S = 2^W, the cube side (R8). -/
def Params.side (p : Params) : Nat := 2 ^ p.w

/-- C = S³ = 2^(3W), the cube capacity in words, and N, the relabel modulus (R8). -/
def Params.capacity (p : Params) : Nat := 2 ^ (3 * p.w)

/-- TAIL: 256 × 4 words for the frequency table and 4 for the bit length (R9). -/
def Params.tail (_ : Params) : Nat := 256 * 4 + 4

/-- FRONT = C − TAIL, the words of the front region (R9). -/
def Params.front (p : Params) : Nat := p.capacity - p.tail

/-- KEYLEN (R10). -/
def keyLen : Nat := 1000

namespace Machine

/-- `v[hi:lo]` of R14 as the field of `n` = hi − lo + 1 bits from bit `lo` up. -/
def bitField (v lo n : Nat) : Nat := (v >>> lo) % 2 ^ n

/-- lin(x,y,z) = z·S² + y·S + x (R16). -/
def lin (p : Params) (c : Coord) : Nat := c.z * p.side ^ 2 + c.y * p.side + c.x

/-- decomp(q) = (q mod S, (q div S) mod S, q div S²) (R16). -/
def decomp (p : Params) (q : Nat) : Coord := ⟨q % p.side, q / p.side % p.side, q / p.side ^ 2⟩

/-- pack(X,Y,Z,b) (R16): the fields Z, Y, X from the top, each W bits, above the payload byte. -/
def pack (p : Params) (c : Coord) (b : Byte) : CubeWord :=
  ⟨BitVec.ofNat 24 ((c.z <<< (2 * p.w)) ||| (c.y <<< p.w) ||| c.x), b⟩

/-- The coordinate fields X, Y, Z of a word, `fields` of R16. -/
def fields (p : Params) (w : CubeWord) : Coord :=
  ⟨bitField w.tag.toNat 0 p.w, bitField w.tag.toNat p.w p.w, bitField w.tag.toNat (2 * p.w) p.w⟩

/-- A relabel word: a tag of 3W bits above a payload byte, `(tag << 8) | b` (R192). -/
def tagged (tag : Nat) (b : Byte) : CubeWord := ⟨BitVec.ofNat 24 tag, b⟩

/-- The word a host value stores: v[WW−1:0], the rest of v ignored (R47, R75). -/
def wordOfSlot (p : Params) (v : Word) : CubeWord :=
  ⟨BitVec.ofNat 24 (bitField v.toNat 8 (3 * p.w)), v.setWidth 8⟩

/-- (a − b) mod m as a non-negative remainder (R13). -/
def subMod (m a b : Nat) : Nat := (a + (m - b % m)) % m

/-- ceil(a/8) (R13). -/
def bytesFor (bits : Nat) : Nat := (bits + 7) / 8

end Machine

end Sys2Proof
end

