-- ==== Sys2Proof/Machine/Ops.lean ====
section
/-! DEFINITION. The named operations every command is built from: cells and register files, the sort
(R18), accepting a command (R53), the error end (R245) and its acknowledge (R248), the success end
(R53), and the resets (R270, R272). -/

namespace Sys2Proof.Machine

/-! Memories -/

/-- The listed cell at an index, if something has written it. -/
def Memory.listed {α : Type} (m : Memory α) (i : Nat) : Option α := m.cells.lookup i

/-- Insert or replace one cell, keeping the indexes in rising order. -/
def insertCell {α : Type} (i : Nat) (v : α) : List (Nat × α) → List (Nat × α)
  | [] => [(i, v)]
  | (j, w) :: rest =>
    if i < j then (i, v) :: (j, w) :: rest
    else if i = j then (i, v) :: rest
    else (j, w) :: insertCell i v rest

/-- Write one cell. -/
def Memory.write {α : Type} (m : Memory α) (i : Nat) (v : α) : Memory α :=
  { m with cells := insertCell i v m.cells }

/-- The cells of a list, numbered upwards from `i`. -/
def numberFrom {α : Type} (i : Nat) : List α → List (Nat × α)
  | [] => []
  | v :: vs => (i, v) :: numberFrom (i + 1) vs

/-- Write a list into the cells 0, 1, 2, … and leave every later cell as it is. -/
def Memory.writeFront {α : Type} (m : Memory α) (vs : List α) : Memory α :=
  { m with cells := numberFrom 0 vs ++ m.cells.filter fun c => decide (vs.length ≤ c.1) }

/-- Contents that have become unspecified in `era` (R57, R272). -/
def Memory.forget {α : Type} (_ : Memory α) (era : Nat) : Memory α := ⟨era, []⟩

/-- IBUF[i] (R46). -/
def State.ibufAt (s : State) (i : Nat) : Byte :=
  (s.ibuf.listed i).getD ((Config.unspecified .ibuf s.ibuf.era i).setWidth 8)

/-- WBUF[q] (R47): WW bits, whatever the free value of an unlisted word is. -/
def State.wbufAt (s : State) (q : Nat) : CubeWord :=
  (s.wbuf.listed q).getD (wordOfSlot s.params (Config.unspecified .wbuf s.wbuf.era q))

/-- OBUF[n] (R49). -/
def State.obufAt (s : State) (n : Nat) : Byte :=
  (s.obuf.listed n).getD ((Config.unspecified .obuf s.obuf.era n).setWidth 8)

/-! Register files -/

/-- KEY[i] (R45). No command reads an index of 1000 or more: K reads i < S ≤ 256 (R17), and the relabel
commands check KIDX first (R194, R197). -/
def State.keyAt (s : State) (i : Nat) : Byte := if h : i < 1000 then s.key[i] else 0#8

/-- FREQ[s] for a symbol (R43). -/
def State.freqAt (s : State) (b : Byte) : Word := s.freq[b.toNat]'b.isLt

/-- CODELEN[s] for a symbol (R44). -/
def State.codelenAt (s : State) (b : Byte) : Byte := s.codelen[b.toNat]'b.isLt

/-- A 256-entry register file from a function of the symbol. -/
def perSymbol {α : Type} (f : Byte → α) : Vector α 256 := tabulate 256 fun i => f (BitVec.ofNat 8 i)

/-! The sort -/

/-- Ascending unsigned order of full word values: the tag decides, the payload breaks ties (R18). -/
def wordLe (a b : CubeWord) : Bool :=
  decide (a.tag.toNat < b.tag.toNat) ||
    (decide (a.tag.toNat = b.tag.toNat) && decide (a.payload.toNat ≤ b.payload.toNat))

/-- Merge one list headed by `x` into another, given how the rest of the first one merges. -/
def mergeOne {α : Type} (le : α → α → Bool) (x : α) (xs : List α) (mergeRest : List α → List α) :
    List α → List α
  | [] => x :: xs
  | y :: ys => if le x y then x :: mergeRest (y :: ys) else y :: mergeOne le x xs mergeRest ys

/-- Merge two ascending lists. -/
def merge {α : Type} (le : α → α → Bool) : List α → List α → List α
  | [] => fun ys => ys
  | x :: xs => fun ys => mergeOne le x xs (merge le xs) ys

/-- Sort a list of at most 2^n elements by halving it n times. -/
def sortHalving {α : Type} (le : α → α → Bool) : Nat → List α → List α
  | 0, l => l
  | n + 1, l => merge le (sortHalving le n (l.take (2 ^ n))) (sortHalving le n (l.drop (2 ^ n)))

/-- sort_asc of the C = 2^(3W) words of the cube (R18). -/
def sortAsc (p : Params) (ws : List CubeWord) : List CubeWord := sortHalving wordLe (3 * p.w) ws

/-- All words of the cube by position: the word that `f` gives for each q in 0..C−1. -/
def cubeWords (p : Params) (f : Nat → CubeWord) : List CubeWord := (List.range p.capacity).map f

/-- WBUF[0..C−1] <- ws. -/
def State.storeCube (s : State) (ws : List CubeWord) : State := { s with wbuf := s.wbuf.writeFront ws }

/-! Accepting and ending a command -/

/-- ERRCODE of an error (R241). -/
def CmdError.code : CmdError → BitVec 4
  | .illegalCmd => 1#4
  | .decodeUnderrun => 2#4
  | .cubeSizeMismatch => 3#4
  | .inputTooLarge => 4#4
  | .invalidCode => 5#4
  | .outputOverflow => 6#4
  | .badConfig => 7#4

/-- Acceptance of the word `v` (R53): BUSY, CUR and LASTOP take it, DONE, ERR, ERRCODE and ERROP clear,
OVR and BACC stay. -/
def State.accept (s : State) (v : Word) : State :=
  { s with
    phase := .busy
    cur := v
    status := { s.status with
      lastop := Word.opcode v, done := false, err := false, errcode := 0#4, errop := 0#8 } }

/-- The error end, MHC's only "trap entry" (R245): IDLE, ERR, the code and the opcode of the command or
stage that failed. DONE stays as acceptance left it; nothing is saved and nothing is vectored. -/
def State.errorEnd (s : State) (e : CmdError) (op : Byte) : State :=
  { s with phase := .idle, status := { s.status with err := true, errcode := e.code, errop := op } }

/-- The end of a command that raised no error (R53): IDLE and DONE. -/
def State.successEnd (s : State) : State :=
  { s with phase := .idle, status := { s.status with done := true } }

/-- How the body of a stage ends: with its writes made, or with an error and the writes made before the
check that failed, which stand (R20, R246). -/
inductive StageEnd where
  | ok (s : State)
  | error (e : CmdError) (s : State)
deriving DecidableEq, Repr

/-- Go on with `k` after a stage, or end the command with the stage's error under its opcode. -/
def StageEnd.thenDo (r : StageEnd) (op : Byte) (k : State → State) : State :=
  match r with
  | .ok s => k s
  | .error e s => s.errorEnd e op

/-- The acknowledge, the nearest MHC has to a return (R248, R34): a word written to STATUS clears the
flags it has a 1 for, and ERRCODE and ERROP with ERR. Every other bit ignores the write. -/
def Status.acknowledge (t : Status) (v : Word) : Status :=
  { t with
    done := t.done && !v.getLsbD 1
    err := t.err && !v.getLsbD 2
    errcode := if v.getLsbD 2 then 0#4 else t.errcode
    errop := if v.getLsbD 2 then 0#8 else t.errop
    ovr := t.ovr && !v.getLsbD 3
    bacc := t.bacc && !v.getLsbD 4 }

/-! Resets -/

/-- WBUF is in a command's write set (R56). An illegal word writes nothing (R103). -/
def writesWbuf : Except IllegalWord Instr → Bool
  | .ok .hufEncode | .ok .cubeEncode | .ok .relabelEncode | .ok .encodeAll => true
  | .ok .cubeDecode | .ok .relabelDecode | .ok .decodeAll => true
  | .ok .nop | .ok .hufDecode => false
  | .error _ => false

/-- OBUF is in a command's write set (R56). -/
def writesObuf : Except IllegalWord Instr → Bool
  | .ok .hufDecode | .ok .decodeAll => true
  | .ok .nop | .ok .hufEncode | .ok .cubeEncode | .ok .relabelEncode | .ok .encodeAll => false
  | .ok .cubeDecode | .ok .relabelDecode => false
  | .error _ => false

/-- A soft reset aborts a running command that could write this memory. -/
def State.aborts (s : State) (inWriteSet : Except IllegalWord Instr → Bool) : Bool :=
  decide (s.phase = .busy) && inWriteSet (decode s.cur)

/-- Soft reset (R272). KEY and IBUF survive it; WBUF and OBUF do unless the aborted command could write
them, and then hold the free values of a new era. CUR, meaningless once IDLE, keeps its value. -/
def State.softReset (s : State) : State :=
  { s with
    wbuf := if s.aborts writesWbuf then s.wbuf.forget (s.era + 1) else s.wbuf
    obuf := if s.aborts writesObuf then s.obuf.forget (s.era + 1) else s.obuf
    era := s.era + 1
    ie := false
    status := Status.reset
    ilen := 0#32
    bitlen := 0#32
    olen := 0#32
    wlen := 0#32
    kidx := 0#10
    prime := 0#32
    freq := tabulate 256 fun _ => 0#32
    codelen := tabulate 256 fun _ => 0#8
    phase := .idle }

/-- Hardware reset (R270): the reset table in one step, with the free values of a new era. What the
host still sends, what it has received and the count of fill draws are outside MHC and stay. -/
def State.hardReset (s : State) : State :=
  { State.resetOf s.params (s.era + 1) with
    fillDraws := s.fillDraws
    inputs := s.inputs
    reads := s.reads }

end Sys2Proof.Machine
end

