-- ==== Sys2Proof/Machine/Flags.lean ====
section
/-! DEFINITION. STATUS, MHC's only flags (R55), as the host reads it (R34), the bits commands and host
misuse set, and the IRQ output (R250). -/

namespace Sys2Proof.Machine

/-- STATUS.BUSY (R34, R51). -/
def State.isBusy (s : State) : Bool := decide (s.phase = .busy)

/-- STATUS as one word (R34): ERROP, LASTOP, reserved, ERRCODE, reserved, BACC, OVR, ERR, DONE, BUSY. -/
def State.statusWord (s : State) : Word :=
  s.status.errop ++ s.status.lastop ++ 0#4 ++ s.status.errcode ++ 0#3 ++
    BitVec.ofBool s.status.bacc ++ BitVec.ofBool s.status.ovr ++ BitVec.ofBool s.status.err ++
    BitVec.ofBool s.status.done ++ BitVec.ofBool s.isBusy

/-- CTRL as the host reads it (R33): IE in bit 0; SRST and the reserved bits read 0. -/
def State.ctrlWord (s : State) : Word := 0#31 ++ BitVec.ofBool s.ie

/-- IRQ = CTRL.IE ∧ (STATUS.DONE ∨ STATUS.ERR) (R250), the level of MHC's one interrupt output. -/
def State.irq (s : State) : Bool := s.ie && (s.status.done || s.status.err)

/-- OVR is set by a CMD write while busy (R35). -/
def State.setOvr (s : State) : State := { s with status := { s.status with ovr := true } }

/-- BACC is set by an access to an engine-owned location while busy (R76). -/
def State.setBacc (s : State) : State := { s with status := { s.status with bacc := true } }

end Sys2Proof.Machine
end

