-- ==== Sys2Proof/Machine/Operands.lean ====
section
/-! DEFINITION. The operands commands take from fixed registers and memories (R104): key shifts (R17),
stream bits (R126), tail bytes (R162) and the primes (R19, R190). -/

namespace Sys2Proof.Machine

/-- K(i) = KEY[i] mod S (R17). -/
def State.keyShift (s : State) (i : Nat) : Nat := (s.keyAt i).toNat % s.params.side

/-! The packed bitstream -/

/-- PackByte(bits, j) (R126): bits 8j to 8j+7 of the string, the first in bit 7, 0 beyond its end. -/
def packByte (bits : List Bool) (j : Nat) : Byte :=
  BitVec.ofNat 8 (((List.range 8).map fun m => (bits.getD (8 * j + m) false).toNat <<< (7 - m)).sum)

/-- StreamBit(t) (R126): the bit of the stream held in the front region. -/
def State.streamBit (s : State) (t : Nat) : Bool := (s.wbufAt (t / 8)).payload.getLsbD (7 - t % 8)

/-- The first `n` bits of the stream in the front region. -/
def State.streamBits (s : State) (n : Nat) : List Bool := (List.range n).map s.streamBit

/-! The tail region -/

/-- Byte j of a 32-bit value, the most significant first (R162). -/
def byteBE (v : Word) (j : Nat) : Byte := (v >>> (8 * (3 - j))).setWidth 8

/-- The 32-bit value of four bytes, the most significant first (R170). -/
def wordBE (b0 b1 b2 b3 : Byte) : Word := b0 ++ b1 ++ b2 ++ b3

/-- TailByte(r) (R162) of a frequency table and a bit length: the table in symbol order, then the bit
length, four bytes each. -/
def tailByteOf (F : Byte → Word) (bitlen : Word) (r : Nat) : Byte :=
  if r < 1024 then byteBE (F (BitVec.ofNat 8 (r / 4))) (r % 4) else byteBE bitlen (r - 1024)

/-- TailByte(r) of FREQ and BITLEN (R162). -/
def State.tailByte (s : State) (r : Nat) : Byte := tailByteOf s.freqAt s.bitlen r

/-- The 32-bit value whose four bytes are the payloads of WBUF[q..q+3] (R170). -/
def State.wbufWordBE (s : State) (q : Nat) : Word :=
  wordBE (s.wbufAt q).payload (s.wbufAt (q + 1)).payload (s.wbufAt (q + 2)).payload
    (s.wbufAt (q + 3)).payload

/-! Primes -/

/-- No d from `d` up with d² ≤ n divides n; `fuel` bounds the search. -/
def noDivisorFrom : (fuel : Nat) → (d n : Nat) → Bool
  | 0, _, _ => true
  | fuel + 1, d, n =>
    if n < d * d then true else if n % d = 0 then false else noDivisorFrom fuel (d + 1) n

/-- Trial division. -/
def isPrime (n : Nat) : Bool := decide (2 ≤ n) && noDivisorFrom n 2 n

/-- The first prime from `n` up, sought among `fuel` numbers. -/
def primeFrom : (fuel : Nat) → (n : Nat) → Nat
  | 0, n => n
  | fuel + 1, n => if isPrime n then n else primeFrom fuel (n + 1)

/-- P(j), the (j+1)-th prime (R19). The prime after q lies in q+1..2q (assumption 16). -/
def nthPrime : Nat → Nat
  | 0 => 2
  | j + 1 => primeFrom (nthPrime j) (nthPrime j + 1)

/-- The loop of R190: the first prime from index j up that does not divide N; `fuel` bounds the search. -/
def primeNotDividing : (fuel : Nat) → (j N : Nat) → Nat
  | 0, j, _ => nthPrime j
  | fuel + 1, j, N => if N % nthPrime j = 0 then primeNotDividing fuel (j + 1) N else nthPrime j

/-- SelectPrime(kb, N) (R190). Fewer than N primes divide N, so N steps suffice. -/
def selectPrime (kb : Byte) (N : Nat) : Nat := primeNotDividing N kb.toNat N

end Sys2Proof.Machine
end

