-- ==== Sys2Proof/Machine/Cube.lean ====
section
/-! DEFINITION. The Cube Permutation Engine (41_cube.md): the keyed coordinate map (R160, R161),
CUBE_ENCODE (R165) and CUBE_DECODE (R170). -/

namespace Sys2Proof.Machine

/-- Fwd(x,y,z) (R160) for a key shift K: Y and Z are shifted by K of the new X. -/
def fwd (p : Params) (K : Nat → Nat) (c : Coord) : Coord :=
  let X := (c.x + K c.y) % p.side
  ⟨X, (c.y + K X) % p.side, (c.z + K X) % p.side⟩

/-- Inv(X,Y,Z) (R161, R170): Z first, then Y, then X by the un-shifted Y. -/
def inv (p : Params) (K : Nat → Nat) (c : Coord) : Coord :=
  let z := subMod p.side c.z (K c.x)
  let y := subMod p.side c.y (K c.x)
  ⟨subMod p.side c.x (K y), y, z⟩

/-- The payload byte p[q] of R165: stream, then fill (R163), then metadata (R162). The n-th fill byte of
the command is the n-th draw from `fillDraws` on (assumption 5). -/
def State.cubePayload (s : State) (plen q : Nat) : Byte :=
  if q < plen then (s.wbufAt q).payload
  else if q < s.params.front then Config.fillByte (s.fillDraws + (q - plen))
  else s.tailByte (q - s.params.front)

/-- The words w[q] of R165: the payload of q under the fields Fwd(decomp(q)). -/
def State.cubeEncoded (s : State) (plen q : Nat) : CubeWord :=
  pack s.params (fwd s.params s.keyShift (decomp s.params q)) (s.cubePayload plen q)

/-- The body of CUBE_ENCODE (R165). -/
def cubeEncodeBody (s : State) : StageEnd :=
  let plen := bytesFor s.bitlen.toNat
  if s.params.front < plen then .error .inputTooLarge s
  else
    .ok { s.storeCube (sortAsc s.params (cubeWords s.params (s.cubeEncoded plen))) with
      fillDraws := s.fillDraws + (s.params.front - plen) }

/-- The words w[q] of R170: the payload of WBUF[q] under its un-shifted fields. -/
def State.cubeUnshifted (s : State) (q : Nat) : CubeWord :=
  pack s.params (inv s.params s.keyShift (fields s.params (s.wbufAt q))) (s.wbufAt q).payload

/-- FREQ and BITLEN from the payloads of the tail region (R170). -/
def State.readTail (s : State) : State :=
  { s with
    freq := perSymbol fun b => s.wbufWordBE (s.params.front + 4 * b.toNat)
    bitlen := s.wbufWordBE (s.params.capacity - 4) }

/-- The body of CUBE_DECODE (R170). -/
def cubeDecodeBody (s : State) : StageEnd :=
  if s.wlen.toNat ≠ s.params.capacity then .error .cubeSizeMismatch s
  else .ok (s.storeCube (sortAsc s.params (cubeWords s.params s.cubeUnshifted))).readTail

/-- CUBE_ENCODE (R165): its end step. -/
def execCubeEncode (s : State) : Host.Outcome State Fault Refusal :=
  .next ((cubeEncodeBody s).thenDo 0x02#8 State.successEnd)

/-- CUBE_DECODE (R170): its end step. -/
def execCubeDecode (s : State) : Host.Outcome State Fault Refusal :=
  .next ((cubeDecodeBody s).thenDo 0x12#8 State.successEnd)

end Sys2Proof.Machine
end

