-- ==== Sys2Proof/Machine/Huffman.lean ====
section
/-! DEFINITION. The Huffman Codec (40_huffman.md): the tree (R120 to R123), its codes (R124), HUF_ENCODE
(R130) and HUF_DECODE (R140). -/

namespace Sys2Proof.Machine

/-- A node of a Huffman tree (R120). `single` is the root of a one-symbol tree: a left child and no
right child (R122). -/
inductive HuffNode where
  | leaf (sym : Byte) (freq : Nat)
  | single (left : HuffNode) (freq id : Nat)
  | node (left right : HuffNode) (freq id : Nat)
deriving DecidableEq, Repr

/-- The frequency part of a node's key (R120). -/
def HuffNode.freq : HuffNode → Nat
  | .leaf _ f => f
  | .single _ f _ => f
  | .node _ _ f _ => f

/-- The id part of a node's key: the symbol of a leaf, 256 + k of the k-th internal node (R120). -/
def HuffNode.id : HuffNode → Nat
  | .leaf s _ => s.toNat
  | .single _ _ i => i
  | .node _ _ _ i => i

/-- Keys (freq, id) compare lexicographically (R120). -/
def HuffNode.keyLt (a b : HuffNode) : Bool :=
  decide (a.freq < b.freq) || (decide (a.freq = b.freq) && decide (a.id < b.id))

/-- The left child, if the node has one. -/
def HuffNode.left? : HuffNode → Option HuffNode
  | .leaf _ _ => none
  | .single l _ _ => some l
  | .node l _ _ _ => some l

/-- The right child, if the node has one. -/
def HuffNode.right? : HuffNode → Option HuffNode
  | .leaf _ _ => none
  | .single _ _ _ => none
  | .node _ r _ _ => some r

/-- The node of least key among `best` and a pool, and the others. -/
def takeLeastFrom (best : HuffNode) (others : List HuffNode) :
    List HuffNode → HuffNode × List HuffNode
  | [] => (best, others)
  | x :: xs =>
    if x.keyLt best then takeLeastFrom x (best :: others) xs else takeLeastFrom best (x :: others) xs

/-- Remove the node of least key from a pool (R120). Keys are distinct, so the order of the pool does
not matter (R121, assumption 21). -/
def takeLeast : List HuffNode → Option (HuffNode × List HuffNode)
  | [] => none
  | x :: xs => some (takeLeastFrom x [] xs)

/-- The merging loop (R120): while two nodes are left, the two of least key become the left and the
right child of internal node `k`. The pool loses one node a turn, so its size is fuel enough. -/
def mergePool : (fuel : Nat) → (k : Nat) → List HuffNode → Option HuffNode
  | 0, _, _ => none
  | fuel + 1, k, pool =>
    match takeLeast pool with
    | none => none
    | some (a, pool₁) =>
      match takeLeast pool₁ with
      | none => some a
      | some (b, pool₂) =>
        mergePool fuel (k + 1) (pool₂ ++ [.node a b (a.freq + b.freq) (256 + k)])

/-- The pool BuildTree starts from: a leaf for each symbol that occurs (R120). -/
def leafPool (F : Byte → Nat) : List HuffNode :=
  (List.range 256).filterMap fun i =>
    if F (BitVec.ofNat 8 i) = 0 then none else some (.leaf (BitVec.ofNat 8 i) (F (BitVec.ofNat 8 i)))

/-- BuildTree(F) (R120): `none` is the Empty tree (R123), and a sole leaf hangs to the left of a root of
its own (R122). -/
def buildTree (F : Byte → Nat) : Option HuffNode :=
  match leafPool F with
  | [] => none
  | [a] => some (.single a a.freq 256)
  | a :: b :: rest => mergePool (rest.length + 2) 0 (a :: b :: rest)

/-- The path from a node to the leaf of a symbol, left false and right true (R124). -/
def HuffNode.code? (s : Byte) : HuffNode → Option (List Bool)
  | .leaf s' _ => if s' = s then some [] else none
  | .single l _ _ => (l.code? s).map (false :: ·)
  | .node l r _ _ =>
    match l.code? s with
    | some c => some (false :: c)
    | none => (r.code? s).map (true :: ·)

/-- Code_T(s), if symbol s has a leaf in the tree (R124). -/
def codeOf (T : Option HuffNode) (s : Byte) : Option (List Bool) := T.bind (·.code? s)

/-- What a command that builds T writes to CODELEN: code lengths, 0 for a symbol without a leaf (R124). -/
def codeLengths (T : Option HuffNode) : Vector Byte 256 :=
  perSymbol fun s => BitVec.ofNat 8 ((codeOf T s).getD []).length

/-- The concatenated codes of a list of bytes, in order (R130). -/
def encodeBits (T : Option HuffNode) (data : List Byte) : List Bool :=
  data.flatMap fun b => (codeOf T b).getD []

/-- IBUF[0..ILEN−1] (R130). -/
def State.inputBytes (s : State) : List Byte := (List.range s.ilen.toNat).map s.ibufAt

/-- The body of HUF_ENCODE (R130). -/
def hufEncodeBody (s : State) : StageEnd :=
  if s.params.ibufSize < s.ilen.toNat then .error .inputTooLarge s
  else
    let data := s.inputBytes
    let T := buildTree fun b => data.count b
    let bits := encodeBits T data
    let plen := bytesFor bits.length
    let s₁ : State :=
      { s with
        freq := perSymbol fun b => BitVec.ofNat 32 (data.count b)
        codelen := codeLengths T
        bitlen := BitVec.ofNat 32 bits.length }
    if s.params.front < plen then .error .inputTooLarge s₁
    else .ok (s₁.storeCube
      (cubeWords s.params fun q => tagged 0 (if q < plen then packByte bits q else 0#8)))

/-- How a bit walk ends: the bytes it emitted, and its error if it raised one. -/
structure WalkEnd where
  out : List Byte
  err : Option CmdError
deriving DecidableEq, Repr

/-- A byte emitted before the rest of a walk. -/
def WalkEnd.emit (b : Byte) (r : WalkEnd) : WalkEnd := ⟨b :: r.out, r.err⟩

/-- The child a stream bit leads to: left for 0, right for 1 (R140). -/
def HuffNode.child? (n : HuffNode) (bit : Bool) : Option HuffNode := if bit then n.right? else n.left?

/-- The bit walk of R140 with checks HD3, HD4 and HD5. `at?` is the inner node the walk stands at, none
at the root; `n` is the number of bytes emitted and `cap` is OBUF_SIZE. -/
def walkBits (root : HuffNode) (cap : Nat) : List Bool → (at? : Option HuffNode) → (n : Nat) → WalkEnd
  | [], at?, _ => ⟨[], if at?.isSome then some .decodeUnderrun else none⟩
  | bit :: bits, at?, n =>
    match (at?.getD root).child? bit with
    | none => ⟨[], some .invalidCode⟩
    | some (.leaf s _) =>
      if n = cap then ⟨[], some .outputOverflow⟩ else (walkBits root cap bits none (n + 1)).emit s
    | some c => walkBits root cap bits (some c) n

/-- The walk of R140 over a tree that may be Empty, with check HD2. -/
def decodeBits (T : Option HuffNode) (cap : Nat) (bits : List Bool) : WalkEnd :=
  match T with
  | none => ⟨[], if bits.isEmpty then none else some .invalidCode⟩
  | some root => walkBits root cap bits none 0

/-- The body of HUF_DECODE (R140). After checks HD2 to HD5 the bytes decoded so far stand. -/
def hufDecodeBody (s : State) : StageEnd :=
  if 8 * s.params.front < s.bitlen.toNat then .error .decodeUnderrun s
  else
    let T := buildTree fun b => (s.freqAt b).toNat
    let r := decodeBits T s.params.obufSize (s.streamBits s.bitlen.toNat)
    let s₁ : State :=
      { s with
        codelen := codeLengths T
        obuf := s.obuf.writeFront r.out
        olen := BitVec.ofNat 32 r.out.length }
    match r.err with
    | none => .ok s₁
    | some e => .error e s₁

/-- HUF_ENCODE (R130): its end step. -/
def execHufEncode (s : State) : Host.Outcome State Fault Refusal :=
  .next ((hufEncodeBody s).thenDo 0x01#8 State.successEnd)

/-- HUF_DECODE (R140): its end step. -/
def execHufDecode (s : State) : Host.Outcome State Fault Refusal :=
  .next ((hufDecodeBody s).thenDo 0x11#8 State.successEnd)

end Sys2Proof.Machine
end

