-- ==== Sys2Proof/Machine/Relabel.lean ====
section
/-! DEFINITION. The Final Stride Relabeler (42_relabel.md): the stride map (R193), RELABEL_ENCODE (R194)
and RELABEL_DECODE (R197). -/

namespace Sys2Proof.Machine

/-- pos(i) = C − ((i·prime) mod C), for i in 1..C−1 (R193). -/
def stridePos (p : Params) (prime i : Nat) : Nat := p.capacity - i * prime % p.capacity

/-- The prime both relabel commands select by KEY[KIDX] (R190, R191). -/
def State.relabelPrime (s : State) : Nat := selectPrime (s.keyAt s.kidx.toNat) s.params.capacity

/-- The position whose word gets tag i in R194: position 0 keeps tag 0, and pos(i) gets tag i. -/
def relabelSource (p : Params) (prime i : Nat) : Nat := if i = 0 then 0 else stridePos p prime i

/-- The word of R194 with tag i. The loop gives tag i to position pos(i), and pos reaches each of the
positions 1..C−1 once (R193), so these words for i in 0..C−1 are the words w[q] for q in 0..C−1, in
another order before the sort (assumption 11). -/
def State.relabelEncoded (s : State) (prime i : Nat) : CubeWord :=
  tagged i (s.wbufAt (relabelSource s.params prime i)).payload

/-- PRIME <- prime (R191). -/
def State.setPrime (s : State) (prime : Nat) : State := { s with prime := BitVec.ofNat 32 prime }

/-- The body of RELABEL_ENCODE (R194). -/
def relabelEncodeBody (s : State) : StageEnd :=
  if keyLen ≤ s.kidx.toNat then .error .badConfig s
  else
    let prime := s.relabelPrime
    .ok ((s.setPrime prime).storeCube
      (sortAsc s.params (cubeWords s.params (s.relabelEncoded prime))))

/-- The word w[q] of R197: the payload of WBUF[q] under the tag pos(q), tag 0 at position 0 (R201). -/
def State.relabelDecoded (s : State) (prime q : Nat) : CubeWord :=
  tagged (relabelSource s.params prime q) (s.wbufAt q).payload

/-- The body of RELABEL_DECODE (R197). -/
def relabelDecodeBody (s : State) : StageEnd :=
  if s.wlen.toNat ≠ s.params.capacity then .error .cubeSizeMismatch s
  else if keyLen ≤ s.kidx.toNat then .error .badConfig s
  else
    let prime := s.relabelPrime
    .ok ((s.setPrime prime).storeCube
      (sortAsc s.params (cubeWords s.params (s.relabelDecoded prime))))

/-- RELABEL_ENCODE (R194): its end step. -/
def execRelabelEncode (s : State) : Host.Outcome State Fault Refusal :=
  .next ((relabelEncodeBody s).thenDo 0x03#8 State.successEnd)

/-- RELABEL_DECODE (R197): its end step. -/
def execRelabelDecode (s : State) : Host.Outcome State Fault Refusal :=
  .next ((relabelDecodeBody s).thenDo 0x13#8 State.successEnd)

end Sys2Proof.Machine
end

