-- ==== Sys2Proof/Machine/Control.lean ====
section
/-! DEFINITION. NOP (R221), the whole-pipeline commands (R222, R223) and the end of an illegal word
(R103, R220). -/

namespace Sys2Proof.Machine

/-- NOP (R221): its end step, which changes nothing but the phase and DONE. -/
def execNop (s : State) : Host.Outcome State Fault Refusal := .next s.successEnd

/-- ENCODE_ALL (R222): the three encode stages; the first error ends it under that stage's opcode. -/
def execEncodeAll (s : State) : Host.Outcome State Fault Refusal :=
  .next ((hufEncodeBody s).thenDo 0x01#8 fun s₁ =>
    (cubeEncodeBody s₁).thenDo 0x02#8 fun s₂ =>
      (relabelEncodeBody s₂).thenDo 0x03#8 State.successEnd)

/-- DECODE_ALL (R223): the three decode stages; the first error ends it under that stage's opcode. -/
def execDecodeAll (s : State) : Host.Outcome State Fault Refusal :=
  .next ((relabelDecodeBody s).thenDo 0x13#8 fun s₁ =>
    (cubeDecodeBody s₁).thenDo 0x12#8 fun s₂ =>
      (hufDecodeBody s₂).thenDo 0x11#8 State.successEnd)

/-- The end of an accepted word that is no command (R103, R220): ILLEGAL_CMD with ERROP = CUR[7:0], and
nothing else written. -/
def illegalEnd (s : State) : Host.Outcome State Fault Refusal :=
  .next (s.errorEnd .illegalCmd (Word.opcode s.cur))

end Sys2Proof.Machine
end

