-- ==== Sys2Proof/Machine/Dispatch.lean ====
section
/-! DEFINITION. Dispatch: one arm per command, one meaning per arm (R220). -/

namespace Sys2Proof.Machine

def exec (i : Instr) (s : State) : Host.Outcome State Fault Refusal :=
  match i with
  | .nop => Sys2Proof.Machine.execNop s
  | .hufEncode => Sys2Proof.Machine.execHufEncode s
  | .cubeEncode => Sys2Proof.Machine.execCubeEncode s
  | .relabelEncode => Sys2Proof.Machine.execRelabelEncode s
  | .encodeAll => Sys2Proof.Machine.execEncodeAll s
  | .hufDecode => Sys2Proof.Machine.execHufDecode s
  | .cubeDecode => Sys2Proof.Machine.execCubeDecode s
  | .relabelDecode => Sys2Proof.Machine.execRelabelDecode s
  | .decodeAll => Sys2Proof.Machine.execDecodeAll s

end Sys2Proof.Machine
end

