-- ==== Sys2Proof/Machine/Engine.lean ====
section
/-! DEFINITION. The engine's turn (R220): what it fetches and how it ends the accepted command. -/

namespace Sys2Proof.Machine

/-- The engine reads its command from CUR (R87, R220); MHC fetches nothing from memory. -/
def State.fetch (s : State) : Except IllegalWord Instr := decode s.cur

/-- EndCommand(CUR) (R220). -/
def endCommand (s : State) : Host.Outcome State Fault Refusal :=
  match s.fetch with
  | .ok i => exec i s
  | .error _ => illegalEnd s

/-- The engine's turn: the end step of the command while BUSY; no step while IDLE (R259). -/
def engineTurn (s : State) : Host.Outcome State Fault Refusal :=
  match s.phase with
  | .busy => endCommand s
  | .idle => .next s

end Sys2Proof.Machine
end

