-- ==== Sys2Proof/Machine/Port.lean ====
section
/-! DEFINITION. The host port (20_memory.md): the address map (R72), bus errors (R73), what a read
returns and what a write does, idle and busy (R74 to R76, R81). -/

namespace Sys2Proof.Machine

/-- What a mapped offset names (R72). -/
inductive Loc where
  | id | config | ctrl | status | cmd | ilen | bitlen | olen | wlen | kidx | prime | ibufsz | obufsz
  /-- A register offset in 0x034..0xFFC (R74). -/
  | reserved
  | freq (s : Byte)
  | codelen (s : Byte)
  | key (i : Nat)
  | ibuf (i : Nat)
  | wbuf (q : Nat)
  | obuf (n : Nat)
deriving DecidableEq, Repr

/-- The control register at slot `k` of the register region (10_state.md section 2). -/
def regAt (k : Nat) : Loc :=
  match k with
  | 0 => .id
  | 1 => .config
  | 2 => .ctrl
  | 3 => .status
  | 4 => .cmd
  | 5 => .ilen
  | 6 => .bitlen
  | 7 => .olen
  | 8 => .wlen
  | 9 => .kidx
  | 10 => .prime
  | 11 => .ibufsz
  | 12 => .obufsz
  | _ => .reserved

/-- The slot number of an offset in the window of `size` slots at `start`, if it lies in it. -/
def inWindow (start size off : Nat) : Option Nat :=
  if start ≤ off ∧ off < start + 4 * size then some ((off - start) / 4) else none

/-- The address map (R72): what an offset names, or none where it is unmapped. -/
def locOf (p : Params) (off : Nat) : Option Loc :=
  ((inWindow 0x0000000 1024 off).map regAt).or <|
  ((inWindow 0x0001000 256 off).map fun k => .freq (BitVec.ofNat 8 k)).or <|
  ((inWindow 0x0001400 256 off).map fun k => .codelen (BitVec.ofNat 8 k)).or <|
  ((inWindow 0x0002000 keyLen off).map .key).or <|
  ((inWindow 0x4000000 p.ibufSize off).map .ibuf).or <|
  ((inWindow 0x8000000 p.capacity off).map .wbuf).or <|
  ((inWindow 0xC000000 p.obufSize off).map .obuf)

/-- Engine-owned locations (R76): all but the seven it names, and but the reserved offsets. -/
def Loc.engineOwned : Loc → Bool
  | .id | .config | .ctrl | .status | .cmd | .ibufsz | .obufsz | .reserved => false
  | .ilen | .bitlen | .olen | .wlen | .kidx | .prime => true
  | .freq _ | .codelen _ | .key _ | .ibuf _ | .wbuf _ | .obuf _ => true

/-- The value of a slot, narrow cells zero-extended (R31 to R49, R74, R75). -/
def State.slotValue (s : State) : Loc → Word
  | .id => 0x4D484331#32
  | .config => BitVec.ofNat 32 s.params.w
  | .ctrl => s.ctrlWord
  | .status => s.statusWord
  | .cmd => 0#32
  | .ilen => s.ilen
  | .bitlen => s.bitlen
  | .olen => s.olen
  | .wlen => s.wlen
  | .kidx => s.kidx.setWidth 32
  | .prime => s.prime
  | .ibufsz => BitVec.ofNat 32 s.params.ibufSize
  | .obufsz => BitVec.ofNat 32 s.params.obufSize
  | .reserved => 0#32
  | .freq b => s.freqAt b
  | .codelen b => (s.codelenAt b).setWidth 32
  | .key i => (s.keyAt i).setWidth 32
  | .ibuf i => (s.ibufAt i).setWidth 32
  | .wbuf q => (s.wbufAt q).toWord
  | .obuf n => (s.obufAt n).setWidth 32

/-- A host write that reaches its location: narrow cells take the low bits (R75), read-only and reserved
locations ignore it (R74), CTRL may reset (R33), STATUS clears (R34), CMD is accepted or lost (R35). -/
def State.writeSlot (s : State) (l : Loc) (v : Word) : State :=
  match l with
  | .id | .config | .ibufsz | .obufsz | .reserved => s
  | .olen | .prime | .codelen _ | .obuf _ => s
  | .ctrl => if v.getLsbD 1 then s.softReset else { s with ie := v.getLsbD 0 }
  | .status => { s with status := s.status.acknowledge v }
  | .cmd => if s.isBusy then s.setOvr else s.accept v
  | .ilen => { s with ilen := v }
  | .bitlen => { s with bitlen := v }
  | .wlen => { s with wlen := v }
  | .kidx => { s with kidx := v.setWidth 10 }
  | .freq b => { s with freq := s.freq.set b.toNat v b.isLt }
  | .key i => { s with key := s.key.setIfInBounds i (v.setWidth 8) }
  | .ibuf i => { s with ibuf := s.ibuf.write i (v.setWidth 8) }
  | .wbuf q => { s with wbuf := s.wbuf.write q (wordOfSlot s.params v) }

/-- A location the engine owns now (R76). -/
def State.ownedNow (s : State) (l : Loc) : Bool := s.isBusy && l.engineOwned

/-- The value a read returns to the host. -/
def State.respond (s : State) (v : Word) : State := { s with reads := v :: s.reads }

/-- A legal read: an engine-owned location reads 0 while busy and sets BACC (R76); else its value. -/
def State.readLoc (s : State) (l : Loc) : State :=
  if s.ownedNow l then s.setBacc.respond 0#32 else s.respond (s.slotValue l)

/-- A legal write: one to an engine-owned location is dropped while busy and sets BACC (R76). -/
def State.writeLoc (s : State) (l : Loc) (v : Word) : State :=
  if s.ownedNow l then s.setBacc else s.writeSlot l v

/-- The offset an address has in the block, whose port decodes 28 bits from BASE (R71). -/
def offsetOf (p : Params) (addr : Nat) : Option Nat :=
  if p.base ≤ addr ∧ addr < p.base + 2 ^ 28 then some (addr - p.base) else none

/-- The location an access of `bytes` bytes at `addr` reaches, or its bus error (R73; assumption 8). -/
def locate (p : Params) (addr bytes : Nat) : Except Fault Loc :=
  match offsetOf p addr with
  | none => .error .busUnmapped
  | some off =>
    if off % 4 ≠ 0 then .error .busMisaligned
    else if bytes ≠ 4 then .error .busWidth
    else
      match locOf p off with
      | none => .error .busUnmapped
      | some l => .ok l

/-- The host's access, complete before the next event (R70, R80, R84). A bus error is a fault of the
host's step and changes nothing (R73). -/
def hostAccess (s : State) : Access → Host.Outcome State Fault Refusal
  | .read addr bytes =>
    match locate s.params addr bytes with
    | .error f => .fault f
    | .ok l => .next (s.readLoc l)
  | .write addr bytes v =>
    match locate s.params addr bytes with
    | .error f => .fault f
    | .ok l => .next (s.writeLoc l v)

end Sys2Proof.Machine
end

