-- ==== Sys2Proof/Machine/Step.lean ====
section
/-! DEFINITION. One step of MHC: the next event of the total order of R84. -/

namespace Sys2Proof.Machine

/-- The next event (R84): what `inputs` says comes next or, when nothing more comes from outside, the
engine's turn, which weak fairness grants (R220, assumption 7). -/
def step (s : State) : Host.Outcome State Fault Refusal :=
  match s.inputs with
  | [] => engineTurn s
  | .engine :: rest => engineTurn { s with inputs := rest }
  | .access a :: rest => hostAccess { s with inputs := rest } a
  | .hardReset :: rest => .next (State.hardReset { s with inputs := rest })

/-- The state in which the command word of `nbits` bits `w` has just been accepted (R53) and the engine
moves next, so that the very next step ends it (assumption 12). -/
def State.withFetchWord (s : State) (nbits w : Nat) : State :=
  { s.accept (BitVec.ofNat 32 (w % 2 ^ nbits)) with inputs := .engine :: s.inputs }

end Sys2Proof.Machine
end

