-- ==== Sys2Proof/Machine/HostProgram.lean ====
section
/-! DEFINITION. The host program notation of 30_encoding.md R105 and R106: every operation as the list of
inputs it stands for. -/

namespace Sys2Proof.Machine

/-- off(loc) of R105, by the map of R72. A reserved location is named by its raw offset instead. -/
def Loc.offset : Loc → Nat
  | .id => 0x000
  | .config => 0x004
  | .ctrl => 0x008
  | .status => 0x00C
  | .cmd => 0x010
  | .ilen => 0x014
  | .bitlen => 0x018
  | .olen => 0x01C
  | .wlen => 0x020
  | .kidx => 0x024
  | .prime => 0x028
  | .ibufsz => 0x02C
  | .obufsz => 0x030
  | .reserved => 0x034
  | .freq s => 0x1000 + 4 * s.toNat
  | .codelen s => 0x1400 + 4 * s.toNat
  | .key i => 0x2000 + 4 * i
  | .ibuf i => 0x4000000 + 4 * i
  | .wbuf q => 0x8000000 + 4 * q
  | .obuf n => 0xC000000 + 4 * n

/-- `WR @off, v` (R105). -/
def wrAt (p : Params) (off : Nat) (v : Word) : List Input := [.access (.write (p.base + off) 4 v)]

/-- `RD @off` (R105). -/
def rdAt (p : Params) (off : Nat) : List Input := [.access (.read (p.base + off) 4)]

/-- `WR <loc>, v` (R105). -/
def wr (p : Params) (l : Loc) (v : Word) : List Input := wrAt p l.offset v

/-- `RD <loc>` (R105). -/
def rd (p : Params) (l : Loc) : List Input := rdAt p l.offset

/-- `CMD <MNEMONIC>` (R106). -/
def cmd (p : Params) (i : Instr) : List Input := wr p .cmd (encode i)

/-- `WAIT` (R106). The loop is the host's: it reads STATUS `polls` times while BUSY reads 1, the engine
ends the command, and it reads STATUS once more. The spec bounds no number of polls (R284), so a
program stands for one list for each number (assumption 19). -/
def wait (p : Params) (polls : Nat) : List Input :=
  (List.replicate polls (rd p .status)).flatten ++ [.engine] ++ rd p .status

/-- `FILL <REGION>, i, b0, b1, …` (R106). -/
def fill (p : Params) (region : Nat → Loc) : (i : Nat) → List Word → List Input
  | _, [] => []
  | i, b :: bs => wr p (region i) b ++ fill p region (i + 1) bs

/-- `DUMP <REGION>, i, n` (R106). -/
def dump (p : Params) (region : Nat → Loc) (i n : Nat) : List Input :=
  (List.range n).flatMap fun k => rd p (region (i + k))

/-- `ACK` (R106): clears DONE, ERR, OVR and BACC. -/
def ack (p : Params) : List Input := wr p .status 0x0000001E#32

/-- `RUN <MNEMONIC>` (R106). -/
def runCmd (p : Params) (i : Instr) (polls : Nat) : List Input := cmd p i ++ wait p polls

end Sys2Proof.Machine
end

