-- ==== Sys2Proof/Safety.lean ====
section
/-! DEFINITION. What is true of MHC between any two events (the invariant), and the words the statements
are written in: how a command ends, which locations exist, which errors a command can raise. A safe run
stays inside the invariant; a run without misuse also keeps OVR and BACC clear (R240, R276, R277). -/

namespace Sys2Proof.Machine

/-- The invariant every step keeps. -/
structure State.Inv (s : State) : Prop where
  /-- The instance is one the spec allows (R7, R11, R71). -/
  params : s.params.wf = true
  /-- IBUF is canonical and has no cell at IBUF_SIZE or beyond (R46). -/
  ibuf : s.ibuf.wf s.params.ibufSize = true
  /-- WBUF is canonical and has no word at C or beyond (R47). -/
  wbuf : s.wbuf.wf s.params.capacity = true
  /-- OBUF is canonical and has no cell at OBUF_SIZE or beyond (R49). -/
  obuf : s.obuf.wf s.params.obufSize = true
  /-- A word of WBUF has WW bits: its tag is below C (R47). -/
  tags : ∀ c ∈ s.wbuf.cells, c.2.tag.toNat < s.params.capacity
  /-- DONE and ERR are never both 1 (R34). -/
  doneOrErr : ¬ (s.status.done = true ∧ s.status.err = true)
  /-- While BUSY = 1 both are 0 (R34). -/
  busyClear : s.phase = .busy → s.status.done = false ∧ s.status.err = false
  /-- ERRCODE and ERROP are 0 when ERR = 0 (R34). -/
  noErr : s.status.err = false → s.status.errcode = 0#4 ∧ s.status.errop = 0#8
  /-- The codes 8 to 15 are never produced (R241). -/
  codes : s.status.errcode.toNat ≤ 7
  /-- OLEN counts bytes written to OBUF (R38). -/
  olen : s.olen.toNat ≤ s.params.obufSize
  /-- Unspecified contents are of an era that has begun (the model's own; assumption 6). -/
  eras : s.ibuf.era ≤ s.era ∧ s.wbuf.era ≤ s.era ∧ s.obuf.era ≤ s.era

/-- No misuse has been recorded: the host wrote no command and touched no engine-owned location while
BUSY since the flags were last cleared (R240, R276, R277). -/
def State.noMisuse (s : State) : Bool := !s.status.ovr && !s.status.bacc

/-! How a command ends -/

/-- `s` after a command that ended with success and wrote nothing but STATUS (R53). -/
def State.succeeded (s : State) : State :=
  { s with phase := .idle, status := { s.status with done := true } }

/-- `s` after a command that ended with an error and wrote nothing but STATUS (R245). -/
def State.failed (s : State) (code : BitVec 4) (op : Byte) : State :=
  { s with phase := .idle, status := { s.status with err := true, errcode := code, errop := op } }

/-- The pairs (ERROP, ERRCODE) a command can end in (R243, with the unreachable checks of R222, R223). -/
def errorsOf : Instr → List (Nat × Nat)
  | .nop => []
  | .hufEncode => [(0x01, 4)]
  | .cubeEncode => [(0x02, 4)]
  | .relabelEncode => [(0x03, 7)]
  | .encodeAll => [(0x01, 4), (0x03, 7)]
  | .hufDecode => [(0x11, 2), (0x11, 5), (0x11, 6)]
  | .cubeDecode => [(0x12, 3)]
  | .relabelDecode => [(0x13, 3), (0x13, 7)]
  | .decodeAll => [(0x13, 3), (0x13, 7), (0x11, 2), (0x11, 5), (0x11, 6)]

/-! Huffman codes -/

/-- The tree HUF_ENCODE builds from its input (R130). -/
def State.inputTree (s : State) : Option HuffNode := buildTree fun b => s.inputBytes.count b

/-- The bits HUF_ENCODE packs (R130). -/
def State.inputBits (s : State) : List Bool := encodeBits s.inputTree s.inputBytes

/-- The tree HUF_DECODE builds from FREQ (R140). -/
def State.freqTree (s : State) : Option HuffNode := buildTree fun b => (s.freqAt b).toNat

/-- The node that a path leads to, if it leads to one: a step false to a left child, a step true to a
right one, which the root of a one-symbol tree lacks (R122, R124). -/
def HuffNode.follow : HuffNode → List Bool → Option HuffNode
  | n, [] => some n
  | .single l _ _, false :: path => l.follow path
  | .node l _ _ _, false :: path => l.follow path
  | .node _ r _ _, true :: path => r.follow path
  | .single _ _ _, true :: _ => none
  | .leaf _ _, _ :: _ => none

/-- CODELEN holds the code lengths of a tree (R124). -/
def State.codelenIs (s : State) (T : Option HuffNode) : Prop :=
  ∀ b, (s.codelenAt b).toNat = ((codeOf T b).getD []).length

/-! Locations -/

/-- A location of the address map that exists in an instance (R72). -/
def Loc.present (p : Params) : Loc → Prop
  | .key i => i < 1000
  | .ibuf i => i < p.ibufSize
  | .wbuf q => q < p.capacity
  | .obuf n => n < p.obufSize
  | _ => True

/-- The width of a location that a host write stores to and does nothing else (R36 to R47, R75). -/
def Loc.storedWidth (p : Params) : Loc → Option Nat
  | .ilen | .bitlen | .wlen | .freq _ => some 32
  | .kidx => some 10
  | .key _ | .ibuf _ => some 8
  | .wbuf _ => some (8 + 3 * p.w)
  | _ => none

/-- An offset that the address map gives a location (R72). -/
def mappedOffset (p : Params) (off : Nat) : Prop :=
  off < 0x1800 ∨ (0x2000 ≤ off ∧ off < 0x2FA0) ∨
    (0x4000000 ≤ off ∧ off < 0x4000000 + 4 * p.ibufSize) ∨
    (0x8000000 ≤ off ∧ off < 0x8000000 + 4 * p.capacity) ∨
    (0xC000000 ≤ off ∧ off < 0xC000000 + 4 * p.obufSize)

/-- The engine moves next, and `rest` is what comes after its turn (R84). -/
def State.engineNext (s : State) (rest : List Input) : Prop :=
  s.inputs = .engine :: rest ∨ (s.inputs = [] ∧ rest = [])

/-- The host's next access writes `v` to the location `l`. -/
def State.writesNext (s : State) (l : Loc) (v : Word) (rest : List Input) : Prop :=
  s.inputs = .access (.write (s.params.base + l.offset) 4 v) :: rest

/-- The host's next access reads the location `l`. -/
def State.readsNext (s : State) (l : Loc) (rest : List Input) : Prop :=
  s.inputs = .access (.read (s.params.base + l.offset) 4) :: rest

end Sys2Proof.Machine
end

