-- ==== Sys2Proof/Certificates/Slice0/Obligations.lean ====
section
/-! DEFINITION. The statements about MHC, from the numbered rules of spec/. Where one gives a whole next
state, its clauses about `inputs`, `reads`, `fillDraws` and `era` are about the model's own fields (log
entries 5, 6, 7, 9), and its clause that CUR stays is the model's inference (log entry 4). -/

open Sys2Proof Sys2Proof.Machine

/-! ## Encoding -/

/-- R102: decoding a command's word gives the command back. -/
def Obligations.DecodeOfEncodeGivesTheCommand : Prop :=
  ∀ i : Instr, i.wellFormed = true → decode (encode i) = .ok i

/-- R102: a word is a defined command exactly when the opcode map lists it, all 32 bits of it. -/
def Obligations.DefinedWordsAreExactlyTheOpcodeMap : Prop :=
  ∀ (v : Word) (i : Instr), decode v = .ok i ↔
    (v.toNat, i) ∈ [(0x00, .nop), (0x01, .hufEncode), (0x02, .cubeEncode), (0x03, .relabelEncode),
      (0x0F, .encodeAll), (0x11, .hufDecode), (0x12, .cubeDecode), (0x13, .relabelDecode),
      (0x1F, .decodeAll)]

/-- R102, R103: some words written out by hand decode as the map says. -/
def Obligations.SampleWordsDecode : Prop :=
  decode 0x00000000#32 = .ok .nop ∧ decode 0x00000001#32 = .ok .hufEncode ∧
  decode 0x00000012#32 = .ok .cubeDecode ∧ decode 0x00000013#32 = .ok .relabelDecode ∧
  decode 0x0000001F#32 = .ok .decodeAll ∧ decode 0x00000010#32 = .error .undefinedOpcode ∧
  decode 0x00000101#32 = .error .reservedBits

/-! ## Events -/

/-- R220: when the engine moves and CUR holds a defined command, the step is that command's. `inputs` is the
model's own field (log entry 7). -/
def Obligations.StepRunsTheAcceptedCommand : Prop :=
  ∀ (s : State) (rest : List Input) (i : Instr), s.phase = .busy → s.engineNext rest →
    decode s.cur = .ok i → i.wellFormed = true ∧ step s = exec i { s with inputs := rest }

/-- R103, R220: an accepted word outside the map, with reserved bits set or not, ends with ILLEGAL_CMD under
its bits 7:0, and its end writes nothing else. `inputs` is the model's own field (log entry 7). -/
def Obligations.IllegalWordEndsWithIllegalCmd : Prop :=
  ∀ (s : State) (rest : List Input), s.phase = .busy → s.engineNext rest →
    s.cur.toNat ∉ [0x00, 0x01, 0x02, 0x03, 0x0F, 0x11, 0x12, 0x13, 0x1F] →
    step s = .next { s.failed 1#4 (s.cur.setWidth 8) with inputs := rest }

/-- R259: while IDLE the engine takes no steps, and all state is kept. `inputs` is the model's own field
(log entry 7). -/
def Obligations.IdleEngineKeepsAllState : Prop :=
  ∀ (s : State) (rest : List Input), s.phase = .idle → s.engineNext rest →
    step s = .next { s with inputs := rest }

/-- R35, R53, R276: a CMD write while IDLE accepts its word, with all that acceptance writes; while BUSY it
is ignored except that it sets OVR. `inputs` is the model's own field (log entry 7). -/
def Obligations.CmdWriteIsAcceptedOrLost : Prop :=
  ∀ (s : State) (rest : List Input) (v : Word), s.params.wf = true → s.writesNext .cmd v rest →
    (s.phase = .idle → step s = .next { s with
      inputs := rest, phase := .busy, cur := v
      status := { s.status with
        lastop := v.setWidth 8, done := false, err := false, errcode := 0#4, errop := 0#8 } }) ∧
    (s.phase = .busy →
      step s = .next { s with inputs := rest, status := { s.status with ovr := true } })

/-- R34: the bits of STATUS. -/
def Obligations.StatusWordHasTheLayout : Prop :=
  ∀ s : State,
    s.statusWord.getLsbD 0 = decide (s.phase = .busy) ∧ s.statusWord.getLsbD 1 = s.status.done ∧
    s.statusWord.getLsbD 2 = s.status.err ∧ s.statusWord.getLsbD 3 = s.status.ovr ∧
    s.statusWord.getLsbD 4 = s.status.bacc ∧ s.statusWord.extractLsb' 5 3 = 0#3 ∧
    s.statusWord.extractLsb' 8 4 = s.status.errcode ∧ s.statusWord.extractLsb' 12 4 = 0#4 ∧
    s.statusWord.extractLsb' 16 8 = s.status.lastop ∧ s.statusWord.extractLsb' 24 8 = s.status.errop

/-- R34, R248: a STATUS write clears the flags it has a 1 for, with ERR also ERRCODE and ERROP, and nothing
else changes, also while BUSY. `inputs` is the model's own field (log entry 7). -/
def Obligations.StatusWriteClearsItsOnes : Prop :=
  ∀ (s : State) (rest : List Input) (v : Word), s.params.wf = true → s.writesNext .status v rest →
    ∃ t, step s = .next t ∧ t = { s with inputs := rest, status := t.status } ∧
      t.statusWord = s.statusWord &&&
        ~~~((v &&& 0x0000001A#32) ||| if v.getLsbD 2 then 0xFF000F04#32 else 0#32)

/-- R245, R53: what STATUS reads after the end of a command, after an error end and after success. `inputs`
is the model's own field (log entry 7). -/
def Obligations.StatusAfterTheEndOfACommand : Prop :=
  ∀ (s t : State) (rest : List Input), s.Inv → s.phase = .busy → s.engineNext rest →
    step s = .next t →
    (t.status.err = true → t.statusWord.toNat =
      t.status.errop.toNat * 2 ^ 24 + s.status.lastop.toNat * 2 ^ 16 + t.status.errcode.toNat * 2 ^ 8 +
        s.status.bacc.toNat * 2 ^ 4 + s.status.ovr.toNat * 2 ^ 3 + 4) ∧
    (t.status.err = false → t.statusWord.toNat =
      s.status.lastop.toNat * 2 ^ 16 + s.status.bacc.toNat * 2 ^ 4 + s.status.ovr.toNat * 2 ^ 3 + 2)

/-- R250, R251: IRQ is IE with DONE or ERR, which nothing but the end of a command sets; so the end of a
command, an illegal word's too, raises it if IE is set, acceptance lowers it, and misuse does not move it. -/
def Obligations.IrqFollowsCompletion : Prop :=
  (∀ s : State, s.irq = true ↔ s.ie = true ∧ (s.status.done = true ∨ s.status.err = true)) ∧
  (∀ s t : State, step s = .next t →
    (s.status.done = false ∧ t.status.done = true) ∨ (s.status.err = false ∧ t.status.err = true) →
    s.phase = .busy ∧ ∃ rest, s.engineNext rest) ∧
  (∀ (s t : State) (rest : List Input), s.phase = .busy → s.engineNext rest → step s = .next t →
    t.irq = s.ie) ∧
  (∀ (i : Instr) (s t : State), exec i s = .next t → t.irq = s.ie) ∧
  (∀ (s : State) (v : Word), (s.accept v).irq = false) ∧
  (∀ s : State, s.setOvr.irq = s.irq ∧ s.setBacc.irq = s.irq)

/-! ## The host port -/

/-- R72, R74: every location of the map stands at its offset, a multiple of 4 among the decoded ones; the
offsets are those of the registers' rules and of the map, and every slot from 0x034 to 0xFFC is reserved. -/
def Obligations.OffsetsNameTheirLocations : Prop :=
  (∀ (p : Params) (l : Loc), p.wf = true → l.present p →
    locOf p l.offset = some l ∧ l.offset % 4 = 0 ∧ l.offset < 2 ^ 28) ∧
  (∀ (p : Params) (off : Nat), 0x034 ≤ off → off ≤ 0xFFC → off % 4 = 0 → locOf p off = some .reserved) ∧
  [Loc.id, .config, .ctrl, .status, .cmd, .ilen, .bitlen, .olen, .wlen, .kidx, .prime, .ibufsz,
    .obufsz].map Loc.offset =
      [0x000, 0x004, 0x008, 0x00C, 0x010, 0x014, 0x018, 0x01C, 0x020, 0x024, 0x028, 0x02C, 0x030] ∧
  (∀ b : Byte, (Loc.freq b).offset = 0x1000 + 4 * b.toNat ∧
    (Loc.codelen b).offset = 0x1400 + 4 * b.toNat) ∧
  (∀ i : Nat, (Loc.key i).offset = 0x2000 + 4 * i ∧ (Loc.ibuf i).offset = 0x4000000 + 4 * i ∧
    (Loc.wbuf i).offset = 0x8000000 + 4 * i ∧ (Loc.obuf i).offset = 0xC000000 + 4 * i)

/-- R73: an access gets a bus error exactly when it is misaligned, not 32 bits wide or unmapped. That an
address outside the block counts as unmapped is the model's choice (log entry 8), and `inputs` is its own
field (log entry 7). -/
def Obligations.BusErrorsAreExactlyTheIllegalAccesses : Prop :=
  ∀ (s : State) (addr bytes : Nat) (v : Word) (rest : List Input),
    let legal := s.params.base ≤ addr ∧ addr < s.params.base + 2 ^ 28 ∧
      (addr - s.params.base) % 4 = 0 ∧ bytes = 4 ∧ mappedOffset s.params (addr - s.params.base)
    (s.inputs = .access (.read addr bytes) :: rest →
      ((∃ f, step s = .fault f) ↔ ¬ legal) ∧ ((∃ t, step s = .next t) ↔ legal)) ∧
    (s.inputs = .access (.write addr bytes v) :: rest →
      ((∃ f, step s = .fault f) ↔ ¬ legal) ∧ ((∃ t, step s = .next t) ↔ legal))

/-- R31 to R49, R74 to R76, R81: what a read returns and all it changes, at every location, idle and busy:
the slot's value, or 0 with BACC at an engine-owned location while BUSY. A reserved offset reads 0, also
while BUSY. Then what the slot of each location holds: a register, or a narrow cell zero-extended.
`inputs` and `reads` are the model's own fields (log entries 7 and 9). -/
def Obligations.HostReadReturnsTheSlot : Prop :=
  (∀ (s : State) (l : Loc) (rest : List Input), s.params.wf = true → l.present s.params →
    s.readsNext l rest →
    let owned := l ∉ [.id, .config, .ctrl, .status, .cmd, .ibufsz, .obufsz, .reserved]
    (¬ (s.phase = .busy ∧ owned) →
      step s = .next { s with inputs := rest, reads := s.slotValue l :: s.reads }) ∧
    (s.phase = .busy ∧ owned →
      step s = .next { s with
        inputs := rest, reads := 0#32 :: s.reads, status := { s.status with bacc := true } })) ∧
  (∀ (s : State) (off : Nat) (rest : List Input), 0x034 ≤ off → off ≤ 0xFFC → off % 4 = 0 →
    s.inputs = .access (.read (s.params.base + off) 4) :: rest →
    step s = .next { s with inputs := rest, reads := 0#32 :: s.reads }) ∧
  (∀ s : State, s.slotValue .id = 0x4D484331#32 ∧ s.slotValue .config = BitVec.ofNat 32 s.params.w ∧
    s.slotValue .ctrl = (if s.ie then 1#32 else 0#32) ∧ s.slotValue .status = s.statusWord ∧
    s.slotValue .cmd = 0#32 ∧ s.slotValue .ilen = s.ilen ∧ s.slotValue .bitlen = s.bitlen ∧
    s.slotValue .olen = s.olen ∧ s.slotValue .wlen = s.wlen ∧
    (s.slotValue .kidx).toNat = s.kidx.toNat ∧ s.slotValue .prime = s.prime ∧
    s.slotValue .ibufsz = BitVec.ofNat 32 s.params.ibufSize ∧
    s.slotValue .obufsz = BitVec.ofNat 32 s.params.obufSize ∧ s.slotValue .reserved = 0#32) ∧
  (∀ (s : State) (b : Byte), s.slotValue (.freq b) = s.freqAt b ∧
    (s.slotValue (.codelen b)).toNat = (s.codelenAt b).toNat) ∧
  (∀ (s : State) (i : Nat), (s.slotValue (.key i)).toNat = (s.keyAt i).toNat ∧
    (s.slotValue (.ibuf i)).toNat = (s.ibufAt i).toNat ∧
    (s.slotValue (.obuf i)).toNat = (s.obufAt i).toNat ∧
    (s.slotValue (.wbuf i)).toNat = (s.wbufAt i).tag.toNat * 256 + (s.wbufAt i).payload.toNat) ∧
  (∀ (s : State) (q : Nat), s.Inv → (s.slotValue (.wbuf q)).toNat < 2 ^ (8 + 3 * s.params.w))

/-- R74, R76, R277: the writes that store nothing. One to an engine-owned location while BUSY is dropped and
sets BACC; any other to a read-only location, and one to a reserved offset, idle or busy, completes and
changes nothing. `inputs` is the model's own field (log entry 7). -/
def Obligations.WritesThatStoreNothing : Prop :=
  (∀ (s : State) (l : Loc) (v : Word) (rest : List Input), s.params.wf = true → l.present s.params →
    s.writesNext l v rest →
    let owned := l ∉ [.id, .config, .ctrl, .status, .cmd, .ibufsz, .obufsz, .reserved]
    (s.phase = .busy ∧ owned →
      step s = .next { s with inputs := rest, status := { s.status with bacc := true } }) ∧
    (¬ (s.phase = .busy ∧ owned) →
      l ∈ [.id, .config, .ibufsz, .obufsz, .reserved, .olen, .prime] ∨ (∃ b, l = .codelen b) ∨
        (∃ n, l = .obuf n) →
      step s = .next { s with inputs := rest })) ∧
  (∀ (s : State) (off : Nat) (v : Word) (rest : List Input), 0x034 ≤ off → off ≤ 0xFFC → off % 4 = 0 →
    s.inputs = .access (.write (s.params.base + off) 4 v) :: rest →
    step s = .next { s with inputs := rest })

/-- R36, R37, R39, R40, R43, R45 to R47, R75: a write while IDLE stores the low bits of its value in the
location, and every other slot reads as before. `fillDraws`, `era`, `inputs` and `reads` are the model's own
fields (log entries 5, 6, 7 and 9). -/
def Obligations.HostWriteStoresOneLocation : Prop :=
  ∀ (s : State) (l : Loc) (v : Word) (n : Nat) (rest : List Input), s.params.wf = true →
    l.present s.params → s.phase = .idle → l.storedWidth s.params = some n → s.writesNext l v rest →
    ∃ t, step s = .next t ∧ (t.slotValue l).toNat = v.toNat % 2 ^ n ∧
      (∀ l', l' ≠ l → t.slotValue l' = s.slotValue l') ∧
      t.params = s.params ∧ t.phase = s.phase ∧ t.cur = s.cur ∧ t.ie = s.ie ∧ t.status = s.status ∧
      t.fillDraws = s.fillDraws ∧ t.era = s.era ∧ t.inputs = rest ∧ t.reads = s.reads

/-- R33: a CTRL write with bit 1 clear writes only IE, also while BUSY. `inputs` is the model's own field
(log entry 7). -/
def Obligations.CtrlWriteSetsInterruptEnable : Prop :=
  ∀ (s : State) (v : Word) (rest : List Input), s.params.wf = true → v.getLsbD 1 = false →
    s.writesNext .ctrl v rest →
    ∃ t, step s = .next t ∧ t = { s with inputs := rest, ie := t.ie } ∧
      (t.slotValue .ctrl).toNat = v.toNat % 2

/-! ## Reset -/

/-- R272: a CTRL write with bit 1 set resets every register and leaves KEY and IBUF; WBUF and OBUF keep
their contents unless the aborted command could write them. `inputs`, `reads` and `fillDraws` are the
model's own fields, which it leaves (log entries 5, 7 and 9). -/
def Obligations.SoftResetKeepsWhatItShould : Prop :=
  ∀ (s : State) (v : Word) (rest : List Input), s.params.wf = true → v.getLsbD 1 = true →
    s.writesNext .ctrl v rest →
    ∃ t, step s = .next t ∧ t.phase = .idle ∧ t.statusWord = 0#32 ∧ t.ctrlWord = 0#32 ∧
      t.irq = false ∧ t.ilen = 0#32 ∧ t.bitlen = 0#32 ∧ t.olen = 0#32 ∧ t.wlen = 0#32 ∧
      t.kidx = 0#10 ∧ t.prime = 0#32 ∧ (∀ b, t.freqAt b = 0#32 ∧ t.codelenAt b = 0#8) ∧
      t.params = s.params ∧ (∀ i, t.keyAt i = s.keyAt i ∧ t.ibufAt i = s.ibufAt i) ∧
      (s.phase = .idle ∨ s.cur.toNat ∉ [0x01, 0x02, 0x03, 0x0F, 0x12, 0x13, 0x1F] →
        ∀ q, t.wbufAt q = s.wbufAt q) ∧
      (s.phase = .idle ∨ s.cur.toNat ∉ [0x11, 0x1F] → ∀ n, t.obufAt n = s.obufAt n) ∧
      t.inputs = rest ∧ t.reads = s.reads ∧ t.fillDraws = s.fillDraws

/-- R57, R270: the hardware reset puts every value the reset table gives into place, whatever runs. `inputs`
is the model's own field (log entry 7). -/
def Obligations.HardwareResetGivesTheResetTable : Prop :=
  ∀ (s : State) (rest : List Input), s.inputs = .hardReset :: rest →
    ∃ t, step s = .next t ∧ t.slotValue .id = 0x4D484331#32 ∧
      t.slotValue .config = BitVec.ofNat 32 s.params.w ∧
      t.slotValue .ibufsz = BitVec.ofNat 32 s.params.ibufSize ∧
      t.slotValue .obufsz = BitVec.ofNat 32 s.params.obufSize ∧
      t.slotValue .ctrl = 0#32 ∧ t.slotValue .status = 0#32 ∧ t.slotValue .ilen = 0#32 ∧
      t.slotValue .bitlen = 0#32 ∧ t.slotValue .olen = 0#32 ∧ t.slotValue .wlen = 0#32 ∧
      t.slotValue .kidx = 0#32 ∧ t.slotValue .prime = 0#32 ∧
      (∀ b, t.slotValue (.freq b) = 0#32 ∧ t.slotValue (.codelen b) = 0#32) ∧
      t.phase = .idle ∧ t.irq = false ∧ t.params = s.params ∧ t.inputs = rest

/-- R57, R271: the state after reset, and that reads of it are reads of the reset table. That `State.reset`
is the instance with W = 4 is the model's choice (log entry 1), on which no clause rests. -/
def Obligations.ResetStateIsTheResetTable : Prop :=
  State.reset.phase = .idle ∧ State.reset.statusWord = 0#32 ∧ State.reset.ctrlWord = 0#32 ∧
  State.reset.irq = false ∧ State.reset.slotValue .id = 0x4D484331#32 ∧
  State.reset.ilen = 0#32 ∧ State.reset.bitlen = 0#32 ∧ State.reset.olen = 0#32 ∧
  State.reset.wlen = 0#32 ∧ State.reset.kidx = 0#10 ∧ State.reset.prime = 0#32 ∧
  (∀ b, State.reset.freqAt b = 0#32 ∧ State.reset.codelenAt b = 0#8)

/-! ## Every command -/

/-- R53, R285: every command ends in one step: IDLE, DONE or ERR set, LASTOP, OVR and BACC as before. -/
def Obligations.EveryCommandEnds : Prop :=
  ∀ (i : Instr) (s : State), ∃ t, exec i s = .next t ∧ t.phase = .idle ∧
    (t.status.done = true ∨ t.status.err = true) ∧ t.status.lastop = s.status.lastop ∧
    t.status.ovr = s.status.ovr ∧ t.status.bacc = s.status.bacc

/-- R56: what each command may write; all else it leaves, and of STATUS it writes DONE, or ERR with its
code and opcode. -/
def Obligations.CommandsKeepToTheirWriteSets : Prop :=
  ∀ (i : Instr) (s t : State), exec i s = .next t →
    (t.params = s.params ∧ t.key = s.key ∧ t.ibuf = s.ibuf ∧ t.ilen = s.ilen ∧ t.wlen = s.wlen ∧
      t.kidx = s.kidx ∧ t.ie = s.ie) ∧
    (i ∉ [.hufEncode, .encodeAll, .cubeDecode, .decodeAll] → t.freq = s.freq ∧ t.bitlen = s.bitlen) ∧
    (i ∉ [.hufEncode, .encodeAll, .hufDecode, .decodeAll] → t.codelen = s.codelen) ∧
    (i ∉ [.relabelEncode, .encodeAll, .relabelDecode, .decodeAll] → t.prime = s.prime) ∧
    (i ∉ [.hufDecode, .decodeAll] → t.olen = s.olen ∧ ∀ n, t.obufAt n = s.obufAt n) ∧
    (i ∈ [.nop, .hufDecode] → ∀ q, t.wbufAt q = s.wbufAt q) ∧
    t.phase = .idle ∧
    (t.status = { s.status with done := true } ∨
      ∃ code op, t.status = { s.status with err := true, errcode := code, errop := op })

/-- R243, R244: the errors a command can end in, each under the opcode of the stage that raises it. -/
def Obligations.CommandsRaiseOnlyTheirErrors : Prop :=
  ∀ (i : Instr) (s t : State), s.status.err = false → exec i s = .next t → t.status.err = true →
    (t.status.errop.toNat, t.status.errcode.toNat) ∈ errorsOf i

/-- R246: the checks that leave all state other than STATUS unchanged, with their codes (R241). -/
def Obligations.EarlyChecksWriteOnlyStatus : Prop :=
  ∀ s : State,
    (s.params.ibufSize < s.ilen.toNat → exec .hufEncode s = .next (s.failed 4#4 0x01#8)) ∧
    (s.params.front < bytesFor s.bitlen.toNat → exec .cubeEncode s = .next (s.failed 4#4 0x02#8)) ∧
    (1000 ≤ s.kidx.toNat → exec .relabelEncode s = .next (s.failed 7#4 0x03#8)) ∧
    (8 * s.params.front < s.bitlen.toNat → exec .hufDecode s = .next (s.failed 2#4 0x11#8)) ∧
    (s.wlen.toNat ≠ s.params.capacity → exec .cubeDecode s = .next (s.failed 3#4 0x12#8)) ∧
    (s.wlen.toNat ≠ s.params.capacity → exec .relabelDecode s = .next (s.failed 3#4 0x13#8)) ∧
    (s.wlen.toNat = s.params.capacity → 1000 ≤ s.kidx.toNat →
      exec .relabelDecode s = .next (s.failed 7#4 0x13#8))

/-- R221: NOP ends with success and changes nothing else. -/
def Obligations.NopOnlyEnds : Prop := ∀ s : State, exec .nop s = .next s.succeeded

/-! ## Huffman Codec -/

/-- R120 to R124: BuildTree starts from one leaf for each symbol that occurs. While two nodes are left, the
node of least key (frequency, then id) becomes the left child and the next one the right child of the next
internal node, whatever the order the pool is held in; the last node left is the root. No leaf gives the
Empty tree, and a sole one hangs to the left of a root of its own. A symbol's code is the path from the root
to its leaf, 0 to the left and 1 to the right. -/
def Obligations.BuildTreeMergesTheTwoLeastKeys : Prop :=
  (∀ F : Byte → Nat, (leafPool F).Nodup ∧
    ∀ n : HuffNode, n ∈ leafPool F ↔ ∃ b, 0 < F b ∧ n = .leaf b (F b)) ∧
  (∀ (b : Byte) (f : Nat), (HuffNode.leaf b f).freq = f ∧ (HuffNode.leaf b f).id = b.toNat) ∧
  (∀ (l r : HuffNode) (f i : Nat), (HuffNode.node l r f i).freq = f ∧ (HuffNode.node l r f i).id = i) ∧
  (∀ F : Byte → Nat, (leafPool F = [] → buildTree F = none) ∧
    (∀ a, leafPool F = [a] → buildTree F = some (.single a a.freq 256)) ∧
    (2 ≤ (leafPool F).length → buildTree F = mergePool (leafPool F).length 0 (leafPool F))) ∧
  (∀ (fuel k : Nat) (pool rest : List HuffNode) (a b : HuffNode), pool.Perm (a :: b :: rest) →
    pool.Pairwise (fun m n => m.id ≠ n.id) → (∀ n ∈ pool, n.id < 256 + k) →
    (∀ n ∈ b :: rest, a.freq < n.freq ∨ (a.freq = n.freq ∧ a.id < n.id)) →
    (∀ n ∈ rest, b.freq < n.freq ∨ (b.freq = n.freq ∧ b.id < n.id)) →
    mergePool (fuel + 1) k pool =
      mergePool fuel (k + 1) (rest ++ [.node a b (a.freq + b.freq) (256 + k)])) ∧
  (∀ (fuel k : Nat) (a : HuffNode), mergePool (fuel + 1) k [a] = some a) ∧
  (∀ (F : Byte → Nat) (b : Byte) (c : List Bool), codeOf (buildTree F) b = some c ↔
    ∃ T f, buildTree F = some T ∧ T.follow c = some (.leaf b f))

/-- R120, R122 to R124: a symbol has a code exactly when it occurs, and the code of a sole symbol is the
one bit 0. -/
def Obligations.SymbolsThatOccurHaveCodes : Prop :=
  ∀ (F : Byte → Nat) (b : Byte),
    ((codeOf (buildTree F) b).isSome = true ↔ 0 < F b) ∧
    (0 < F b → (∀ c, c ≠ b → F c = 0) → codeOf (buildTree F) b = some [false])

/-- R125: the codes are prefix-free, and each has length 1 to 255. -/
def Obligations.CodesArePrefixFreeAndShort : Prop :=
  ∀ (F : Byte → Nat) (a b : Byte) (c d : List Bool),
    codeOf (buildTree F) a = some c → codeOf (buildTree F) b = some d →
    (1 ≤ c.length ∧ c.length ≤ 255) ∧ (c <+: d → a = b)

/-- R126: the stream bits of packed bytes are the bits that were packed. -/
def Obligations.StreamBitsReadThePackedBits : Prop :=
  ∀ (s : State) (bits : List Bool),
    (∀ q < bytesFor bits.length, (s.wbufAt q).payload = packByte bits q) →
    s.streamBits bits.length = bits

/-- R130: HUF_ENCODE on an input that fits. -/
def Obligations.HufEncodePacksItsInput : Prop :=
  ∀ s : State, s.params.wf = true → s.ilen.toNat ≤ s.params.ibufSize →
    bytesFor s.inputBits.length ≤ s.params.front →
    ∃ t, exec .hufEncode s = .next t ∧
      t = { s.succeeded with freq := t.freq, codelen := t.codelen, bitlen := t.bitlen, wbuf := t.wbuf } ∧
      (∀ b, (t.freqAt b).toNat = s.inputBytes.count b) ∧ t.codelenIs s.inputTree ∧
      t.bitlen.toNat = s.inputBits.length ∧
      (∀ q < s.params.capacity, t.wbufAt q =
        tagged 0 (if q < bytesFor s.inputBits.length then packByte s.inputBits q else 0#8)) ∧
      (∀ q, s.params.capacity ≤ q → t.wbufAt q = s.wbufAt q) ∧
      (∀ i, t.ibufAt i = s.ibufAt i ∧ t.obufAt i = s.obufAt i)

/-- R130 check HE2, R246: a stream too long leaves FREQ, CODELEN and BITLEN written and WBUF unchanged. -/
def Obligations.HufEncodeStreamTooLong : Prop :=
  ∀ s : State, s.params.wf = true → s.ilen.toNat ≤ s.params.ibufSize →
    s.params.front < bytesFor s.inputBits.length →
    ∃ t, exec .hufEncode s = .next t ∧
      t = { s.failed 4#4 0x01#8 with freq := t.freq, codelen := t.codelen, bitlen := t.bitlen } ∧
      (∀ b, (t.freqAt b).toNat = s.inputBytes.count b) ∧ t.codelenIs s.inputTree ∧
      t.bitlen.toNat = s.inputBits.length

/-- R132: the bounds after a successful HUF_ENCODE. -/
def Obligations.HufEncodeBounds : Prop :=
  ∀ s t : State, s.params.wf = true → exec .hufEncode s = .next t → t.status.err = false →
    t.bitlen.toNat ≤ 255 * s.ilen.toNat ∧ 255 * s.ilen.toNat < 2 ^ 32 ∧
    bytesFor t.bitlen.toNat ≤ s.params.front ∧
    (∀ q < s.params.capacity, (t.wbufAt q).tag = 0#24 ∧
      (bytesFor t.bitlen.toNat ≤ q → (t.wbufAt q).payload = 0#8)) ∧
    (∀ b, (t.freqAt b).toNat = s.inputBytes.count b) ∧
    ((List.range 256).map fun b => (t.freqAt (BitVec.ofNat 8 b)).toNat).sum = s.ilen.toNat

/-- R140: HUF_DECODE of a stream that is a sequence of codes gives the symbols of those codes. -/
def Obligations.HufDecodeReadsTheCodes : Prop :=
  ∀ (s : State) (out : List Byte), s.bitlen.toNat ≤ 8 * s.params.front →
    (∀ b ∈ out, 0 < (s.freqAt b).toNat) →
    s.streamBits s.bitlen.toNat = encodeBits s.freqTree out → out.length ≤ s.params.obufSize →
    ∃ t, exec .hufDecode s = .next t ∧
      t = { s.succeeded with codelen := t.codelen, obuf := t.obuf, olen := t.olen } ∧
      t.codelenIs s.freqTree ∧ t.olen.toNat = out.length ∧
      (∀ n, (h : n < out.length) → t.obufAt n = out[n]) ∧
      (∀ n, out.length ≤ n → t.obufAt n = s.obufAt n) ∧
      (∀ i, t.ibufAt i = s.ibufAt i ∧ t.wbufAt i = s.wbufAt i)

/-- R140 checks HD2 and HD3: a bit that leads to no node, in an Empty tree and in a one-symbol tree. -/
def Obligations.HufDecodeInvalidCode : Prop :=
  ∀ s : State, s.bitlen.toNat ≤ 8 * s.params.front →
    ((∀ b, s.freqAt b = 0#32) → 0 < s.bitlen.toNat →
      ∃ t, exec .hufDecode s = .next t ∧
        t = { s.failed 5#4 0x11#8 with codelen := t.codelen, obuf := t.obuf, olen := 0#32 } ∧
        t.codelenIs s.freqTree ∧ ∀ n, t.obufAt n = s.obufAt n) ∧
    (∀ (b : Byte) (n : Nat) (rest : List Bool), s.freqAt b ≠ 0#32 →
      (∀ c, c ≠ b → s.freqAt c = 0#32) →
      s.streamBits s.bitlen.toNat = List.replicate n false ++ true :: rest → n ≤ s.params.obufSize →
      ∃ t, exec .hufDecode s = .next t ∧
        t = { s.failed 5#4 0x11#8 with
          codelen := t.codelen, obuf := t.obuf, olen := BitVec.ofNat 32 n } ∧
        t.codelenIs s.freqTree ∧ (∀ i < n, t.obufAt i = b) ∧ ∀ i, n ≤ i → t.obufAt i = s.obufAt i)

/-- R140 check HD4: one symbol more than OBUF holds. -/
def Obligations.HufDecodeOutputOverflow : Prop :=
  ∀ (s : State) (out : List Byte) (rest : List Bool), s.bitlen.toNat ≤ 8 * s.params.front →
    (∀ b ∈ out, 0 < (s.freqAt b).toNat) → out.length = s.params.obufSize + 1 →
    s.streamBits s.bitlen.toNat = encodeBits s.freqTree out ++ rest →
    ∃ t, exec .hufDecode s = .next t ∧
      t = { s.failed 6#4 0x11#8 with codelen := t.codelen, obuf := t.obuf, olen := t.olen } ∧
      t.codelenIs s.freqTree ∧ t.olen.toNat = s.params.obufSize ∧
      (∀ n, (h : n < out.length) → n < s.params.obufSize → t.obufAt n = out[n]) ∧
      (∀ n, s.params.obufSize ≤ n → t.obufAt n = s.obufAt n)

/-- R140 check HD5: the bits end inside a code. -/
def Obligations.HufDecodeUnderrunInsideACode : Prop :=
  ∀ (s : State) (out : List Byte) (b : Byte) (c part : List Bool),
    s.bitlen.toNat ≤ 8 * s.params.front → (∀ a ∈ out, 0 < (s.freqAt a).toNat) →
    out.length ≤ s.params.obufSize → codeOf s.freqTree b = some c → part <+: c → part ≠ c →
    part ≠ [] → s.streamBits s.bitlen.toNat = encodeBits s.freqTree out ++ part →
    ∃ t, exec .hufDecode s = .next t ∧
      t = { s.failed 2#4 0x11#8 with codelen := t.codelen, obuf := t.obuf, olen := t.olen } ∧
      t.codelenIs s.freqTree ∧ t.olen.toNat = out.length ∧
      (∀ n, (h : n < out.length) → t.obufAt n = out[n]) ∧
      (∀ n, out.length ≤ n → t.obufAt n = s.obufAt n)

/-- R143: decoding what HUF_ENCODE left gives its input back. -/
def Obligations.HuffmanRoundTrip : Prop :=
  ∀ s a d : State, s.params.wf = true → exec .hufEncode s = .next a → a.status.err = false →
    d.params = s.params → d.freq = a.freq → d.bitlen = a.bitlen →
    (∀ q < bytesFor a.bitlen.toNat, (d.wbufAt q).payload = (a.wbufAt q).payload) →
    s.ilen.toNat ≤ s.params.obufSize →
    ∃ t, exec .hufDecode d = .next t ∧
      t.phase = .idle ∧ t.status = { d.status with done := true } ∧
      t.olen = s.ilen ∧ ∀ i < s.ilen.toNat, t.obufAt i = s.ibufAt i

/-! ## Cube Permutation Engine -/

/-- R16: packing and unpacking a word, and the two ways to write a coordinate. -/
def Obligations.WordLayoutRoundTrips : Prop :=
  ∀ (p : Params) (c : Coord) (b : Byte), p.wf = true → c.x < p.side → c.y < p.side → c.z < p.side →
    decomp p (lin p c) = c ∧ lin p c < p.capacity ∧ fields p (pack p c b) = c ∧
    (pack p c b).payload = b ∧
    (pack p c b).toWord.toNat =
      c.z * 2 ^ (8 + 2 * p.w) + c.y * 2 ^ (8 + p.w) + c.x * 2 ^ 8 + b.toNat ∧
    pack p c b = tagged (lin p c) b

/-- R161: Fwd is a bijection of the cube for every key, with inverse Inv. -/
def Obligations.FwdAndInvAreInverse : Prop :=
  ∀ (p : Params) (K : Nat → Nat) (c : Coord), c.x < p.side → c.y < p.side → c.z < p.side →
    inv p K (fwd p K c) = c ∧ fwd p K (inv p K c) = c ∧
    ((fwd p K c).x < p.side ∧ (fwd p K c).y < p.side ∧ (fwd p K c).z < p.side) ∧
    ((inv p K c).x < p.side ∧ (inv p K c).y < p.side ∧ (inv p K c).z < p.side)

/-- R164: the source's literal step-5 loop gives every word the fields of Fwd: the word at xLoc gets X
field x and the Y and Z fields shifted by KEY[x], and every word is the xLoc of one x. -/
def Obligations.LiteralLoopWritesFwd : Prop :=
  ∀ (s : State) (x y z : Nat), s.params.wf = true →
    x < s.params.side → y < s.params.side → z < s.params.side →
    let S : Int := s.params.side
    let xLoc := (((x : Int) - (s.keyAt y).toNat + S) % S).toNat
    xLoc < s.params.side ∧ (xLoc + (s.keyAt y).toNat) % s.params.side = x ∧
    fwd s.params s.keyShift ⟨xLoc, y, z⟩ =
      ⟨x, (y + (s.keyAt x).toNat) % s.params.side, (z + (s.keyAt x).toNat) % s.params.side⟩ ∧
    ∀ a < s.params.side, ∃ x' < s.params.side,
      (((x' : Int) - (s.keyAt y).toNat + S) % S).toNat = a

/-- R165, R166: CUBE_ENCODE puts the payload of each position under the fields of its new coordinate, at
that coordinate; the stream and the metadata are what R165 says, and the fill is free. `fillDraws` is the
model's own field (log entry 5). -/
def Obligations.CubeEncodePlacesEveryPayload : Prop :=
  ∀ s : State, s.params.wf = true → bytesFor s.bitlen.toNat ≤ s.params.front →
    ∃ t, exec .cubeEncode s = .next t ∧
      t = { s.succeeded with wbuf := t.wbuf, fillDraws := t.fillDraws } ∧
      (∀ q < s.params.capacity, ∃ b,
        t.wbufAt (lin s.params (fwd s.params s.keyShift (decomp s.params q))) =
          pack s.params (fwd s.params s.keyShift (decomp s.params q)) b ∧
        (q < bytesFor s.bitlen.toNat → b = (s.wbufAt q).payload) ∧
        (s.params.front ≤ q → b = s.tailByte (q - s.params.front))) ∧
      (∀ r < s.params.capacity, (t.wbufAt r).tag.toNat = r) ∧
      (∀ q, s.params.capacity ≤ q → t.wbufAt q = s.wbufAt q) ∧
      (∀ i, t.ibufAt i = s.ibufAt i ∧ t.obufAt i = s.obufAt i)

/-- R162: where FREQ and BITLEN stand in the tail, and that four tail bytes read back as the value. -/
def Obligations.TailLayoutIsBigEndian : Prop :=
  ∀ (s : State) (b : Byte) (j : Nat), j < 4 →
    (s.tailByte (4 * b.toNat + j)).toNat = (s.freqAt b).toNat / 2 ^ (8 * (3 - j)) % 256 ∧
    (s.tailByte (1024 + j)).toNat = s.bitlen.toNat / 2 ^ (8 * (3 - j)) % 256 ∧
    wordBE (s.tailByte (4 * b.toNat)) (s.tailByte (4 * b.toNat + 1)) (s.tailByte (4 * b.toNat + 2))
      (s.tailByte (4 * b.toNat + 3)) = s.freqAt b ∧
    wordBE (s.tailByte 1024) (s.tailByte 1025) (s.tailByte 1026) (s.tailByte 1027) = s.bitlen

/-- R170, R172, R18: CUBE_DECODE of any words: the un-shifted words in ascending order, and FREQ and BITLEN
from the tail they leave. -/
def Obligations.CubeDecodeSortsTheUnshiftedWords : Prop :=
  ∀ s : State, s.params.wf = true → s.wlen.toNat = s.params.capacity →
    ∃ t, exec .cubeDecode s = .next t ∧
      t = { s.succeeded with wbuf := t.wbuf, freq := t.freq, bitlen := t.bitlen } ∧
      ((List.range s.params.capacity).map t.wbufAt).Perm
        ((List.range s.params.capacity).map fun q =>
          pack s.params (inv s.params s.keyShift (fields s.params (s.wbufAt q))) (s.wbufAt q).payload) ∧
      (∀ q r, q < r → r < s.params.capacity → (t.wbufAt q).value ≤ (t.wbufAt r).value) ∧
      (∀ b, t.freqAt b = t.wbufWordBE (s.params.front + 4 * b.toNat)) ∧
      t.bitlen = t.wbufWordBE (s.params.capacity - 4) ∧
      (∀ q, s.params.capacity ≤ q → t.wbufAt q = s.wbufAt q) ∧
      (∀ i, t.ibufAt i = s.ibufAt i ∧ t.obufAt i = s.obufAt i)

/-- R171: CUBE_DECODE of what CUBE_ENCODE left restores every payload and the metadata, for every key. -/
def Obligations.CubeRoundTrip : Prop :=
  ∀ s a d : State, s.params.wf = true → exec .cubeEncode s = .next a → a.status.err = false →
    d.params = s.params → (∀ i < s.params.side, d.keyAt i = s.keyAt i) →
    d.wlen.toNat = s.params.capacity → (∀ q < s.params.capacity, d.wbufAt q = a.wbufAt q) →
    ∃ t, exec .cubeDecode d = .next t ∧
      t.phase = .idle ∧ t.status = { d.status with done := true } ∧
      t.freq = s.freq ∧ t.bitlen = s.bitlen ∧
      (∀ q < s.params.capacity, t.wbufAt q = pack s.params (decomp s.params q)
        (a.wbufAt (lin s.params (fwd s.params s.keyShift (decomp s.params q)))).payload) ∧
      (∀ q < bytesFor s.bitlen.toNat, (t.wbufAt q).payload = (s.wbufAt q).payload) ∧
      (∀ q, s.params.front ≤ q → q < s.params.capacity →
        (t.wbufAt q).payload = s.tailByte (q - s.params.front))

/-! ## Final Stride Relabeler -/

/-- R19: P(j) is the (j+1)-th prime, for every j. The spec marks it as general knowledge, and so does the
model (log entry 16). -/
def Obligations.NthPrimeIsTheStandardSequence : Prop :=
  ∀ j : Nat, nthPrime j = Nat.nth Nat.Prime j

/-- R190: the selected prime is P(max(kb, 1)), an odd prime between 3 and 1619. -/
def Obligations.SelectedPrimeIsOdd : Prop :=
  ∀ (p : Params) (kb : Byte), p.wf = true →
    selectPrime kb p.capacity = nthPrime (max kb.toNat 1) ∧ (selectPrime kb p.capacity).Prime ∧
    3 ≤ selectPrime kb p.capacity ∧ selectPrime kb p.capacity ≤ 1619

/-- R193: the stride map is a bijection of {1..C−1}. -/
def Obligations.StrideMapIsABijection : Prop :=
  ∀ (p : Params) (kb : Byte), p.wf = true →
    (∀ i, 1 ≤ i → i < p.capacity →
      1 ≤ stridePos p (selectPrime kb p.capacity) i ∧
        stridePos p (selectPrime kb p.capacity) i < p.capacity) ∧
    (∀ i j, 1 ≤ i → i < p.capacity → 1 ≤ j → j < p.capacity →
      stridePos p (selectPrime kb p.capacity) i = stridePos p (selectPrime kb p.capacity) j → i = j) ∧
    (∀ q, 1 ≤ q → q < p.capacity →
      ∃ i, 1 ≤ i ∧ i < p.capacity ∧ stridePos p (selectPrime kb p.capacity) i = q)

/-- R195: the closed form of RELABEL_ENCODE. -/
def Obligations.RelabelEncodeClosedForm : Prop :=
  ∀ s : State, s.params.wf = true → s.kidx.toNat < 1000 →
    ∃ t, exec .relabelEncode s = .next t ∧
      t = { s.succeeded with wbuf := t.wbuf, prime := t.prime } ∧
      t.prime.toNat = selectPrime (s.keyAt s.kidx.toNat) s.params.capacity ∧
      t.wbufAt 0 = tagged 0 (s.wbufAt 0).payload ∧
      (∀ i, 1 ≤ i → i < s.params.capacity → t.wbufAt i = tagged i
        (s.wbufAt (s.params.capacity - i * t.prime.toNat % s.params.capacity)).payload) ∧
      (∀ r < s.params.capacity, (t.wbufAt r).tag.toNat = r) ∧
      (∀ q, s.params.capacity ≤ q → t.wbufAt q = s.wbufAt q) ∧
      (∀ i, t.ibufAt i = s.ibufAt i ∧ t.obufAt i = s.obufAt i)

/-- R194: RELABEL_ENCODE gives the sorted words of the literal tag array: for every array of tags that the
loop could have filled, the words left are those words, in ascending order. It is what log entry 11 infers.
-/
def Obligations.RelabelEncodeAgreesWithTheTagArray : Prop :=
  ∀ (s t : State) (tag : Nat → Nat), s.params.wf = true → exec .relabelEncode s = .next t →
    t.status.err = false → tag 0 = 0 →
    (∀ i, 1 ≤ i → i < s.params.capacity → tag (stridePos s.params t.prime.toNat i) = i) →
    ((List.range s.params.capacity).map t.wbufAt).Perm
      ((List.range s.params.capacity).map fun q => tagged (tag q) (s.wbufAt q).payload) ∧
    ∀ q r, q < r → r < s.params.capacity → (t.wbufAt q).value ≤ (t.wbufAt r).value

/-- R198: the closed form of RELABEL_DECODE. -/
def Obligations.RelabelDecodeClosedForm : Prop :=
  ∀ s : State, s.params.wf = true → s.wlen.toNat = s.params.capacity → s.kidx.toNat < 1000 →
    ∃ t, exec .relabelDecode s = .next t ∧
      t = { s.succeeded with wbuf := t.wbuf, prime := t.prime } ∧
      t.prime.toNat = selectPrime (s.keyAt s.kidx.toNat) s.params.capacity ∧
      t.wbufAt 0 = tagged 0 (s.wbufAt 0).payload ∧
      (∀ q, 1 ≤ q → q < s.params.capacity →
        t.wbufAt (stridePos s.params t.prime.toNat q) =
          tagged (stridePos s.params t.prime.toNat q) (s.wbufAt q).payload) ∧
      (∀ r < s.params.capacity, (t.wbufAt r).tag.toNat = r ∧
        t.wbufAt r = pack s.params (decomp s.params r) (t.wbufAt r).payload ∧
        fields s.params (t.wbufAt r) = decomp s.params r) ∧
      (∀ q, s.params.capacity ≤ q → t.wbufAt q = s.wbufAt q) ∧
      (∀ i, t.ibufAt i = s.ibufAt i ∧ t.obufAt i = s.obufAt i)

/-- R196: the fixed points of the relabel: position 0, each i with i·(prime + 1) ≡ 0 (mod C), and so at
W = 4 with prime 7 the multiples of 512, at W = 8 with prime 3 those of 2^22. -/
def Obligations.RelabelFixedPoints : Prop :=
  (∀ (p : Params) (prime : Nat), relabelSource p prime 0 = 0) ∧
  (∀ (p : Params) (prime i : Nat), 1 ≤ i → i < p.capacity →
    (relabelSource p prime i = i ↔ p.capacity ∣ i * (prime + 1))) ∧
  (∀ p : Params, p.w = 4 → ∀ i < p.capacity, relabelSource p 7 i = i ↔ 512 ∣ i) ∧
  (∀ p : Params, p.w = 8 → ∀ i < p.capacity, relabelSource p 3 i = i ↔ 2 ^ 22 ∣ i)

/-- R199: RELABEL_DECODE of the output bytes restores the words RELABEL_ENCODE was given. -/
def Obligations.RelabelRoundTrip : Prop :=
  ∀ s a d : State, s.params.wf = true → (∀ q < s.params.capacity, (s.wbufAt q).tag.toNat = q) →
    exec .relabelEncode s = .next a → a.status.err = false →
    d.params = s.params → d.keyAt s.kidx.toNat = s.keyAt s.kidx.toNat → d.kidx = s.kidx →
    d.wlen.toNat = s.params.capacity →
    (∀ r < s.params.capacity, (d.wbufAt r).payload = (a.wbufAt r).payload) →
    ∃ t, exec .relabelDecode d = .next t ∧
      t.phase = .idle ∧ t.status = { d.status with done := true } ∧
      ∀ q < s.params.capacity, t.wbufAt q = s.wbufAt q

/-! ## The whole pipeline -/

/-- R222, R223: when each of the three stages of a whole-pipeline command succeeds, run on what the one
before it left, that command does what the three do one after the other. -/
def Obligations.PipelineCommandsRunTheirStages : Prop :=
  ∀ s a b c : State, a.status.err = false → b.status.err = false → c.status.err = false →
    (exec .hufEncode s = .next a → exec .cubeEncode a = .next b → exec .relabelEncode b = .next c →
      exec .encodeAll s = .next c) ∧
    (exec .relabelDecode s = .next a → exec .cubeDecode a = .next b → exec .hufDecode b = .next c →
      exec .decodeAll s = .next c)

/-- R222: ENCODE_ALL completes on an input that fits and a valid KIDX, and where each byte of the output
comes from: the stream and the metadata of the input, through the cube and the relabel. `fillDraws` is the
model's own field (log entry 5). -/
def Obligations.EncodeAllPlacesEveryByte : Prop :=
  ∀ s : State, s.params.wf = true → s.ilen.toNat ≤ s.params.ibufSize →
    bytesFor s.inputBits.length ≤ s.params.front → s.kidx.toNat < 1000 →
    ∃ t, exec .encodeAll s = .next t ∧
      t = { s.succeeded with
        freq := t.freq, codelen := t.codelen, bitlen := t.bitlen, wbuf := t.wbuf, prime := t.prime
        fillDraws := t.fillDraws } ∧
      (∀ b, (t.freqAt b).toNat = s.inputBytes.count b) ∧ t.codelenIs s.inputTree ∧
      t.bitlen.toNat = s.inputBits.length ∧
      t.prime.toNat = selectPrime (s.keyAt s.kidx.toNat) s.params.capacity ∧
      (∀ i < s.params.capacity, (t.wbufAt i).tag.toNat = i ∧
        let q := lin s.params (inv s.params s.keyShift
          (decomp s.params (relabelSource s.params t.prime.toNat i)))
        (q < bytesFor s.inputBits.length → (t.wbufAt i).payload = packByte s.inputBits q) ∧
        (s.params.front ≤ q →
          (t.wbufAt i).payload = tailByteOf t.freqAt t.bitlen (q - s.params.front))) ∧
      (∀ i, t.ibufAt i = s.ibufAt i ∧ t.obufAt i = s.obufAt i)

/-- R222, R244: where ENCODE_ALL fails, under the stage's opcode, and that the stages before the failing
one keep their writes. -/
def Obligations.EncodeAllStopsAtTheFirstError : Prop :=
  ∀ s : State,
    (∀ a, s.status.err = false → exec .hufEncode s = .next a → a.status.err = true →
      exec .encodeAll s = .next a) ∧
    (∀ a b, exec .hufEncode s = .next a → a.status.err = false →
      exec .cubeEncode a = .next b → b.status.err = false → 1000 ≤ s.kidx.toNat →
      exec .encodeAll s = .next
        { b with status := { s.status with err := true, errcode := 7#4, errop := 0x03#8 } })

/-- R223: DECODE_ALL of C bytes that stand where the relabel and the cube put the stream and the tail of a
table F and a length B: it restores F and B and gives the symbols of the stream. -/
def Obligations.DecodeAllReadsTheFile : Prop :=
  ∀ (s : State) (g : Nat → Byte) (F : Byte → Word) (B : Word) (out : List Byte),
    s.params.wf = true → s.wlen.toNat = s.params.capacity → s.kidx.toNat < 1000 →
    (∀ i < s.params.capacity, (s.wbufAt i).payload = g (lin s.params (inv s.params s.keyShift
      (decomp s.params (relabelSource s.params
        (selectPrime (s.keyAt s.kidx.toNat) s.params.capacity) i))))) →
    (∀ r < 1028, g (s.params.front + r) = tailByteOf F B r) →
    B.toNat ≤ 8 * s.params.front → (∀ b ∈ out, 0 < (F b).toNat) →
    ((List.range B.toNat).map fun t => (g (t / 8)).getLsbD (7 - t % 8)) =
      encodeBits (buildTree fun b => (F b).toNat) out →
    out.length ≤ s.params.obufSize →
    ∃ t, exec .decodeAll s = .next t ∧
      t = { s.succeeded with
        freq := t.freq, codelen := t.codelen, bitlen := B, wbuf := t.wbuf, prime := t.prime
        obuf := t.obuf, olen := t.olen } ∧
      (∀ b, t.freqAt b = F b) ∧ t.codelenIs (buildTree fun b => (F b).toNat) ∧
      t.prime.toNat = selectPrime (s.keyAt s.kidx.toNat) s.params.capacity ∧
      (∀ q < s.params.capacity, t.wbufAt q = tagged q (g q)) ∧
      t.olen.toNat = out.length ∧ (∀ n, (h : n < out.length) → t.obufAt n = out[n]) ∧
      (∀ n, out.length ≤ n → t.obufAt n = s.obufAt n) ∧ (∀ i, t.ibufAt i = s.ibufAt i)

/-- R223, R244: where DECODE_ALL fails in its first stage, and that a failure of the last stage keeps the
writes of the stages before it. -/
def Obligations.DecodeAllStopsAtTheFirstError : Prop :=
  ∀ s : State,
    (s.wlen.toNat ≠ s.params.capacity → exec .decodeAll s = .next (s.failed 3#4 0x13#8)) ∧
    (s.wlen.toNat = s.params.capacity → 1000 ≤ s.kidx.toNat →
      exec .decodeAll s = .next (s.failed 7#4 0x13#8)) ∧
    (∀ a b c, exec .relabelDecode s = .next a → a.status.err = false →
      exec .cubeDecode a = .next b → b.status.err = false →
      exec .hufDecode b = .next c → c.status.err = true →
      exec .decodeAll s = .next { c with status := { c.status with done := s.status.done } })

/-- R226: the full round trip, whatever the fill draws were. -/
def Obligations.FullRoundTrip : Prop :=
  ∀ s a d : State, s.params.wf = true → exec .encodeAll s = .next a → a.status.err = false →
    d.params = s.params → d.key = s.key → d.kidx = s.kidx → d.wlen.toNat = s.params.capacity →
    (∀ r < s.params.capacity, (d.wbufAt r).payload = (a.wbufAt r).payload) →
    s.ilen.toNat ≤ s.params.obufSize →
    ∃ t, exec .decodeAll d = .next t ∧ t.status = { d.status with done := true } ∧
      t.phase = .idle ∧ t.olen = s.ilen ∧ ∀ i < s.ilen.toNat, t.obufAt i = s.ibufAt i

/-! ## Invariants -/

/-- Every step keeps the invariant (R34, R38, R46, R47, R49, R241), from every state that has it, and none
changes the instance's parameters (R30). Its clause on eras is about the model's own field (log entry 6). -/
def Obligations.EveryStepKeepsTheInvariant : Prop :=
  ∀ s t : State, s.Inv → step s = .next t → t.Inv ∧ t.params = s.params

/-- The invariant holds right after reset, in every instance. -/
def Obligations.ResetHasTheInvariant : Prop :=
  State.reset.Inv ∧ ∀ (p : Params) (era : Nat), p.wf = true → (State.resetOf p era).Inv
end

