-- ==== Sys2Proof/Laws/State.lean ====
section
/-! SUPPORT. One lemma for each field after each named update of State, so that no later proof unfolds a
record update. -/

namespace Sys2Proof.Machine

/-! accept -/

@[simp] theorem State.accept_params (s : State) (v : Word) : (s.accept v).params = s.params := rfl

@[simp] theorem State.accept_phase (s : State) (v : Word) : (s.accept v).phase = .busy := rfl

@[simp] theorem State.accept_cur (s : State) (v : Word) : (s.accept v).cur = v := rfl

@[simp] theorem State.accept_ie (s : State) (v : Word) : (s.accept v).ie = s.ie := rfl

@[simp] theorem State.accept_status (s : State) (v : Word) : (s.accept v).status = { s.status with
    lastop := Word.opcode v, done := false, err := false, errcode := 0#4, errop := 0#8 } := rfl

@[simp] theorem State.accept_ilen (s : State) (v : Word) : (s.accept v).ilen = s.ilen := rfl

@[simp] theorem State.accept_bitlen (s : State) (v : Word) : (s.accept v).bitlen = s.bitlen := rfl

@[simp] theorem State.accept_olen (s : State) (v : Word) : (s.accept v).olen = s.olen := rfl

@[simp] theorem State.accept_wlen (s : State) (v : Word) : (s.accept v).wlen = s.wlen := rfl

@[simp] theorem State.accept_kidx (s : State) (v : Word) : (s.accept v).kidx = s.kidx := rfl

@[simp] theorem State.accept_prime (s : State) (v : Word) : (s.accept v).prime = s.prime := rfl

@[simp] theorem State.accept_freq (s : State) (v : Word) : (s.accept v).freq = s.freq := rfl

@[simp] theorem State.accept_codelen (s : State) (v : Word) :
    (s.accept v).codelen = s.codelen := rfl

@[simp] theorem State.accept_key (s : State) (v : Word) : (s.accept v).key = s.key := rfl

@[simp] theorem State.accept_ibuf (s : State) (v : Word) : (s.accept v).ibuf = s.ibuf := rfl

@[simp] theorem State.accept_wbuf (s : State) (v : Word) : (s.accept v).wbuf = s.wbuf := rfl

@[simp] theorem State.accept_obuf (s : State) (v : Word) : (s.accept v).obuf = s.obuf := rfl

@[simp] theorem State.accept_fillDraws (s : State) (v : Word) :
    (s.accept v).fillDraws = s.fillDraws := rfl

@[simp] theorem State.accept_era (s : State) (v : Word) : (s.accept v).era = s.era := rfl

@[simp] theorem State.accept_inputs (s : State) (v : Word) : (s.accept v).inputs = s.inputs := rfl

@[simp] theorem State.accept_reads (s : State) (v : Word) : (s.accept v).reads = s.reads := rfl

/-! errorEnd -/

@[simp] theorem State.errorEnd_params (s : State) (e : CmdError) (op : Byte) :
    (s.errorEnd e op).params = s.params := rfl

@[simp] theorem State.errorEnd_phase (s : State) (e : CmdError) (op : Byte) :
    (s.errorEnd e op).phase = .idle := rfl

@[simp] theorem State.errorEnd_cur (s : State) (e : CmdError) (op : Byte) :
    (s.errorEnd e op).cur = s.cur := rfl

@[simp] theorem State.errorEnd_ie (s : State) (e : CmdError) (op : Byte) :
    (s.errorEnd e op).ie = s.ie := rfl

@[simp] theorem State.errorEnd_status (s : State) (e : CmdError) (op : Byte) :
    (s.errorEnd e op).status = { s.status with err := true, errcode := e.code, errop := op } := rfl

@[simp] theorem State.errorEnd_ilen (s : State) (e : CmdError) (op : Byte) :
    (s.errorEnd e op).ilen = s.ilen := rfl

@[simp] theorem State.errorEnd_bitlen (s : State) (e : CmdError) (op : Byte) :
    (s.errorEnd e op).bitlen = s.bitlen := rfl

@[simp] theorem State.errorEnd_olen (s : State) (e : CmdError) (op : Byte) :
    (s.errorEnd e op).olen = s.olen := rfl

@[simp] theorem State.errorEnd_wlen (s : State) (e : CmdError) (op : Byte) :
    (s.errorEnd e op).wlen = s.wlen := rfl

@[simp] theorem State.errorEnd_kidx (s : State) (e : CmdError) (op : Byte) :
    (s.errorEnd e op).kidx = s.kidx := rfl

@[simp] theorem State.errorEnd_prime (s : State) (e : CmdError) (op : Byte) :
    (s.errorEnd e op).prime = s.prime := rfl

@[simp] theorem State.errorEnd_freq (s : State) (e : CmdError) (op : Byte) :
    (s.errorEnd e op).freq = s.freq := rfl

@[simp] theorem State.errorEnd_codelen (s : State) (e : CmdError) (op : Byte) :
    (s.errorEnd e op).codelen = s.codelen := rfl

@[simp] theorem State.errorEnd_key (s : State) (e : CmdError) (op : Byte) :
    (s.errorEnd e op).key = s.key := rfl

@[simp] theorem State.errorEnd_ibuf (s : State) (e : CmdError) (op : Byte) :
    (s.errorEnd e op).ibuf = s.ibuf := rfl

@[simp] theorem State.errorEnd_wbuf (s : State) (e : CmdError) (op : Byte) :
    (s.errorEnd e op).wbuf = s.wbuf := rfl

@[simp] theorem State.errorEnd_obuf (s : State) (e : CmdError) (op : Byte) :
    (s.errorEnd e op).obuf = s.obuf := rfl

@[simp] theorem State.errorEnd_fillDraws (s : State) (e : CmdError) (op : Byte) :
    (s.errorEnd e op).fillDraws = s.fillDraws := rfl

@[simp] theorem State.errorEnd_era (s : State) (e : CmdError) (op : Byte) :
    (s.errorEnd e op).era = s.era := rfl

@[simp] theorem State.errorEnd_inputs (s : State) (e : CmdError) (op : Byte) :
    (s.errorEnd e op).inputs = s.inputs := rfl

@[simp] theorem State.errorEnd_reads (s : State) (e : CmdError) (op : Byte) :
    (s.errorEnd e op).reads = s.reads := rfl

/-! successEnd -/

@[simp] theorem State.successEnd_params (s : State) : (s.successEnd).params = s.params := rfl

@[simp] theorem State.successEnd_phase (s : State) : (s.successEnd).phase = .idle := rfl

@[simp] theorem State.successEnd_cur (s : State) : (s.successEnd).cur = s.cur := rfl

@[simp] theorem State.successEnd_ie (s : State) : (s.successEnd).ie = s.ie := rfl

@[simp] theorem State.successEnd_status (s : State) :
    (s.successEnd).status = { s.status with done := true } := rfl

@[simp] theorem State.successEnd_ilen (s : State) : (s.successEnd).ilen = s.ilen := rfl

@[simp] theorem State.successEnd_bitlen (s : State) : (s.successEnd).bitlen = s.bitlen := rfl

@[simp] theorem State.successEnd_olen (s : State) : (s.successEnd).olen = s.olen := rfl

@[simp] theorem State.successEnd_wlen (s : State) : (s.successEnd).wlen = s.wlen := rfl

@[simp] theorem State.successEnd_kidx (s : State) : (s.successEnd).kidx = s.kidx := rfl

@[simp] theorem State.successEnd_prime (s : State) : (s.successEnd).prime = s.prime := rfl

@[simp] theorem State.successEnd_freq (s : State) : (s.successEnd).freq = s.freq := rfl

@[simp] theorem State.successEnd_codelen (s : State) : (s.successEnd).codelen = s.codelen := rfl

@[simp] theorem State.successEnd_key (s : State) : (s.successEnd).key = s.key := rfl

@[simp] theorem State.successEnd_ibuf (s : State) : (s.successEnd).ibuf = s.ibuf := rfl

@[simp] theorem State.successEnd_wbuf (s : State) : (s.successEnd).wbuf = s.wbuf := rfl

@[simp] theorem State.successEnd_obuf (s : State) : (s.successEnd).obuf = s.obuf := rfl

@[simp] theorem State.successEnd_fillDraws (s : State) :
    (s.successEnd).fillDraws = s.fillDraws := rfl

@[simp] theorem State.successEnd_era (s : State) : (s.successEnd).era = s.era := rfl

@[simp] theorem State.successEnd_inputs (s : State) : (s.successEnd).inputs = s.inputs := rfl

@[simp] theorem State.successEnd_reads (s : State) : (s.successEnd).reads = s.reads := rfl

/-! setOvr -/

@[simp] theorem State.setOvr_params (s : State) : (s.setOvr).params = s.params := rfl

@[simp] theorem State.setOvr_phase (s : State) : (s.setOvr).phase = s.phase := rfl

@[simp] theorem State.setOvr_cur (s : State) : (s.setOvr).cur = s.cur := rfl

@[simp] theorem State.setOvr_ie (s : State) : (s.setOvr).ie = s.ie := rfl

@[simp] theorem State.setOvr_status (s : State) :
    (s.setOvr).status = { s.status with ovr := true } := rfl

@[simp] theorem State.setOvr_ilen (s : State) : (s.setOvr).ilen = s.ilen := rfl

@[simp] theorem State.setOvr_bitlen (s : State) : (s.setOvr).bitlen = s.bitlen := rfl

@[simp] theorem State.setOvr_olen (s : State) : (s.setOvr).olen = s.olen := rfl

@[simp] theorem State.setOvr_wlen (s : State) : (s.setOvr).wlen = s.wlen := rfl

@[simp] theorem State.setOvr_kidx (s : State) : (s.setOvr).kidx = s.kidx := rfl

@[simp] theorem State.setOvr_prime (s : State) : (s.setOvr).prime = s.prime := rfl

@[simp] theorem State.setOvr_freq (s : State) : (s.setOvr).freq = s.freq := rfl

@[simp] theorem State.setOvr_codelen (s : State) : (s.setOvr).codelen = s.codelen := rfl

@[simp] theorem State.setOvr_key (s : State) : (s.setOvr).key = s.key := rfl

@[simp] theorem State.setOvr_ibuf (s : State) : (s.setOvr).ibuf = s.ibuf := rfl

@[simp] theorem State.setOvr_wbuf (s : State) : (s.setOvr).wbuf = s.wbuf := rfl

@[simp] theorem State.setOvr_obuf (s : State) : (s.setOvr).obuf = s.obuf := rfl

@[simp] theorem State.setOvr_fillDraws (s : State) : (s.setOvr).fillDraws = s.fillDraws := rfl

@[simp] theorem State.setOvr_era (s : State) : (s.setOvr).era = s.era := rfl

@[simp] theorem State.setOvr_inputs (s : State) : (s.setOvr).inputs = s.inputs := rfl

@[simp] theorem State.setOvr_reads (s : State) : (s.setOvr).reads = s.reads := rfl

/-! setBacc -/

@[simp] theorem State.setBacc_params (s : State) : (s.setBacc).params = s.params := rfl

@[simp] theorem State.setBacc_phase (s : State) : (s.setBacc).phase = s.phase := rfl

@[simp] theorem State.setBacc_cur (s : State) : (s.setBacc).cur = s.cur := rfl

@[simp] theorem State.setBacc_ie (s : State) : (s.setBacc).ie = s.ie := rfl

@[simp] theorem State.setBacc_status (s : State) :
    (s.setBacc).status = { s.status with bacc := true } := rfl

@[simp] theorem State.setBacc_ilen (s : State) : (s.setBacc).ilen = s.ilen := rfl

@[simp] theorem State.setBacc_bitlen (s : State) : (s.setBacc).bitlen = s.bitlen := rfl

@[simp] theorem State.setBacc_olen (s : State) : (s.setBacc).olen = s.olen := rfl

@[simp] theorem State.setBacc_wlen (s : State) : (s.setBacc).wlen = s.wlen := rfl

@[simp] theorem State.setBacc_kidx (s : State) : (s.setBacc).kidx = s.kidx := rfl

@[simp] theorem State.setBacc_prime (s : State) : (s.setBacc).prime = s.prime := rfl

@[simp] theorem State.setBacc_freq (s : State) : (s.setBacc).freq = s.freq := rfl

@[simp] theorem State.setBacc_codelen (s : State) : (s.setBacc).codelen = s.codelen := rfl

@[simp] theorem State.setBacc_key (s : State) : (s.setBacc).key = s.key := rfl

@[simp] theorem State.setBacc_ibuf (s : State) : (s.setBacc).ibuf = s.ibuf := rfl

@[simp] theorem State.setBacc_wbuf (s : State) : (s.setBacc).wbuf = s.wbuf := rfl

@[simp] theorem State.setBacc_obuf (s : State) : (s.setBacc).obuf = s.obuf := rfl

@[simp] theorem State.setBacc_fillDraws (s : State) : (s.setBacc).fillDraws = s.fillDraws := rfl

@[simp] theorem State.setBacc_era (s : State) : (s.setBacc).era = s.era := rfl

@[simp] theorem State.setBacc_inputs (s : State) : (s.setBacc).inputs = s.inputs := rfl

@[simp] theorem State.setBacc_reads (s : State) : (s.setBacc).reads = s.reads := rfl

/-! respond -/

@[simp] theorem State.respond_params (s : State) (v : Word) : (s.respond v).params = s.params := rfl

@[simp] theorem State.respond_phase (s : State) (v : Word) : (s.respond v).phase = s.phase := rfl

@[simp] theorem State.respond_cur (s : State) (v : Word) : (s.respond v).cur = s.cur := rfl

@[simp] theorem State.respond_ie (s : State) (v : Word) : (s.respond v).ie = s.ie := rfl

@[simp] theorem State.respond_status (s : State) (v : Word) : (s.respond v).status = s.status := rfl

@[simp] theorem State.respond_ilen (s : State) (v : Word) : (s.respond v).ilen = s.ilen := rfl

@[simp] theorem State.respond_bitlen (s : State) (v : Word) : (s.respond v).bitlen = s.bitlen := rfl

@[simp] theorem State.respond_olen (s : State) (v : Word) : (s.respond v).olen = s.olen := rfl

@[simp] theorem State.respond_wlen (s : State) (v : Word) : (s.respond v).wlen = s.wlen := rfl

@[simp] theorem State.respond_kidx (s : State) (v : Word) : (s.respond v).kidx = s.kidx := rfl

@[simp] theorem State.respond_prime (s : State) (v : Word) : (s.respond v).prime = s.prime := rfl

@[simp] theorem State.respond_freq (s : State) (v : Word) : (s.respond v).freq = s.freq := rfl

@[simp] theorem State.respond_codelen (s : State) (v : Word) :
    (s.respond v).codelen = s.codelen := rfl

@[simp] theorem State.respond_key (s : State) (v : Word) : (s.respond v).key = s.key := rfl

@[simp] theorem State.respond_ibuf (s : State) (v : Word) : (s.respond v).ibuf = s.ibuf := rfl

@[simp] theorem State.respond_wbuf (s : State) (v : Word) : (s.respond v).wbuf = s.wbuf := rfl

@[simp] theorem State.respond_obuf (s : State) (v : Word) : (s.respond v).obuf = s.obuf := rfl

@[simp] theorem State.respond_fillDraws (s : State) (v : Word) :
    (s.respond v).fillDraws = s.fillDraws := rfl

@[simp] theorem State.respond_era (s : State) (v : Word) : (s.respond v).era = s.era := rfl

@[simp] theorem State.respond_inputs (s : State) (v : Word) : (s.respond v).inputs = s.inputs := rfl

@[simp] theorem State.respond_reads (s : State) (v : Word) :
    (s.respond v).reads = v :: s.reads := rfl

/-! storeCube -/

@[simp] theorem State.storeCube_params (s : State) (ws : List CubeWord) :
    (s.storeCube ws).params = s.params := rfl

@[simp] theorem State.storeCube_phase (s : State) (ws : List CubeWord) :
    (s.storeCube ws).phase = s.phase := rfl

@[simp] theorem State.storeCube_cur (s : State) (ws : List CubeWord) :
    (s.storeCube ws).cur = s.cur := rfl

@[simp] theorem State.storeCube_ie (s : State) (ws : List CubeWord) :
    (s.storeCube ws).ie = s.ie := rfl

@[simp] theorem State.storeCube_status (s : State) (ws : List CubeWord) :
    (s.storeCube ws).status = s.status := rfl

@[simp] theorem State.storeCube_ilen (s : State) (ws : List CubeWord) :
    (s.storeCube ws).ilen = s.ilen := rfl

@[simp] theorem State.storeCube_bitlen (s : State) (ws : List CubeWord) :
    (s.storeCube ws).bitlen = s.bitlen := rfl

@[simp] theorem State.storeCube_olen (s : State) (ws : List CubeWord) :
    (s.storeCube ws).olen = s.olen := rfl

@[simp] theorem State.storeCube_wlen (s : State) (ws : List CubeWord) :
    (s.storeCube ws).wlen = s.wlen := rfl

@[simp] theorem State.storeCube_kidx (s : State) (ws : List CubeWord) :
    (s.storeCube ws).kidx = s.kidx := rfl

@[simp] theorem State.storeCube_prime (s : State) (ws : List CubeWord) :
    (s.storeCube ws).prime = s.prime := rfl

@[simp] theorem State.storeCube_freq (s : State) (ws : List CubeWord) :
    (s.storeCube ws).freq = s.freq := rfl

@[simp] theorem State.storeCube_codelen (s : State) (ws : List CubeWord) :
    (s.storeCube ws).codelen = s.codelen := rfl

@[simp] theorem State.storeCube_key (s : State) (ws : List CubeWord) :
    (s.storeCube ws).key = s.key := rfl

@[simp] theorem State.storeCube_ibuf (s : State) (ws : List CubeWord) :
    (s.storeCube ws).ibuf = s.ibuf := rfl

@[simp] theorem State.storeCube_wbuf (s : State) (ws : List CubeWord) :
    (s.storeCube ws).wbuf = s.wbuf.writeFront ws := rfl

@[simp] theorem State.storeCube_obuf (s : State) (ws : List CubeWord) :
    (s.storeCube ws).obuf = s.obuf := rfl

@[simp] theorem State.storeCube_fillDraws (s : State) (ws : List CubeWord) :
    (s.storeCube ws).fillDraws = s.fillDraws := rfl

@[simp] theorem State.storeCube_era (s : State) (ws : List CubeWord) :
    (s.storeCube ws).era = s.era := rfl

@[simp] theorem State.storeCube_inputs (s : State) (ws : List CubeWord) :
    (s.storeCube ws).inputs = s.inputs := rfl

@[simp] theorem State.storeCube_reads (s : State) (ws : List CubeWord) :
    (s.storeCube ws).reads = s.reads := rfl

/-! readTail -/

@[simp] theorem State.readTail_params (s : State) : (s.readTail).params = s.params := rfl

@[simp] theorem State.readTail_phase (s : State) : (s.readTail).phase = s.phase := rfl

@[simp] theorem State.readTail_cur (s : State) : (s.readTail).cur = s.cur := rfl

@[simp] theorem State.readTail_ie (s : State) : (s.readTail).ie = s.ie := rfl

@[simp] theorem State.readTail_status (s : State) : (s.readTail).status = s.status := rfl

@[simp] theorem State.readTail_ilen (s : State) : (s.readTail).ilen = s.ilen := rfl

@[simp] theorem State.readTail_bitlen (s : State) :
    (s.readTail).bitlen = s.wbufWordBE (s.params.capacity - 4) := rfl

@[simp] theorem State.readTail_olen (s : State) : (s.readTail).olen = s.olen := rfl

@[simp] theorem State.readTail_wlen (s : State) : (s.readTail).wlen = s.wlen := rfl

@[simp] theorem State.readTail_kidx (s : State) : (s.readTail).kidx = s.kidx := rfl

@[simp] theorem State.readTail_prime (s : State) : (s.readTail).prime = s.prime := rfl

@[simp] theorem State.readTail_freq (s : State) :
    (s.readTail).freq = perSymbol fun b => s.wbufWordBE (s.params.front + 4 * b.toNat) := rfl

@[simp] theorem State.readTail_codelen (s : State) : (s.readTail).codelen = s.codelen := rfl

@[simp] theorem State.readTail_key (s : State) : (s.readTail).key = s.key := rfl

@[simp] theorem State.readTail_ibuf (s : State) : (s.readTail).ibuf = s.ibuf := rfl

@[simp] theorem State.readTail_wbuf (s : State) : (s.readTail).wbuf = s.wbuf := rfl

@[simp] theorem State.readTail_obuf (s : State) : (s.readTail).obuf = s.obuf := rfl

@[simp] theorem State.readTail_fillDraws (s : State) : (s.readTail).fillDraws = s.fillDraws := rfl

@[simp] theorem State.readTail_era (s : State) : (s.readTail).era = s.era := rfl

@[simp] theorem State.readTail_inputs (s : State) : (s.readTail).inputs = s.inputs := rfl

@[simp] theorem State.readTail_reads (s : State) : (s.readTail).reads = s.reads := rfl

/-! setPrime -/

@[simp] theorem State.setPrime_params (s : State) (q : Nat) :
    (s.setPrime q).params = s.params := rfl

@[simp] theorem State.setPrime_phase (s : State) (q : Nat) : (s.setPrime q).phase = s.phase := rfl

@[simp] theorem State.setPrime_cur (s : State) (q : Nat) : (s.setPrime q).cur = s.cur := rfl

@[simp] theorem State.setPrime_ie (s : State) (q : Nat) : (s.setPrime q).ie = s.ie := rfl

@[simp] theorem State.setPrime_status (s : State) (q : Nat) :
    (s.setPrime q).status = s.status := rfl

@[simp] theorem State.setPrime_ilen (s : State) (q : Nat) : (s.setPrime q).ilen = s.ilen := rfl

@[simp] theorem State.setPrime_bitlen (s : State) (q : Nat) :
    (s.setPrime q).bitlen = s.bitlen := rfl

@[simp] theorem State.setPrime_olen (s : State) (q : Nat) : (s.setPrime q).olen = s.olen := rfl

@[simp] theorem State.setPrime_wlen (s : State) (q : Nat) : (s.setPrime q).wlen = s.wlen := rfl

@[simp] theorem State.setPrime_kidx (s : State) (q : Nat) : (s.setPrime q).kidx = s.kidx := rfl

@[simp] theorem State.setPrime_prime (s : State) (q : Nat) :
    (s.setPrime q).prime = BitVec.ofNat 32 q := rfl

@[simp] theorem State.setPrime_freq (s : State) (q : Nat) : (s.setPrime q).freq = s.freq := rfl

@[simp] theorem State.setPrime_codelen (s : State) (q : Nat) :
    (s.setPrime q).codelen = s.codelen := rfl

@[simp] theorem State.setPrime_key (s : State) (q : Nat) : (s.setPrime q).key = s.key := rfl

@[simp] theorem State.setPrime_ibuf (s : State) (q : Nat) : (s.setPrime q).ibuf = s.ibuf := rfl

@[simp] theorem State.setPrime_wbuf (s : State) (q : Nat) : (s.setPrime q).wbuf = s.wbuf := rfl

@[simp] theorem State.setPrime_obuf (s : State) (q : Nat) : (s.setPrime q).obuf = s.obuf := rfl

@[simp] theorem State.setPrime_fillDraws (s : State) (q : Nat) :
    (s.setPrime q).fillDraws = s.fillDraws := rfl

@[simp] theorem State.setPrime_era (s : State) (q : Nat) : (s.setPrime q).era = s.era := rfl

@[simp] theorem State.setPrime_inputs (s : State) (q : Nat) :
    (s.setPrime q).inputs = s.inputs := rfl

@[simp] theorem State.setPrime_reads (s : State) (q : Nat) : (s.setPrime q).reads = s.reads := rfl

/-! softReset -/

@[simp] theorem State.softReset_params (s : State) : (s.softReset).params = s.params := rfl

@[simp] theorem State.softReset_phase (s : State) : (s.softReset).phase = .idle := rfl

@[simp] theorem State.softReset_cur (s : State) : (s.softReset).cur = s.cur := rfl

@[simp] theorem State.softReset_ie (s : State) : (s.softReset).ie = false := rfl

@[simp] theorem State.softReset_status (s : State) : (s.softReset).status = Status.reset := rfl

@[simp] theorem State.softReset_ilen (s : State) : (s.softReset).ilen = 0#32 := rfl

@[simp] theorem State.softReset_bitlen (s : State) : (s.softReset).bitlen = 0#32 := rfl

@[simp] theorem State.softReset_olen (s : State) : (s.softReset).olen = 0#32 := rfl

@[simp] theorem State.softReset_wlen (s : State) : (s.softReset).wlen = 0#32 := rfl

@[simp] theorem State.softReset_kidx (s : State) : (s.softReset).kidx = 0#10 := rfl

@[simp] theorem State.softReset_prime (s : State) : (s.softReset).prime = 0#32 := rfl

@[simp] theorem State.softReset_freq (s : State) :
    (s.softReset).freq = tabulate 256 fun _ => 0#32 := rfl

@[simp] theorem State.softReset_codelen (s : State) :
    (s.softReset).codelen = tabulate 256 fun _ => 0#8 := rfl

@[simp] theorem State.softReset_key (s : State) : (s.softReset).key = s.key := rfl

@[simp] theorem State.softReset_ibuf (s : State) : (s.softReset).ibuf = s.ibuf := rfl

@[simp] theorem State.softReset_wbuf (s : State) :
    (s.softReset).wbuf = if s.aborts writesWbuf then s.wbuf.forget (s.era + 1) else s.wbuf := rfl

@[simp] theorem State.softReset_obuf (s : State) :
    (s.softReset).obuf = if s.aborts writesObuf then s.obuf.forget (s.era + 1) else s.obuf := rfl

@[simp] theorem State.softReset_fillDraws (s : State) : (s.softReset).fillDraws = s.fillDraws := rfl

@[simp] theorem State.softReset_era (s : State) : (s.softReset).era = s.era + 1 := rfl

@[simp] theorem State.softReset_inputs (s : State) : (s.softReset).inputs = s.inputs := rfl

@[simp] theorem State.softReset_reads (s : State) : (s.softReset).reads = s.reads := rfl

/-! hardReset -/

@[simp] theorem State.hardReset_params (s : State) : (s.hardReset).params = s.params := rfl

@[simp] theorem State.hardReset_phase (s : State) : (s.hardReset).phase = .idle := rfl

@[simp] theorem State.hardReset_cur (s : State) :
    (s.hardReset).cur = Config.unspecified .cur (s.era + 1) 0 := rfl

@[simp] theorem State.hardReset_ie (s : State) : (s.hardReset).ie = false := rfl

@[simp] theorem State.hardReset_status (s : State) : (s.hardReset).status = Status.reset := rfl

@[simp] theorem State.hardReset_ilen (s : State) : (s.hardReset).ilen = 0#32 := rfl

@[simp] theorem State.hardReset_bitlen (s : State) : (s.hardReset).bitlen = 0#32 := rfl

@[simp] theorem State.hardReset_olen (s : State) : (s.hardReset).olen = 0#32 := rfl

@[simp] theorem State.hardReset_wlen (s : State) : (s.hardReset).wlen = 0#32 := rfl

@[simp] theorem State.hardReset_kidx (s : State) : (s.hardReset).kidx = 0#10 := rfl

@[simp] theorem State.hardReset_prime (s : State) : (s.hardReset).prime = 0#32 := rfl

@[simp] theorem State.hardReset_freq (s : State) :
    (s.hardReset).freq = tabulate 256 fun _ => 0#32 := rfl

@[simp] theorem State.hardReset_codelen (s : State) :
    (s.hardReset).codelen = tabulate 256 fun _ => 0#8 := rfl

@[simp] theorem State.hardReset_key (s : State) :
    (s.hardReset).key = unspecifiedKey (s.era + 1) := rfl

@[simp] theorem State.hardReset_ibuf (s : State) : (s.hardReset).ibuf = ⟨s.era + 1, []⟩ := rfl

@[simp] theorem State.hardReset_wbuf (s : State) : (s.hardReset).wbuf = ⟨s.era + 1, []⟩ := rfl

@[simp] theorem State.hardReset_obuf (s : State) : (s.hardReset).obuf = ⟨s.era + 1, []⟩ := rfl

@[simp] theorem State.hardReset_fillDraws (s : State) : (s.hardReset).fillDraws = s.fillDraws := rfl

@[simp] theorem State.hardReset_era (s : State) : (s.hardReset).era = s.era + 1 := rfl

@[simp] theorem State.hardReset_inputs (s : State) : (s.hardReset).inputs = s.inputs := rfl

@[simp] theorem State.hardReset_reads (s : State) : (s.hardReset).reads = s.reads := rfl

end Sys2Proof.Machine
end

