-- ==== Sys2Proof/Laws/Memory.lean ====
section
/-! SUPPORT. What the memory operations do: reading after a write, and that every one of them keeps the
canonical form. -/

namespace Sys2Proof.Machine

variable {α : Type}

/-! Register files -/

@[simp] theorem tabulate_getElem (n : Nat) (f : Nat → α) (i : Nat) (h : i < n) :
    (tabulate n f)[i] = f i := by
  simp [tabulate]

@[simp] theorem perSymbol_getElem (f : Byte → α) (b : Byte) (h : b.toNat < 256) :
    (perSymbol f)[b.toNat] = f b := by
  simp [perSymbol]

theorem State.freqAt_of_eq {s : State} {F : Byte → Word} (h : s.freq = perSymbol F) (b : Byte) :
    s.freqAt b = F b := by
  simp only [State.freqAt, h, perSymbol_getElem]

theorem State.codelenAt_of_eq {s : State} {F : Byte → Byte} (h : s.codelen = perSymbol F) (b : Byte) :
    s.codelenAt b = F b := by
  simp only [State.codelenAt, h, perSymbol_getElem]

/-! Lookup in a numbered list -/

theorem lookup_cons_ite (k : Nat) (v : α) (l : List (Nat × α)) (i : Nat) :
    ((k, v) :: l).lookup i = if i = k then some v else l.lookup i := by
  rw [List.lookup_cons]
  by_cases h : i = k
  · simp [h]
  · have : (i == k) = false := by simpa using h
    simp [this, h]

theorem lookup_numberFrom (vs : List α) (k i : Nat) :
    (numberFrom k vs).lookup i = if k ≤ i then vs[i - k]? else none := by
  induction vs generalizing k with
  | nil => simp [numberFrom]
  | cons v vs ih =>
    rw [numberFrom, List.lookup_cons]
    by_cases h : i = k
    · subst h; simp
    · have h' : (i == k) = false := by simpa using h
      rw [h', ih]
      by_cases hk : k ≤ i
      · have hk1 : k + 1 ≤ i := by omega
        have : i - k = (i - (k + 1)) + 1 := by omega
        simp [hk, hk1, this]
      · have hk1 : ¬ k + 1 ≤ i := by omega
        simp [hk, hk1]

theorem lookup_filter_ge (l : List (Nat × α)) (n i : Nat) (h : n ≤ i) :
    (l.filter fun c => decide (n ≤ c.1)).lookup i = l.lookup i := by
  induction l with
  | nil => simp
  | cons c l ih =>
    by_cases hc : n ≤ c.1
    · obtain ⟨j, v⟩ := c
      rw [List.filter_cons_of_pos (by simpa using hc), List.lookup_cons, List.lookup_cons, ih]
    · obtain ⟨j, v⟩ := c
      have hij : (i == j) = false := by
        simp at hc ⊢; omega
      rw [List.filter_cons_of_neg (by simpa using hc), List.lookup_cons, hij, ih]

theorem lookup_filter_lt (l : List (Nat × α)) (n i : Nat) (h : i < n) :
    (l.filter fun c => decide (n ≤ c.1)).lookup i = none := by
  induction l with
  | nil => simp
  | cons c l ih =>
    obtain ⟨j, v⟩ := c
    by_cases hc : n ≤ j
    · have hij : (i == j) = false := by simp; omega
      rw [List.filter_cons_of_pos (by simpa using hc), List.lookup_cons, hij, ih]
    · rw [List.filter_cons_of_neg (by simpa using hc), ih]

theorem lookup_insertCell (l : List (Nat × α)) (i : Nat) (v : α) (j : Nat) :
    (insertCell i v l).lookup j = if j = i then some v else l.lookup j := by
  induction l with
  | nil => simp [insertCell, lookup_cons_ite]
  | cons c l ih =>
    obtain ⟨k, w⟩ := c
    rw [insertCell]
    split
    · simp [lookup_cons_ite]
    · split
      · subst_vars; by_cases h : j = k <;> simp [lookup_cons_ite, h]
      · rw [lookup_cons_ite, ih, lookup_cons_ite]
        by_cases h : j = i
        · subst h; simp [*]
        · simp [h]

/-! Reading after a write -/

/-- A written cell reads as written, and every other cell as before. -/
@[simp] theorem Memory.listed_write (m : Memory α) (i : Nat) (v : α) (j : Nat) :
    (m.write i v).listed j = if j = i then some v else m.listed j :=
  lookup_insertCell m.cells i v j

/-- The cells a list is written to read as the list, and every later cell as before. -/
@[simp] theorem Memory.listed_writeFront (m : Memory α) (vs : List α) (i : Nat) :
    (m.writeFront vs).listed i = if h : i < vs.length then some vs[i] else m.listed i := by
  simp only [Memory.listed, Memory.writeFront, List.lookup_append, lookup_numberFrom]
  by_cases h : i < vs.length
  · simp [h]
  · simp [h, lookup_filter_ge _ _ _ (Nat.le_of_not_lt h)]

@[simp] theorem Memory.listed_forget (m : Memory α) (e i : Nat) : (m.forget e).listed i = none := rfl
@[simp] theorem Memory.write_era (m : Memory α) (i : Nat) (v : α) : (m.write i v).era = m.era := rfl
@[simp] theorem Memory.writeFront_era (m : Memory α) (vs : List α) :
    (m.writeFront vs).era = m.era := rfl
@[simp] theorem Memory.forget_era (m : Memory α) (e : Nat) : (m.forget e).era = e := rfl

/-! The canonical form -/

theorem cellsRise_mono {lo lo' size : Nat} (h : lo' ≤ lo) :
    ∀ l : List (Nat × α), cellsRise lo size l = true → cellsRise lo' size l = true
  | [], _ => rfl
  | (i, v) :: l, hl => by
    simp only [cellsRise, Bool.and_eq_true, decide_eq_true_eq] at hl ⊢
    exact ⟨⟨by omega, hl.1.2⟩, hl.2⟩

theorem cellsRise_insertCell {size i : Nat} {v : α} (hi : i < size) :
    ∀ {lo : Nat} (l : List (Nat × α)), lo ≤ i → cellsRise lo size l = true →
      cellsRise lo size (insertCell i v l) = true
  | lo, [], hlo, _ => by simp [insertCell, cellsRise, hlo, hi]
  | lo, (j, w) :: l, hlo, hl => by
    simp only [cellsRise, Bool.and_eq_true, decide_eq_true_eq] at hl
    rw [insertCell]
    split
    · simp only [cellsRise, Bool.and_eq_true, decide_eq_true_eq]
      exact ⟨⟨hlo, hi⟩, ⟨by omega, hl.1.2⟩, hl.2⟩
    · split
      · subst_vars; simp only [cellsRise, Bool.and_eq_true, decide_eq_true_eq]; exact hl
      · simp only [cellsRise, Bool.and_eq_true, decide_eq_true_eq]
        exact ⟨hl.1, cellsRise_insertCell hi l (by omega) hl.2⟩

theorem cellsRise_filter (p : Nat × α → Bool) {size : Nat} :
    ∀ {lo : Nat} (l : List (Nat × α)), cellsRise lo size l = true →
      cellsRise lo size (l.filter p) = true
  | _, [], _ => rfl
  | lo, (j, w) :: l, hl => by
    simp only [cellsRise, Bool.and_eq_true, decide_eq_true_eq] at hl
    by_cases hp : p (j, w)
    · rw [List.filter_cons_of_pos hp]
      simp only [cellsRise, Bool.and_eq_true, decide_eq_true_eq]
      exact ⟨hl.1, cellsRise_filter p l hl.2⟩
    · rw [List.filter_cons_of_neg hp]
      exact cellsRise_mono (by omega) _ (cellsRise_filter p l hl.2)

theorem cellsRise_filter_ge {size : Nat} (n : Nat) :
    ∀ {lo : Nat} (l : List (Nat × α)), cellsRise lo size l = true →
      cellsRise n size (l.filter fun c => decide (n ≤ c.1)) = true
  | _, [], _ => rfl
  | lo, (j, w) :: l, hl => by
    simp only [cellsRise, Bool.and_eq_true, decide_eq_true_eq] at hl
    by_cases hp : n ≤ j
    · rw [List.filter_cons_of_pos (by simpa using hp)]
      simp only [cellsRise, Bool.and_eq_true, decide_eq_true_eq]
      exact ⟨⟨hp, hl.1.2⟩, cellsRise_filter _ l hl.2⟩
    · rw [List.filter_cons_of_neg (by simpa using hp)]
      exact cellsRise_filter_ge n l hl.2

theorem cellsRise_numberFrom_append {size : Nat} (rest : List (Nat × α)) :
    ∀ (vs : List α) (k : Nat), k + vs.length ≤ size → cellsRise (k + vs.length) size rest = true →
      cellsRise k size (numberFrom k vs ++ rest) = true
  | [], k, _, hr => by simpa [numberFrom] using hr
  | v :: vs, k, hk, hr => by
    simp only [List.length_cons] at hk hr
    simp only [numberFrom, List.cons_append, cellsRise, Bool.and_eq_true, decide_eq_true_eq]
    refine ⟨⟨Nat.le_refl k, by omega⟩, cellsRise_numberFrom_append rest vs (k + 1) (by omega) ?_⟩
    rw [show k + 1 + vs.length = k + (vs.length + 1) by omega]
    exact hr

/-- Writing a cell that exists keeps the canonical form. -/
theorem Memory.wf_write {size : Nat} {m : Memory α} (h : m.wf size = true) {i : Nat} (hi : i < size)
    (v : α) : (m.write i v).wf size = true :=
  cellsRise_insertCell hi m.cells (Nat.zero_le i) h

/-- Writing a list that fits keeps the canonical form. -/
theorem Memory.wf_writeFront {size : Nat} {m : Memory α} (h : m.wf size = true) {vs : List α}
    (hv : vs.length ≤ size) : (m.writeFront vs).wf size = true :=
  cellsRise_numberFrom_append _ vs 0 (by omega)
    (by simpa using cellsRise_filter_ge vs.length m.cells h)

/-- Contents that have become unspecified are canonical. -/
theorem Memory.wf_forget {size : Nat} (m : Memory α) (e : Nat) : (m.forget e).wf size = true := rfl

/-- Every memory of the reset state is canonical. -/
theorem resetOf_wf (p : Params) (e : Nat) :
    (State.resetOf p e).ibuf.wf p.ibufSize = true ∧ (State.resetOf p e).wbuf.wf p.capacity = true ∧
      (State.resetOf p e).obuf.wf p.obufSize = true := ⟨rfl, rfl, rfl⟩

/-! Which cells are listed -/

theorem mem_insertCell {i : Nat} {v : α} {c : Nat × α} :
    ∀ l : List (Nat × α), c ∈ insertCell i v l → c = (i, v) ∨ c ∈ l
  | [], h => by simpa [insertCell] using h
  | (j, w) :: l, h => by
    rw [insertCell] at h
    split at h
    · simpa using h
    · split at h
      · rcases List.mem_cons.1 h with h | h
        · exact .inl h
        · exact .inr (List.mem_cons_of_mem _ h)
      · rcases List.mem_cons.1 h with h | h
        · exact .inr (h ▸ List.mem_cons_self)
        · exact (mem_insertCell l h).imp_right (List.mem_cons_of_mem _)

theorem mem_numberFrom {c : Nat × α} : ∀ (vs : List α) (k : Nat), c ∈ numberFrom k vs → c.2 ∈ vs
  | [], _, h => by simp [numberFrom] at h
  | v :: vs, k, h => by
    rcases List.mem_cons.1 h with h | h
    · subst h; exact List.mem_cons_self
    · exact List.mem_cons_of_mem _ (mem_numberFrom vs (k + 1) h)

/-- A cell listed after a list is written holds an element of the list or was listed before. -/
theorem Memory.mem_writeFront {m : Memory α} {vs : List α} {c : Nat × α}
    (h : c ∈ (m.writeFront vs).cells) : c.2 ∈ vs ∨ c ∈ m.cells := by
  rcases List.mem_append.1 h with h | h
  · exact .inl (mem_numberFrom vs 0 h)
  · exact .inr (List.mem_filter.1 h).1

/-! Reading the engine's memories after an update -/

/-- WBUF after the cube is stored: the list, and every word beyond it as before. -/
theorem State.wbufAt_storeCube (s : State) (ws : List CubeWord) (q : Nat) :
    (s.storeCube ws).wbufAt q = if h : q < ws.length then ws[q] else s.wbufAt q := by
  simp only [State.wbufAt, State.storeCube_wbuf, State.storeCube_params, Memory.listed_writeFront,
    Memory.writeFront_era]
  split <;> simp

/-- WBUF reads alike in two states of one instance whose WBUF is the same. -/
theorem State.wbufAt_congr {s t : State} (hp : s.params = t.params) (hw : s.wbuf = t.wbuf) :
    s.wbufAt = t.wbufAt := by
  funext q; simp only [State.wbufAt, hp, hw]

theorem State.ibufAt_congr {s t : State} (h : s.ibuf = t.ibuf) : s.ibufAt = t.ibufAt := by
  funext q; simp only [State.ibufAt, h]

theorem State.obufAt_congr {s t : State} (h : s.obuf = t.obuf) : s.obufAt = t.obufAt := by
  funext q; simp only [State.obufAt, h]

theorem State.keyAt_congr {s t : State} (h : s.key = t.key) : s.keyAt = t.keyAt := by
  funext q; simp only [State.keyAt, h]

theorem State.freqAt_congr {s t : State} (h : s.freq = t.freq) : s.freqAt = t.freqAt := by
  funext q; simp only [State.freqAt, h]

theorem State.keyShift_congr {s t : State} (hp : s.params = t.params) (hk : s.key = t.key) :
    s.keyShift = t.keyShift := by
  funext q; simp only [State.keyShift, hp, State.keyAt_congr hk]

end Sys2Proof.Machine
end

