-- ==== Sys2Proof/Laws/Sort.lean ====
section
/-! SUPPORT. What the sort does (R18): it permutes its list and puts it in ascending order, and the order is
total and antisymmetric, so that the result is the only ascending list with those words. -/

namespace Sys2Proof.Machine

section Merge
variable {α : Type} (le : α → α → Bool)

theorem mergeOne_perm (x : α) (xs : List α) (f : List α → List α)
    (hf : ∀ ys, (f ys).Perm (xs ++ ys)) : ∀ ys, (mergeOne le x xs f ys).Perm (x :: xs ++ ys)
  | [] => by simp [mergeOne]
  | y :: ys => by
    rw [mergeOne]
    split
    · exact (hf _).cons x
    · refine ((mergeOne_perm x xs f hf ys).cons y).trans ?_
      exact List.perm_middle.symm

theorem merge_perm : ∀ xs ys : List α, (merge le xs ys).Perm (xs ++ ys)
  | [], ys => by simp [merge]
  | x :: xs, ys => mergeOne_perm le x xs _ (merge_perm xs) ys

theorem sortHalving_perm : ∀ (n : Nat) (l : List α), (sortHalving le n l).Perm l
  | 0, _ => .refl _
  | n + 1, l => by
    rw [sortHalving]
    refine (merge_perm le _ _).trans ?_
    refine ((sortHalving_perm n _).append (sortHalving_perm n _)).trans ?_
    rw [List.take_append_drop]

variable {le}

theorem mergeOne_pairwise (trans : ∀ a b c, le a b = true → le b c = true → le a c = true)
    (total : ∀ a b, le a b = true ∨ le b a = true) (x : α) (xs : List α) (f : List α → List α)
    (hp : ∀ ys, (f ys).Perm (xs ++ ys))
    (hf : ∀ ys, ys.Pairwise (le · · = true) → (f ys).Pairwise (le · · = true))
    (hx : (x :: xs).Pairwise (le · · = true)) :
    ∀ ys, ys.Pairwise (le · · = true) → (mergeOne le x xs f ys).Pairwise (le · · = true)
  | [], _ => by simpa [mergeOne] using hx
  | y :: ys, hy => by
    have hx' := List.pairwise_cons.1 hx
    have hy' := List.pairwise_cons.1 hy
    rw [mergeOne]
    split
    · rename_i hxy
      refine List.pairwise_cons.2 ⟨fun a ha => ?_, hf _ hy⟩
      rcases List.mem_append.1 ((hp _).mem_iff.1 ha) with ha | ha
      · exact hx'.1 a ha
      · rcases List.mem_cons.1 ha with rfl | ha
        · exact hxy
        · exact trans _ _ _ hxy (hy'.1 a ha)
    · rename_i hxy
      have hyx : le y x = true := (total x y).resolve_left hxy
      refine List.pairwise_cons.2 ⟨fun a ha => ?_,
        mergeOne_pairwise trans total x xs f hp hf hx ys hy'.2⟩
      rcases List.mem_append.1 ((mergeOne_perm le x xs f hp ys).mem_iff.1 ha) with ha | ha
      · rcases List.mem_cons.1 ha with rfl | ha
        · exact hyx
        · exact trans _ _ _ hyx (hx'.1 a ha)
      · exact hy'.1 a ha

theorem merge_pairwise (trans : ∀ a b c, le a b = true → le b c = true → le a c = true)
    (total : ∀ a b, le a b = true ∨ le b a = true) :
    ∀ xs ys : List α, xs.Pairwise (le · · = true) → ys.Pairwise (le · · = true) →
      (merge le xs ys).Pairwise (le · · = true)
  | [], _, _, hy => hy
  | x :: xs, ys, hx, hy =>
    mergeOne_pairwise trans total x xs _ (merge_perm le xs)
      (fun ys hy => merge_pairwise trans total xs ys (List.pairwise_cons.1 hx).2 hy) hx ys hy

theorem sortHalving_pairwise (trans : ∀ a b c, le a b = true → le b c = true → le a c = true)
    (total : ∀ a b, le a b = true ∨ le b a = true) :
    ∀ (n : Nat) (l : List α), l.length ≤ 2 ^ n → (sortHalving le n l).Pairwise (le · · = true)
  | 0, l, h => by
    match l, h with
    | [], _ => exact .nil
    | [a], _ => exact List.pairwise_singleton _ a
    | _ :: _ :: _, h => simp at h
  | n + 1, l, h => by
    rw [sortHalving]
    have h2 : 2 ^ (n + 1) = 2 ^ n + 2 ^ n := by ring
    refine merge_pairwise trans total _ _ ?_ ?_
    · exact sortHalving_pairwise trans total n _ (by simp)
    · exact sortHalving_pairwise trans total n _ (by simp; omega)

end Merge

/-! The order of words -/

theorem wordLe_iff (a b : CubeWord) : wordLe a b = true ↔ a.value ≤ b.value := by
  have ha := a.payload.isLt
  have hb := b.payload.isLt
  simp only [wordLe, CubeWord.value, Bool.or_eq_true, Bool.and_eq_true, decide_eq_true_eq]
  omega

theorem cubeWord_value_injective {a b : CubeWord} (h : a.value = b.value) : a = b := by
  obtain ⟨ta, pa⟩ := a
  obtain ⟨tb, pb⟩ := b
  have ha := pa.isLt
  have hb := pb.isLt
  simp only [CubeWord.value] at h
  have h1 : ta = tb := BitVec.eq_of_toNat_eq (by omega)
  have h2 : pa = pb := BitVec.eq_of_toNat_eq (by omega)
  rw [h1, h2]

/-- The value of a word is the number its slot shows (R18, R75). -/
theorem cubeWord_toWord_toNat (a : CubeWord) : a.toWord.toNat = a.value := by
  have h := Nat.two_pow_add_eq_or_of_lt (i := 8) a.payload.isLt a.tag.toNat
  simp only [CubeWord.toWord, CubeWord.value, BitVec.toNat_append, Nat.shiftLeft_eq]
  rw [Nat.mul_comm a.tag.toNat (2 ^ 8), ← h, Nat.mul_comm]

theorem wordLe_trans (a b c : CubeWord) (h₁ : wordLe a b = true) (h₂ : wordLe b c = true) :
    wordLe a c = true := by
  rw [wordLe_iff] at *; omega

theorem wordLe_total (a b : CubeWord) : wordLe a b = true ∨ wordLe b a = true := by
  rw [wordLe_iff, wordLe_iff]; omega

theorem wordLe_antisymm (a b : CubeWord) (h₁ : wordLe a b = true) (h₂ : wordLe b a = true) : a = b := by
  rw [wordLe_iff] at *; exact cubeWord_value_injective (by omega)

/-- sort_asc permutes its words (R18). -/
theorem sortAsc_perm (p : Params) (ws : List CubeWord) : (sortAsc p ws).Perm ws :=
  sortHalving_perm _ _ _

@[simp] theorem sortAsc_length (p : Params) (ws : List CubeWord) :
    (sortAsc p ws).length = ws.length := (sortAsc_perm p ws).length_eq

/-- sort_asc of at most C words is ascending (R18). -/
theorem sortAsc_pairwise (p : Params) (ws : List CubeWord) (h : ws.length ≤ p.capacity) :
    (sortAsc p ws).Pairwise (fun a b => wordLe a b = true) :=
  sortHalving_pairwise wordLe_trans wordLe_total _ ws h

/-- The result of the sort is the only ascending list of the same words (R18). -/
theorem sortAsc_unique (p : Params) {ws vs : List CubeWord} (h : ws.length ≤ p.capacity)
    (hp : vs.Perm ws) (hs : vs.Pairwise (fun a b => wordLe a b = true)) : sortAsc p ws = vs := by
  refine List.Perm.eq_of_pairwise (fun a b _ _ h₁ h₂ => wordLe_antisymm a b h₁ h₂)
    (sortAsc_pairwise p ws h) hs ((sortAsc_perm p ws).trans hp.symm)

@[simp] theorem cubeWords_length (p : Params) (f : Nat → CubeWord) :
    (cubeWords p f).length = p.capacity := by simp [cubeWords]

@[simp] theorem cubeWords_getElem (p : Params) (f : Nat → CubeWord) (q : Nat) (h : q < p.capacity) :
    (cubeWords p f)[q]'(by simpa using h) = f q := by simp [cubeWords]

/-- Sort-as-scatter (R166, R195, R198): if `r ↦ src r` runs through the positions 0..C−1 and the word
of position `src r` has tag r, the sorted cube holds at rank r the word of position `src r`. -/
theorem sortAsc_scatter (p : Params) (f : Nat → CubeWord) (src : Nat → Nat)
    (hsrc : ((List.range p.capacity).map src).Perm (List.range p.capacity))
    (htag : ∀ r < p.capacity, (f (src r)).tag.toNat = r) :
    sortAsc p (cubeWords p f) = cubeWords p fun r => f (src r) := by
  refine sortAsc_unique p (by simp) ?_ ?_
  · have := hsrc.map f
    rw [List.map_map] at this
    exact this
  · rw [cubeWords, List.pairwise_map]
    refine List.Pairwise.imp_of_mem ?_ List.pairwise_lt_range
    intro a b ha hb hab
    have ha' := htag a (List.mem_range.1 ha)
    have hb' := htag b (List.mem_range.1 hb)
    simp only [wordLe, Bool.or_eq_true, decide_eq_true_eq]
    exact .inl (by omega)

/-- A map of {0..n−1} into itself that has a right inverse there permutes it. -/
theorem range_map_perm {n : Nat} {f g : Nat → Nat} (hg : ∀ i < n, g i < n)
    (hfg : ∀ i < n, f (g i) = i) : ((List.range n).map f).Perm (List.range n) := by
  have hinj : ∀ i < n, ∀ j < n, g i = g j → i = j := fun i hi j hj h => by
    rw [← hfg i hi, ← hfg j hj, h]
  have hnd : ((List.range n).map g).Nodup :=
    (List.nodup_range).map_on fun i hi j hj h =>
      hinj i (List.mem_range.1 hi) j (List.mem_range.1 hj) h
  have hsub : ((List.range n).map g) ⊆ List.range n := by
    intro a ha
    obtain ⟨i, hi, rfl⟩ := List.mem_map.1 ha
    exact List.mem_range.2 (hg i (List.mem_range.1 hi))
  have hgp : ((List.range n).map g).Perm (List.range n) :=
    (hnd.subperm hsub).perm_of_length_le (by simp)
  have := (hgp.map f).symm
  refine this.trans (List.Perm.of_eq ?_)
  rw [List.map_map]
  conv_rhs => rw [← List.map_id (List.range n)]
  exact List.map_congr_left fun i hi => by simpa using hfg i (List.mem_range.1 hi)

/-- Sort-as-scatter by destinations: if the word of position q has tag `dst q`, and `dst` maps the
positions one to one onto themselves with inverse `src`, then rank `dst q` holds the word of q. -/
theorem sortAsc_scatter_dst (p : Params) (f : Nat → CubeWord) (dst src : Nat → Nat)
    (hdst : ∀ q < p.capacity, dst q < p.capacity) (hsrc : ∀ r < p.capacity, src r < p.capacity)
    (hds : ∀ r < p.capacity, dst (src r) = r) (hsd : ∀ q < p.capacity, src (dst q) = q)
    (htag : ∀ q < p.capacity, (f q).tag.toNat = dst q) :
    sortAsc p (cubeWords p f) = cubeWords p fun r => f (src r) :=
  sortAsc_scatter p f src (range_map_perm hdst hsd)
    fun r hr => by rw [htag _ (hsrc r hr), hds r hr]

end Sys2Proof.Machine
end

