-- ==== Sys2Proof/Laws/Geometry.lean ====
section
/-! SUPPORT. The cube's sizes, coordinates and word layout (R8, R9, R16): the conversions are inverse to each
other, and the bits of a word are what the layout says. -/

namespace Sys2Proof

/-- What `Params.wf` says. -/
theorem Params.wf_iff (p : Params) : p.wf = true ↔
    (4 ≤ p.w ∧ p.w ≤ 8) ∧ (1 ≤ p.ibufSize ∧ p.ibufSize ≤ 2 ^ 24) ∧
      (1 ≤ p.obufSize ∧ p.obufSize ≤ 2 ^ 24) ∧ p.base % 2 ^ 28 = 0 := by
  simp only [Params.wf, Params.wOk, Params.ibufOk, Params.obufOk, Params.baseOk, Bool.and_eq_true,
    decide_eq_true_eq, and_assoc]

theorem Params.side_pos (p : Params) : 0 < p.side := Nat.two_pow_pos _

theorem Params.capacity_pos (p : Params) : 0 < p.capacity := Nat.two_pow_pos _

/-- C = S³ (R8). -/
theorem Params.capacity_eq (p : Params) : p.capacity = p.side * p.side ^ 2 := by
  simp only [Params.capacity, Params.side, ← pow_mul, ← pow_add]
  congr 1; omega

theorem Params.side_le (p : Params) (h : p.wf = true) : p.side ≤ 256 := by
  rw [Params.wf_iff] at h
  exact (Nat.pow_le_pow_right (by decide) h.1.2).trans (by decide)

theorem Params.capacity_le (p : Params) (h : p.wf = true) : p.capacity ≤ 2 ^ 24 := by
  rw [Params.wf_iff] at h
  exact Nat.pow_le_pow_right (by decide) (by omega)

theorem Params.le_capacity (p : Params) (h : p.wf = true) : 4096 ≤ p.capacity := by
  rw [Params.wf_iff] at h
  exact (show 4096 ≤ 2 ^ (3 * 4) by decide).trans (Nat.pow_le_pow_right (by decide) (by omega))

/-- FRONT and TAIL make up the cube (R9). -/
theorem Params.front_add_tail (p : Params) (h : p.wf = true) : p.front + 1028 = p.capacity := by
  have := p.le_capacity h
  simp only [Params.front, Params.tail]; omega

namespace Machine

/-- A coordinate of the cube [0,S)³ (R16). -/
def Coord.inCube (p : Params) (c : Coord) : Prop := c.x < p.side ∧ c.y < p.side ∧ c.z < p.side

theorem lin_lt (p : Params) {c : Coord} (h : Coord.inCube p c) : lin p c < p.capacity := by
  obtain ⟨hx, hy, hz⟩ := h
  rw [p.capacity_eq]
  have h1 : c.y * p.side + c.x < p.side ^ 2 := by nlinarith
  have h2 : (c.z + 1) * p.side ^ 2 ≤ p.side * p.side ^ 2 := Nat.mul_le_mul_right _ hz
  simp only [lin]; nlinarith

theorem decomp_inCube (p : Params) {q : Nat} (h : q < p.capacity) : Coord.inCube p (decomp p q) := by
  refine ⟨Nat.mod_lt _ p.side_pos, Nat.mod_lt _ p.side_pos, ?_⟩
  rw [p.capacity_eq] at h
  exact Nat.div_lt_of_lt_mul (by rwa [Nat.mul_comm])

/-- lin undoes decomp (R16). -/
theorem lin_decomp (p : Params) (q : Nat) : lin p (decomp p q) = q := by
  simp only [lin, decomp]
  have h1 := Nat.div_add_mod q p.side
  have h2 := Nat.div_add_mod (q / p.side) p.side
  rw [pow_two, ← Nat.div_div_eq_div_mul]
  nlinarith

/-- decomp undoes lin on the cube (R16). -/
theorem decomp_lin (p : Params) {c : Coord} (h : Coord.inCube p c) : decomp p (lin p c) = c := by
  obtain ⟨x, y, z⟩ := c
  obtain ⟨hx, hy, hz⟩ := h
  have hs := p.side_pos
  simp only at hx hy hz
  have e : lin p ⟨x, y, z⟩ = (z * p.side + y) * p.side + x := by simp only [lin]; ring
  have d1 : ((z * p.side + y) * p.side + x) / p.side = z * p.side + y := by
    rw [Nat.add_comm, Nat.add_mul_div_right _ _ hs, Nat.div_eq_of_lt hx, Nat.zero_add]
  have d2 : (z * p.side + y) / p.side = z := by
    rw [Nat.add_comm, Nat.add_mul_div_right _ _ hs, Nat.div_eq_of_lt hy, Nat.zero_add]
  simp only [decomp, e, pow_two, ← Nat.div_div_eq_div_mul, d1, d2, Coord.mk.injEq]
  refine ⟨?_, ?_, trivial⟩
  · rw [Nat.add_comm, Nat.add_mul_mod_self_right, Nat.mod_eq_of_lt hx]
  · rw [Nat.add_comm, Nat.add_mul_mod_self_right, Nat.mod_eq_of_lt hy]

/-- The three fields of a word, as bits one above the other, are the number lin (R16). -/
theorem shift_or_eq_lin (p : Params) {c : Coord} (h : Coord.inCube p c) :
    ((c.z <<< (2 * p.w)) ||| (c.y <<< p.w) ||| c.x) = lin p c := by
  obtain ⟨hx, hy, hz⟩ := h
  have e : c.z <<< (2 * p.w) = (c.z <<< p.w) <<< p.w := by rw [← Nat.shiftLeft_add]; congr 1; ring
  rw [e, ← Nat.shiftLeft_or_distrib]
  rw [← Nat.shiftLeft_add_eq_or_of_lt (b := c.y) hy, ← Nat.shiftLeft_add_eq_or_of_lt (b := c.x) hx]
  simp only [Nat.shiftLeft_eq, lin, Params.side]; ring

/-- The tag of a packed word is lin of its coordinate (R16). -/
theorem pack_tag (p : Params) (hp : p.wf = true) {c : Coord} (h : Coord.inCube p c) (b : Byte) :
    (pack p c b).tag.toNat = lin p c := by
  have h1 := lin_lt p h
  have h2 := p.capacity_le hp
  simp only [pack, BitVec.toNat_ofNat, shift_or_eq_lin p h]
  exact Nat.mod_eq_of_lt (by omega)

@[simp] theorem pack_payload (p : Params) (c : Coord) (b : Byte) : (pack p c b).payload = b := rfl

@[simp] theorem tagged_payload (t : Nat) (b : Byte) : (tagged t b).payload = b := rfl

theorem tagged_tag (p : Params) (hp : p.wf = true) {t : Nat} (h : t < p.capacity) (b : Byte) :
    (tagged t b).tag.toNat = t := by
  have := p.capacity_le hp
  simp only [tagged, BitVec.toNat_ofNat]
  exact Nat.mod_eq_of_lt (by omega)

/-- A word is its tag above its payload. -/
theorem eq_tagged (w : CubeWord) {t : Nat} (h : w.tag.toNat = t) : w = tagged t w.payload := by
  obtain ⟨tag, b⟩ := w
  subst h
  simp [tagged]

/-- pack is the tag lin above the payload; so pack(decomp(q), b) = (q << 8) | b (R16). -/
theorem pack_eq_tagged (p : Params) {c : Coord} (h : Coord.inCube p c) (b : Byte) :
    pack p c b = tagged (lin p c) b := by
  simp only [pack, tagged, shift_or_eq_lin p h]

/-- The fields of a word are decomp of its tag (R16). -/
theorem fields_eq_decomp (p : Params) (w : CubeWord) (h : w.tag.toNat < p.capacity) :
    fields p w = decomp p w.tag.toNat := by
  have hz : w.tag.toNat / p.side ^ 2 < p.side := (decomp_inCube p h).2.2
  have e : (2 : Nat) ^ (2 * p.w) = p.side ^ 2 := by rw [Params.side, ← pow_mul, Nat.mul_comm]
  simp only [fields, decomp, bitField, Nat.shiftRight_eq_div_pow, e, Nat.pow_zero, Nat.div_one,
    Coord.mk.injEq]
  exact ⟨rfl, rfl, Nat.mod_eq_of_lt hz⟩

/-- The fields of a packed word are its coordinate (R16). -/
theorem fields_pack (p : Params) (hp : p.wf = true) {c : Coord} (h : Coord.inCube p c) (b : Byte) :
    fields p (pack p c b) = c := by
  have ht := pack_tag p hp h b
  rw [fields_eq_decomp p _ (by rw [ht]; exact lin_lt p h), ht, decomp_lin p h]

/-- Fields lie in the cube, whatever the word. -/
theorem fields_inCube (p : Params) (w : CubeWord) : Coord.inCube p (fields p w) :=
  ⟨Nat.mod_lt _ p.side_pos, Nat.mod_lt _ p.side_pos, Nat.mod_lt _ p.side_pos⟩

/-- A stored host word has WW bits (R75). -/
theorem wordOfSlot_tag_lt (p : Params) (v : Word) : (wordOfSlot p v).tag.toNat < p.capacity := by
  simp only [wordOfSlot, BitVec.toNat_ofNat]
  exact (Nat.mod_le _ _).trans_lt (Nat.mod_lt _ p.capacity_pos)

theorem subMod_lt {m : Nat} (h : 0 < m) (a b : Nat) : subMod m a b < m := Nat.mod_lt _ h

/-- (a + b) − b mod m (R13). -/
theorem subMod_add_mod {m a : Nat} (h : a < m) (b : Nat) : subMod m ((a + b) % m) b = a := by
  have hm : 0 < m := by omega
  have hb := Nat.mod_lt b hm
  have e : (a + b) % m = (a + b % m) % m := by rw [Nat.add_mod, Nat.mod_eq_of_lt h]
  rw [subMod, e]
  rcases Nat.lt_or_ge (a + b % m) m with hl | hl
  · rw [Nat.mod_eq_of_lt hl, show a + b % m + (m - b % m) = a + m by omega, Nat.add_mod_right,
      Nat.mod_eq_of_lt h]
  · rw [Nat.mod_eq_sub_mod hl, Nat.mod_eq_of_lt (a := a + b % m - m) (by omega),
      show a + b % m - m + (m - b % m) = a by omega, Nat.mod_eq_of_lt h]

/-- (a − b) + b mod m (R13). -/
theorem add_subMod_mod {m a : Nat} (h : a < m) (b : Nat) : (subMod m a b + b) % m = a := by
  have hm : 0 < m := by omega
  have hb := Nat.mod_lt b hm
  rw [subMod, Nat.mod_add_mod, Nat.add_mod, ← Nat.add_mod]
  have e : (a + (m - b % m) + b) % m = (a + (m - b % m) + b % m) % m := by
    rw [Nat.add_mod, Nat.add_mod (a + (m - b % m)) (b % m), Nat.mod_mod]
  rw [e, show a + (m - b % m) + b % m = a + m by omega, Nat.add_mod_right, Nat.mod_eq_of_lt h]

end Machine

end Sys2Proof
end

