-- ==== Sys2Proof/Laws/Commands.lean ====
section
/-! SUPPORT. The commands, once each: when a stage succeeds and when it fails, what it leaves unchanged, that
it does not look at STATUS or the phase, and how a command ends. -/

namespace Sys2Proof.Machine

/-! Ends -/

@[simp] theorem StageEnd.thenDo_ok (s : State) (op : Byte) (k : State → State) :
    (StageEnd.ok s).thenDo op k = k s := rfl

@[simp] theorem StageEnd.thenDo_error (e : CmdError) (s : State) (op : Byte) (k : State → State) :
    (StageEnd.error e s).thenDo op k = s.errorEnd e op := rfl

/-- The state a stage leaves, however it ends. -/
def StageEnd.left : StageEnd → State
  | .ok s => s
  | .error _ s => s

/-- The error of a stage, if it raised one. -/
def StageEnd.raised : StageEnd → Option CmdError
  | .ok _ => none
  | .error e _ => some e

@[simp] theorem StageEnd.left_ok (s : State) : (StageEnd.ok s).left = s := rfl
@[simp] theorem StageEnd.left_error (e : CmdError) (s : State) : (StageEnd.error e s).left = s := rfl
@[simp] theorem StageEnd.raised_ok (s : State) : (StageEnd.ok s).raised = none := rfl
@[simp] theorem StageEnd.raised_error (e : CmdError) (s : State) :
    (StageEnd.error e s).raised = some e := rfl

/-- A stage is the state it leaves and its error. -/
theorem StageEnd.eq_of (r : StageEnd) :
    (r.raised = none ∧ r = .ok r.left) ∨ ∃ e, r.raised = some e ∧ r = .error e r.left := by
  cases r
  · exact .inl ⟨rfl, rfl⟩
  · exact .inr ⟨_, rfl, rfl⟩

/-- How a directly issued command ends (R53, R245): success, or the error of its body. -/
theorem StageEnd.thenDo_cases (r : StageEnd) (op : Byte) (k : State → State) :
    (∃ s, r = .ok s ∧ r.thenDo op k = k s) ∨
      ∃ e s, r = .error e s ∧ r.thenDo op k = s.errorEnd e op := by
  cases r
  · exact .inl ⟨_, rfl, rfl⟩
  · exact .inr ⟨_, _, rfl, rfl⟩

/-- A stage that ran to a success end raised no error. -/
theorem StageEnd.of_thenDo_noErr {r : StageEnd} {op : Byte} {t : State}
    (h : r.thenDo op State.successEnd = t) (he : t.status.err = false) :
    ∃ u, r = .ok u ∧ t = u.successEnd := by
  cases r with
  | ok u => exact ⟨u, rfl, h.symm⟩
  | error e u => subst h; simp [StageEnd.thenDo, State.errorEnd] at he

/-- A stage that ran to an error end from a state without one raised that error. -/
theorem StageEnd.of_thenDo_err {r : StageEnd} {op : Byte} {t : State}
    (h : r.thenDo op State.successEnd = t) (hr : r.left.status.err = false)
    (he : t.status.err = true) : ∃ e u, r = .error e u ∧ t = u.errorEnd e op := by
  cases r with
  | ok u => subst h; simp only [StageEnd.left_ok] at hr; simp [State.successEnd, hr] at he
  | error e u => exact ⟨e, u, rfl, h.symm⟩

/-! What each stage does, by its checks -/

theorem hufEncodeBody_tooLong {s : State} (h : s.params.ibufSize < s.ilen.toNat) :
    hufEncodeBody s = .error .inputTooLarge s := if_pos h

/-- HUF_ENCODE's state after its counts, its codes and its length are written (R130). -/
def State.hufCounted (s : State) (T : Option HuffNode) : State :=
  { s with
    freq := perSymbol fun b => BitVec.ofNat 32 (s.inputBytes.count b)
    codelen := codeLengths T
    bitlen := BitVec.ofNat 32 (encodeBits T s.inputBytes).length }

theorem hufEncodeBody_overflow {s : State} (h : s.ilen.toNat ≤ s.params.ibufSize)
    (hp : s.params.front < bytesFor s.inputBits.length) :
    hufEncodeBody s = .error .inputTooLarge (s.hufCounted s.inputTree) := by
  rw [hufEncodeBody, if_neg (by omega)]
  exact if_pos hp

theorem hufEncodeBody_ok {s : State} (h : s.ilen.toNat ≤ s.params.ibufSize)
    (hp : bytesFor s.inputBits.length ≤ s.params.front) :
    hufEncodeBody s = .ok ((s.hufCounted s.inputTree).storeCube (cubeWords s.params fun q =>
      tagged 0 (if q < bytesFor s.inputBits.length
        then packByte s.inputBits q else 0#8))) := by
  rw [hufEncodeBody, if_neg (by omega)]
  exact if_neg (by unfold State.inputBits State.inputTree at hp; omega)

theorem cubeEncodeBody_tooLong {s : State} (h : s.params.front < bytesFor s.bitlen.toNat) :
    cubeEncodeBody s = .error .inputTooLarge s := if_pos h

theorem cubeEncodeBody_ok {s : State} (h : bytesFor s.bitlen.toNat ≤ s.params.front) :
    cubeEncodeBody s = .ok { s.storeCube (sortAsc s.params
        (cubeWords s.params (s.cubeEncoded (bytesFor s.bitlen.toNat)))) with
      fillDraws := s.fillDraws + (s.params.front - bytesFor s.bitlen.toNat) } :=
  if_neg (by omega)

theorem cubeDecodeBody_mismatch {s : State} (h : s.wlen.toNat ≠ s.params.capacity) :
    cubeDecodeBody s = .error .cubeSizeMismatch s := if_pos h

theorem cubeDecodeBody_ok {s : State} (h : s.wlen.toNat = s.params.capacity) :
    cubeDecodeBody s =
      .ok (s.storeCube (sortAsc s.params (cubeWords s.params s.cubeUnshifted))).readTail :=
  if_neg (by simpa using h)

theorem relabelEncodeBody_badConfig {s : State} (h : 1000 ≤ s.kidx.toNat) :
    relabelEncodeBody s = .error .badConfig s := if_pos h

theorem relabelEncodeBody_ok {s : State} (h : s.kidx.toNat < 1000) :
    relabelEncodeBody s = .ok ((s.setPrime s.relabelPrime).storeCube (sortAsc s.params
      (cubeWords s.params (s.relabelEncoded s.relabelPrime)))) :=
  if_neg (by simp only [keyLen]; omega)

theorem relabelDecodeBody_mismatch {s : State} (h : s.wlen.toNat ≠ s.params.capacity) :
    relabelDecodeBody s = .error .cubeSizeMismatch s := if_pos h

theorem relabelDecodeBody_badConfig {s : State} (h : s.wlen.toNat = s.params.capacity)
    (hk : 1000 ≤ s.kidx.toNat) : relabelDecodeBody s = .error .badConfig s := by
  rw [relabelDecodeBody, if_neg (by simpa using h)]
  exact if_pos hk

theorem relabelDecodeBody_ok {s : State} (h : s.wlen.toNat = s.params.capacity)
    (hk : s.kidx.toNat < 1000) :
    relabelDecodeBody s = .ok ((s.setPrime s.relabelPrime).storeCube (sortAsc s.params
      (cubeWords s.params (s.relabelDecoded s.relabelPrime)))) := by
  rw [relabelDecodeBody, if_neg (by simpa using h)]
  exact if_neg (by simp only [keyLen]; omega)

theorem hufDecodeBody_underrun {s : State} (h : 8 * s.params.front < s.bitlen.toNat) :
    hufDecodeBody s = .error .decodeUnderrun s := if_pos h

/-- The bit walk HUF_DECODE makes (R140). -/
def State.hufWalk (s : State) : WalkEnd :=
  decodeBits s.freqTree s.params.obufSize (s.streamBits s.bitlen.toNat)

/-- HUF_DECODE's state after a walk (R140). -/
def State.hufDecoded (s : State) (r : WalkEnd) : State :=
  { s with
    codelen := codeLengths s.freqTree
    obuf := s.obuf.writeFront r.out
    olen := BitVec.ofNat 32 r.out.length }

theorem hufDecodeBody_walks {s : State} (h : s.bitlen.toNat ≤ 8 * s.params.front) :
    hufDecodeBody s =
      match s.hufWalk.err with
      | none => .ok (s.hufDecoded s.hufWalk)
      | some e => .error e (s.hufDecoded s.hufWalk) :=
  if_neg (by omega)

/-! What each stage leaves unchanged (R56) -/

theorem hufEncodeBody_frame (s : State) : (hufEncodeBody s).left =
    { s with
      freq := (hufEncodeBody s).left.freq
      codelen := (hufEncodeBody s).left.codelen
      bitlen := (hufEncodeBody s).left.bitlen
      wbuf := (hufEncodeBody s).left.wbuf } := by
  rw [hufEncodeBody]
  split
  · rfl
  · dsimp only
    split <;> rfl

theorem cubeEncodeBody_frame (s : State) : (cubeEncodeBody s).left =
    { s with wbuf := (cubeEncodeBody s).left.wbuf, fillDraws := (cubeEncodeBody s).left.fillDraws } := by
  rw [cubeEncodeBody]
  dsimp only
  split <;> rfl

theorem relabelEncodeBody_frame (s : State) : (relabelEncodeBody s).left =
    { s with wbuf := (relabelEncodeBody s).left.wbuf, prime := (relabelEncodeBody s).left.prime } := by
  rw [relabelEncodeBody]
  split <;> rfl

theorem hufDecodeBody_frame (s : State) : (hufDecodeBody s).left =
    { s with
      codelen := (hufDecodeBody s).left.codelen
      obuf := (hufDecodeBody s).left.obuf
      olen := (hufDecodeBody s).left.olen } := by
  rw [hufDecodeBody]
  split
  · rfl
  · dsimp only
    split <;> rfl

theorem cubeDecodeBody_frame (s : State) : (cubeDecodeBody s).left =
    { s with
      wbuf := (cubeDecodeBody s).left.wbuf
      freq := (cubeDecodeBody s).left.freq
      bitlen := (cubeDecodeBody s).left.bitlen } := by
  rw [cubeDecodeBody]
  split <;> rfl

theorem relabelDecodeBody_frame (s : State) : (relabelDecodeBody s).left =
    { s with wbuf := (relabelDecodeBody s).left.wbuf, prime := (relabelDecodeBody s).left.prime } := by
  rw [relabelDecodeBody]
  split
  · rfl
  · split <;> rfl

theorem hufEncodeBody_status (s : State) : (hufEncodeBody s).left.status = s.status := by
  rw [hufEncodeBody_frame]

theorem hufEncodeBody_params (s : State) : (hufEncodeBody s).left.params = s.params := by
  rw [hufEncodeBody_frame]

theorem hufEncodeBody_key (s : State) : (hufEncodeBody s).left.key = s.key := by
  rw [hufEncodeBody_frame]

theorem hufEncodeBody_kidx (s : State) : (hufEncodeBody s).left.kidx = s.kidx := by
  rw [hufEncodeBody_frame]

theorem hufEncodeBody_wlen (s : State) : (hufEncodeBody s).left.wlen = s.wlen := by
  rw [hufEncodeBody_frame]

theorem cubeEncodeBody_status (s : State) : (cubeEncodeBody s).left.status = s.status := by
  rw [cubeEncodeBody_frame]

theorem cubeEncodeBody_params (s : State) : (cubeEncodeBody s).left.params = s.params := by
  rw [cubeEncodeBody_frame]

theorem cubeEncodeBody_key (s : State) : (cubeEncodeBody s).left.key = s.key := by
  rw [cubeEncodeBody_frame]

theorem cubeEncodeBody_kidx (s : State) : (cubeEncodeBody s).left.kidx = s.kidx := by
  rw [cubeEncodeBody_frame]

theorem cubeEncodeBody_wlen (s : State) : (cubeEncodeBody s).left.wlen = s.wlen := by
  rw [cubeEncodeBody_frame]

theorem relabelEncodeBody_status (s : State) : (relabelEncodeBody s).left.status = s.status := by
  rw [relabelEncodeBody_frame]

theorem relabelEncodeBody_params (s : State) : (relabelEncodeBody s).left.params = s.params := by
  rw [relabelEncodeBody_frame]

theorem relabelEncodeBody_key (s : State) : (relabelEncodeBody s).left.key = s.key := by
  rw [relabelEncodeBody_frame]

theorem relabelEncodeBody_kidx (s : State) : (relabelEncodeBody s).left.kidx = s.kidx := by
  rw [relabelEncodeBody_frame]

theorem relabelEncodeBody_wlen (s : State) : (relabelEncodeBody s).left.wlen = s.wlen := by
  rw [relabelEncodeBody_frame]

theorem hufDecodeBody_status (s : State) : (hufDecodeBody s).left.status = s.status := by
  rw [hufDecodeBody_frame]

theorem hufDecodeBody_params (s : State) : (hufDecodeBody s).left.params = s.params := by
  rw [hufDecodeBody_frame]

theorem hufDecodeBody_key (s : State) : (hufDecodeBody s).left.key = s.key := by
  rw [hufDecodeBody_frame]

theorem hufDecodeBody_kidx (s : State) : (hufDecodeBody s).left.kidx = s.kidx := by
  rw [hufDecodeBody_frame]

theorem hufDecodeBody_wlen (s : State) : (hufDecodeBody s).left.wlen = s.wlen := by
  rw [hufDecodeBody_frame]

theorem cubeDecodeBody_status (s : State) : (cubeDecodeBody s).left.status = s.status := by
  rw [cubeDecodeBody_frame]

theorem cubeDecodeBody_params (s : State) : (cubeDecodeBody s).left.params = s.params := by
  rw [cubeDecodeBody_frame]

theorem cubeDecodeBody_key (s : State) : (cubeDecodeBody s).left.key = s.key := by
  rw [cubeDecodeBody_frame]

theorem cubeDecodeBody_kidx (s : State) : (cubeDecodeBody s).left.kidx = s.kidx := by
  rw [cubeDecodeBody_frame]

theorem cubeDecodeBody_wlen (s : State) : (cubeDecodeBody s).left.wlen = s.wlen := by
  rw [cubeDecodeBody_frame]

theorem relabelDecodeBody_status (s : State) : (relabelDecodeBody s).left.status = s.status := by
  rw [relabelDecodeBody_frame]

theorem relabelDecodeBody_params (s : State) : (relabelDecodeBody s).left.params = s.params := by
  rw [relabelDecodeBody_frame]

theorem relabelDecodeBody_key (s : State) : (relabelDecodeBody s).left.key = s.key := by
  rw [relabelDecodeBody_frame]

theorem relabelDecodeBody_kidx (s : State) : (relabelDecodeBody s).left.kidx = s.kidx := by
  rw [relabelDecodeBody_frame]

theorem relabelDecodeBody_wlen (s : State) : (relabelDecodeBody s).left.wlen = s.wlen := by
  rw [relabelDecodeBody_frame]

/-! No stage looks at the phase or STATUS -/

/-- Another phase and another STATUS. -/
def State.withControl (s : State) (ph : Phase) (st : Status) : State := { s with phase := ph, status := st }

@[simp] theorem State.withControl_self (s : State) : s.withControl s.phase s.status = s := rfl

@[simp] theorem State.withControl_withControl (s : State) (ph ph' : Phase) (st st' : Status) :
    (s.withControl ph st).withControl ph' st' = s.withControl ph' st' := rfl

theorem State.successEnd_eq (s : State) :
    s.successEnd = s.withControl .idle { s.status with done := true } := rfl

theorem State.errorEnd_eq (s : State) (e : CmdError) (op : Byte) : s.errorEnd e op =
    s.withControl .idle { s.status with err := true, errcode := e.code, errop := op } := rfl

/-- The same end with another phase and STATUS in the state it leaves. -/
def StageEnd.withControl (r : StageEnd) (ph : Phase) (st : Status) : StageEnd :=
  match r with
  | .ok s => .ok (s.withControl ph st)
  | .error e s => .error e (s.withControl ph st)

theorem hufEncodeBody_withControl (s : State) (ph : Phase) (st : Status) :
    hufEncodeBody (s.withControl ph st) = (hufEncodeBody s).withControl ph st := by
  by_cases h : s.params.ibufSize < s.ilen.toNat
  · rw [hufEncodeBody_tooLong h, hufEncodeBody_tooLong (s := s.withControl ph st) h]; rfl
  · by_cases h' : s.params.front < bytesFor s.inputBits.length
    · rw [hufEncodeBody_overflow (Nat.le_of_not_lt h) h',
        hufEncodeBody_overflow (s := s.withControl ph st) (Nat.le_of_not_lt h) h']; rfl
    · rw [hufEncodeBody_ok (Nat.le_of_not_lt h) (Nat.le_of_not_lt h'),
        hufEncodeBody_ok (s := s.withControl ph st) (Nat.le_of_not_lt h) (Nat.le_of_not_lt h')]; rfl

theorem cubeEncodeBody_withControl (s : State) (ph : Phase) (st : Status) :
    cubeEncodeBody (s.withControl ph st) = (cubeEncodeBody s).withControl ph st := by
  by_cases h : s.params.front < bytesFor s.bitlen.toNat
  · rw [cubeEncodeBody_tooLong h, cubeEncodeBody_tooLong (s := s.withControl ph st) h]; rfl
  · rw [cubeEncodeBody_ok (Nat.le_of_not_lt h),
      cubeEncodeBody_ok (s := s.withControl ph st) (Nat.le_of_not_lt h)]; rfl

theorem relabelEncodeBody_withControl (s : State) (ph : Phase) (st : Status) :
    relabelEncodeBody (s.withControl ph st) = (relabelEncodeBody s).withControl ph st := by
  by_cases h : 1000 ≤ s.kidx.toNat
  · rw [relabelEncodeBody_badConfig h, relabelEncodeBody_badConfig (s := s.withControl ph st) h]; rfl
  · rw [relabelEncodeBody_ok (Nat.lt_of_not_le h),
      relabelEncodeBody_ok (s := s.withControl ph st) (Nat.lt_of_not_le h)]; rfl

theorem hufDecodeBody_withControl (s : State) (ph : Phase) (st : Status) :
    hufDecodeBody (s.withControl ph st) = (hufDecodeBody s).withControl ph st := by
  by_cases h : 8 * s.params.front < s.bitlen.toNat
  · rw [hufDecodeBody_underrun h, hufDecodeBody_underrun (s := s.withControl ph st) h]; rfl
  · rw [hufDecodeBody_walks (Nat.le_of_not_lt h),
      hufDecodeBody_walks (s := s.withControl ph st) (Nat.le_of_not_lt h)]
    have e : (s.withControl ph st).hufWalk = s.hufWalk := rfl
    rw [e]
    cases s.hufWalk.err <;> rfl

theorem cubeDecodeBody_withControl (s : State) (ph : Phase) (st : Status) :
    cubeDecodeBody (s.withControl ph st) = (cubeDecodeBody s).withControl ph st := by
  by_cases h : s.wlen.toNat = s.params.capacity
  · rw [cubeDecodeBody_ok h, cubeDecodeBody_ok (s := s.withControl ph st) h]; rfl
  · rw [cubeDecodeBody_mismatch h, cubeDecodeBody_mismatch (s := s.withControl ph st) h]; rfl

theorem relabelDecodeBody_withControl (s : State) (ph : Phase) (st : Status) :
    relabelDecodeBody (s.withControl ph st) = (relabelDecodeBody s).withControl ph st := by
  by_cases h : s.wlen.toNat = s.params.capacity
  · by_cases hk : 1000 ≤ s.kidx.toNat
    · rw [relabelDecodeBody_badConfig h hk,
        relabelDecodeBody_badConfig (s := s.withControl ph st) h hk]; rfl
    · rw [relabelDecodeBody_ok h (Nat.lt_of_not_le hk),
        relabelDecodeBody_ok (s := s.withControl ph st) h (Nat.lt_of_not_le hk)]; rfl
  · rw [relabelDecodeBody_mismatch h, relabelDecodeBody_mismatch (s := s.withControl ph st) h]; rfl

/-! What a command leaves, whatever its body's end -/

/-- The state a command's end step leaves is the one its last stage left, IDLE, with a STATUS that is that
of a success or of an error (R53, R245). -/
theorem exec_ends (i : Instr) (s : State) : ∃ u st, exec i s = .next (State.withControl u .idle st) ∧
    (st = { u.status with done := true } ∨
      ∃ (e : CmdError) (op : Byte),
        st = { u.status with err := true, errcode := e.code, errop := op }) ∧
    u.status = s.status := by
  have one : ∀ (r : StageEnd) (op : Byte), r.left.status = s.status →
      ∃ u st, r.thenDo op State.successEnd = State.withControl u .idle st ∧
        (st = { u.status with done := true } ∨
          ∃ (e : CmdError) (op : Byte),
            st = { u.status with err := true, errcode := e.code, errop := op }) ∧
        u.status = s.status := by
    intro r op hr
    cases r with
    | ok t => exact ⟨t, _, rfl, .inl rfl, hr⟩
    | error e t => exact ⟨t, _, rfl, .inr ⟨e, op, rfl⟩, hr⟩
  have lift : ∀ t : State, (∃ u st, t = State.withControl u .idle st ∧
      (st = { u.status with done := true } ∨
        ∃ (e : CmdError) (op : Byte),
          st = { u.status with err := true, errcode := e.code, errop := op }) ∧
      u.status = s.status) → ∃ u st,
      (Host.Outcome.next t : Host.Outcome State Fault Refusal) =
        .next (State.withControl u .idle st) ∧
      (st = { u.status with done := true } ∨
        ∃ (e : CmdError) (op : Byte),
          st = { u.status with err := true, errcode := e.code, errop := op }) ∧
      u.status = s.status :=
    fun t ⟨u, st, h, h'⟩ => ⟨u, st, congrArg _ h, h'⟩
  have he := hufEncodeBody_status s
  have hrd := relabelDecodeBody_status s
  cases i with
  | nop => exact ⟨s, _, rfl, .inl rfl, rfl⟩
  | hufEncode => exact lift _ (one (hufEncodeBody s) _ he)
  | cubeEncode => exact lift _ (one _ _ (cubeEncodeBody_status s))
  | relabelEncode => exact lift _ (one _ _ (relabelEncodeBody_status s))
  | hufDecode => exact lift _ (one _ _ (hufDecodeBody_status s))
  | cubeDecode => exact lift _ (one _ _ (cubeDecodeBody_status s))
  | relabelDecode => exact lift _ (one _ _ hrd)
  | encodeAll =>
    refine lift _ ?_
    cases h1 : hufEncodeBody s with
    | error e t => exact ⟨t, _, rfl, .inr ⟨e, _, rfl⟩, by rw [h1] at he; exact he⟩
    | ok s₁ =>
      rw [h1] at he
      have h2s := cubeEncodeBody_status s₁
      rw [StageEnd.thenDo_ok]
      cases h2 : cubeEncodeBody s₁ with
      | error e t => exact ⟨t, _, rfl, .inr ⟨e, _, rfl⟩, by rw [h2] at h2s; exact h2s.trans he⟩
      | ok s₂ =>
        rw [h2] at h2s
        exact one _ _ ((relabelEncodeBody_status s₂).trans (h2s.trans he))
  | decodeAll =>
    refine lift _ ?_
    cases h1 : relabelDecodeBody s with
    | error e t => exact ⟨t, _, rfl, .inr ⟨e, _, rfl⟩, by rw [h1] at hrd; exact hrd⟩
    | ok s₁ =>
      rw [h1] at hrd
      have h2s := cubeDecodeBody_status s₁
      rw [StageEnd.thenDo_ok]
      cases h2 : cubeDecodeBody s₁ with
      | error e t => exact ⟨t, _, rfl, .inr ⟨e, _, rfl⟩, by rw [h2] at h2s; exact h2s.trans hrd⟩
      | ok s₂ =>
        rw [h2] at h2s
        exact one _ _ ((hufDecodeBody_status s₂).trans (h2s.trans hrd))

/-! Steps -/

/-- What a step can do (R84): the engine's turn, a host access, or a reset. -/
theorem step_cases (s : State) :
    (s.inputs = [] ∧ step s = engineTurn s) ∨
    (∃ rest, s.inputs = .engine :: rest ∧ step s = engineTurn { s with inputs := rest }) ∨
    (∃ a rest, s.inputs = .access a :: rest ∧ step s = hostAccess { s with inputs := rest } a) ∨
    (∃ rest, s.inputs = .hardReset :: rest ∧
      step s = .next (State.hardReset { s with inputs := rest })) := by
  unfold step
  cases h : s.inputs with
  | nil => exact .inl ⟨rfl, rfl⟩
  | cons i rest =>
    cases i with
    | engine => exact .inr (.inl ⟨rest, rfl, rfl⟩)
    | access a => exact .inr (.inr (.inl ⟨a, rest, rfl, rfl⟩))
    | hardReset => exact .inr (.inr (.inr ⟨rest, rfl, rfl⟩))

/-- What an access that goes on does (R70, R73): it reached a location, and read or wrote it. -/
theorem hostAccess_next {s t : State} {a : Access} (h : hostAccess s a = .next t) :
    ∃ l, (∃ addr n, a = .read addr n ∧ locate s.params addr n = .ok l ∧ t = s.readLoc l) ∨
      ∃ addr n v, a = .write addr n v ∧ locate s.params addr n = .ok l ∧ t = s.writeLoc l v := by
  cases a with
  | read addr n =>
    simp only [hostAccess] at h
    split at h
    · cases h
    · rename_i l hl
      injection h with h
      exact ⟨l, .inl ⟨addr, n, rfl, hl, h.symm⟩⟩
  | write addr n v =>
    simp only [hostAccess] at h
    split at h
    · cases h
    · rename_i l hl
      injection h with h
      exact ⟨l, .inr ⟨addr, n, v, rfl, hl, h.symm⟩⟩

end Sys2Proof.Machine
end

