-- ==== Sys2Proof/Laws/Huffman.lean ====
section
/-! SUPPORT. What the tree operations of the Huffman Codec do: the pool (R120), the paths of a tree
(R124) and the bit walk (R140). -/

namespace Sys2Proof.Machine

/-! The pool -/

theorem takeLeastFrom_perm : ∀ (xs : List HuffNode) (best : HuffNode) (others : List HuffNode),
    ((takeLeastFrom best others xs).1 :: (takeLeastFrom best others xs).2).Perm
      (best :: (others ++ xs))
  | [], best, others => by simp [takeLeastFrom]
  | x :: xs, best, others => by
    unfold takeLeastFrom
    split
    · refine (takeLeastFrom_perm xs x (best :: others)).trans ?_
      refine (List.Perm.swap _ _ _).trans (.cons _ ?_)
      exact List.perm_middle.symm
    · refine (takeLeastFrom_perm xs best (x :: others)).trans (.cons _ ?_)
      exact List.perm_middle.symm

/-- Taking the least node of a pool splits the pool, and fails only on the empty one. -/
theorem takeLeast_perm {pool rest : List HuffNode} {m : HuffNode} (h : takeLeast pool = some (m, rest)) :
    (m :: rest).Perm pool := by
  cases pool with
  | nil => simp [takeLeast] at h
  | cons x xs =>
    simp only [takeLeast, Option.some.injEq] at h
    simpa [h] using takeLeastFrom_perm xs x []

theorem takeLeast_cons (x : HuffNode) (xs : List HuffNode) :
    ∃ m rest, takeLeast (x :: xs) = some (m, rest) := ⟨_, _, rfl⟩

theorem HuffNode.keyLt_iff (a b : HuffNode) : a.keyLt b = true ↔
    a.freq < b.freq ∨ (a.freq = b.freq ∧ a.id < b.id) := by simp [HuffNode.keyLt]

theorem takeLeastFrom_least : ∀ (xs : List HuffNode) (best : HuffNode) (others : List HuffNode),
    (∀ x ∈ others, x.keyLt best = false) →
    ∀ x ∈ (takeLeastFrom best others xs).2, x.keyLt (takeLeastFrom best others xs).1 = false
  | [], best, others, h => by simpa [takeLeastFrom] using h
  | y :: ys, best, others, h => by
    unfold takeLeastFrom
    split
    · rename_i hy
      refine takeLeastFrom_least ys y (best :: others) fun x hx => ?_
      rw [Bool.eq_false_iff]
      rw [HuffNode.keyLt_iff] at hy
      intro hxy
      rw [HuffNode.keyLt_iff] at hxy
      rcases List.mem_cons.1 hx with rfl | hx
      · omega
      · have := h x hx
        rw [Bool.eq_false_iff, ne_eq, HuffNode.keyLt_iff] at this
        omega
    · rename_i hy
      refine takeLeastFrom_least ys best (y :: others) fun x hx => ?_
      rcases List.mem_cons.1 hx with rfl | hx
      · simpa using hy
      · exact h x hx

/-- The node taken has the least key of the pool (R120). -/
theorem takeLeast_least {pool rest : List HuffNode} {m : HuffNode}
    (h : takeLeast pool = some (m, rest)) : ∀ x ∈ rest, x.keyLt m = false := by
  cases pool with
  | nil => simp [takeLeast] at h
  | cons x xs =>
    simp only [takeLeast, Option.some.injEq] at h
    simpa [h] using takeLeastFrom_least xs x [] (by simp)

/-- Pools whose nodes have distinct ids and that differ in order only give the same node of least key
(R121). -/
theorem takeLeast_perm_pool {pool pool' r r' : List HuffNode} {m m' : HuffNode} (hp : pool.Perm pool')
    (hd : pool.Pairwise fun m n => m.id ≠ n.id) (h : takeLeast pool = some (m, r))
    (h' : takeLeast pool' = some (m', r')) : m = m' ∧ r.Perm r' := by
  have p₁ := takeLeast_perm h
  have p₂ := takeLeast_perm h'
  have hm : m = m' := by
    by_contra hne
    have m₁ : m' ∈ r := by
      have : m' ∈ m :: r := p₁.mem_iff.2 (hp.mem_iff.2 (p₂.mem_iff.1 (by simp)))
      exact (List.mem_cons.1 this).resolve_left fun h => hne h.symm
    have m₂ : m ∈ r' := by
      have : m ∈ m' :: r' := p₂.mem_iff.2 (hp.mem_iff.1 (p₁.mem_iff.1 (by simp)))
      exact (List.mem_cons.1 this).resolve_left hne
    have a := takeLeast_least h _ m₁
    have b := takeLeast_least h' _ m₂
    rw [Bool.eq_false_iff, ne_eq, HuffNode.keyLt_iff] at a b
    have hd' : (m :: r).Pairwise fun m n => m.id ≠ n.id := (p₁.symm.pairwise_iff fun h => h.symm).1 hd
    have := (List.pairwise_cons.1 hd').1 _ m₁
    omega
  subst hm
  exact ⟨rfl, (List.perm_cons m).1 (p₁.trans (hp.trans p₂.symm))⟩

theorem takeLeast_eq_none {pool : List HuffNode} : takeLeast pool = none ↔ pool = [] := by
  cases pool <;> simp [takeLeast]

/-- One turn of the merging loop that finds two nodes leaves a pool with distinct ids, below the next. -/
theorem mergePool_next_ids {pool r q : List HuffNode} {a b : HuffNode} {k : Nat}
    (hd : pool.Pairwise fun m n => m.id ≠ n.id) (hi : ∀ n ∈ pool, n.id < 256 + k)
    (h : (a :: r).Perm pool) (h' : (b :: q).Perm r) :
    (q ++ [HuffNode.node a b (a.freq + b.freq) (256 + k)]).Pairwise (fun m n => m.id ≠ n.id) ∧
    ∀ n ∈ q ++ [HuffNode.node a b (a.freq + b.freq) (256 + k)], n.id < 256 + (k + 1) := by
  have hq : ∀ x ∈ q, x.id < 256 + k := fun x hx =>
    hi x (h.mem_iff.1 (List.mem_cons_of_mem _ (h'.mem_iff.1 (List.mem_cons_of_mem _ hx))))
  have d₁ := (List.pairwise_cons.1 ((h.symm.pairwise_iff fun h => h.symm).1 hd)).2
  have d₂ := (List.pairwise_cons.1 ((h'.symm.pairwise_iff fun h => h.symm).1 d₁)).2
  refine ⟨List.pairwise_append.2 ⟨d₂, by simp, fun x hx y hy => ?_⟩, fun x hx => ?_⟩
  · rw [List.mem_singleton.1 hy]
    have := hq x hx
    simp only [HuffNode.id] at *; omega
  · rcases List.mem_append.1 hx with hx | hx
    · have := hq x hx; omega
    · rw [List.mem_singleton.1 hx]; simp [HuffNode.id]

/-- The order of a pool with distinct ids does not matter to the merging loop (R121). -/
theorem mergePool_perm : ∀ (fuel k : Nat) (pool pool' : List HuffNode), pool.Perm pool' →
    pool.Pairwise (fun m n => m.id ≠ n.id) → (∀ n ∈ pool, n.id < 256 + k) →
    mergePool fuel k pool = mergePool fuel k pool'
  | 0, _, _, _, _, _, _ => rfl
  | fuel + 1, k, pool, pool', hp, hd, hi => by
    unfold mergePool
    cases h : takeLeast pool with
    | none => rw [takeLeast_eq_none] at h; subst h; rw [List.nil_perm.1 hp]; rfl
    | some mr =>
      obtain ⟨m, r⟩ := mr
      cases h' : takeLeast pool' with
      | none => rw [takeLeast_eq_none] at h'; subst h'; rw [hp.eq_nil] at h; simp [takeLeast] at h
      | some mr' =>
        obtain ⟨m', r'⟩ := mr'
        obtain ⟨rfl, hr⟩ := takeLeast_perm_pool hp hd h h'
        have p₁ := takeLeast_perm h
        have hdr := (List.pairwise_cons.1 ((p₁.symm.pairwise_iff fun h => h.symm).1 hd)).2
        simp only
        cases g : takeLeast r with
        | none => rw [takeLeast_eq_none] at g; subst g; rw [List.nil_perm.1 hr]; rfl
        | some nq =>
          obtain ⟨n, q⟩ := nq
          cases g' : takeLeast r' with
          | none =>
            rw [takeLeast_eq_none] at g'; subst g'; rw [hr.eq_nil] at g; simp [takeLeast] at g
          | some nq' =>
            obtain ⟨n', q'⟩ := nq'
            obtain ⟨rfl, hq⟩ := takeLeast_perm_pool hr hdr g g'
            have ids := mergePool_next_ids hd hi p₁ (takeLeast_perm g)
            exact mergePool_perm fuel (k + 1) _ _ (hq.append_right _) ids.1 ids.2

/-! Trees -/

/-- The symbols of a tree's leaves, from the left. -/
def HuffNode.symbols : HuffNode → List Byte
  | .leaf s _ => [s]
  | .single l _ _ => l.symbols
  | .node l r _ _ => l.symbols ++ r.symbols

/-- Every inner node has two children, as all have that the merging loop makes. -/
def HuffNode.full : HuffNode → Bool
  | .leaf _ _ => true
  | .single _ _ _ => false
  | .node l r _ _ => l.full && r.full

/-- A tree that is not a sole leaf. -/
def HuffNode.isInner : HuffNode → Bool
  | .leaf _ _ => false
  | .single _ _ _ => true
  | .node _ _ _ _ => true

/-- The merging loop ends with one full tree over the symbols of its pool, an inner node if it merged. -/
theorem mergePool_spec : ∀ (fuel k : Nat) (pool : List HuffNode), pool ≠ [] → pool.length ≤ fuel →
    (∀ n ∈ pool, n.full = true) →
    ∃ T, mergePool fuel k pool = some T ∧ T.full = true ∧
      T.symbols.Perm (pool.flatMap HuffNode.symbols) ∧
      (2 ≤ pool.length → T.isInner = true)
  | 0, _, pool, hne, hlen, _ => by
    cases pool with
    | nil => exact absurd rfl hne
    | cons _ _ => simp at hlen
  | fuel + 1, k, pool, hne, hlen, hfull => by
    obtain ⟨x, xs, rfl⟩ := List.exists_cons_of_ne_nil hne
    obtain ⟨a, pool₁, ha⟩ := takeLeast_cons x xs
    have pa := takeLeast_perm ha
    simp only [mergePool, ha]
    cases pool₁ with
    | nil =>
      have hx : xs = [] := by
        have := pa.length_eq
        simp only [List.length_cons, List.length_nil] at this
        exact List.eq_nil_of_length_eq_zero (by omega)
      subst hx
      have hax : a = x := by simpa using pa.mem_iff (a := a)
      subst hax
      exact ⟨a, by simp [takeLeast], hfull a (by simp), by simp, by simp⟩
    | cons y ys =>
      obtain ⟨b, pool₂, hb⟩ := takeLeast_cons y ys
      have pb := takeLeast_perm hb
      have pab : (a :: b :: pool₂).Perm (x :: xs) := (pb.cons a).trans pa
      have hl := pab.length_eq
      simp only [List.length_cons] at hl hlen
      simp only [hb]
      have hf : ∀ n ∈ a :: b :: pool₂, n.full = true := fun n hn => hfull n (pab.mem_iff.1 hn)
      obtain ⟨T, hT, hTf, hTs, hTi⟩ := mergePool_spec fuel (k + 1)
        (pool₂ ++ [.node a b (a.freq + b.freq) (256 + k)]) (by simp)
        (by simp only [List.length_append, List.length_cons, List.length_nil]; omega)
        (by
          intro n hn
          rcases List.mem_append.1 hn with hn | hn
          · exact hf n (by simp [hn])
          · rw [List.mem_singleton.1 hn]
            simp [HuffNode.full, hf a, hf b])
      refine ⟨T, hT, hTf, hTs.trans ?_, fun _ => ?_⟩
      · refine List.Perm.trans ?_ (pab.flatMap_right HuffNode.symbols)
        simp only [List.flatMap_append, List.flatMap_cons, List.flatMap_nil, List.append_nil,
          HuffNode.symbols]
        refine List.perm_append_comm.trans ?_
        simp
      · rcases Nat.lt_or_ge pool₂.length 1 with h0 | h1
        · have : pool₂ = [] := List.eq_nil_of_length_eq_zero (by omega)
          subst this
          cases fuel with
          | zero => simp [mergePool] at hT
          | succ fuel =>
            have : T = .node a b (a.freq + b.freq) (256 + k) := by
              simpa [mergePool, takeLeast, takeLeastFrom, eq_comm] using hT
            rw [this]; rfl
        · exact hTi (by simp only [List.length_append, List.length_cons, List.length_nil]; omega)

/-- A full tree with m leaves has paths of at most m − 1 steps (R125). -/
theorem HuffNode.code?_length {s : Byte} : ∀ {T : HuffNode} {c : List Bool}, T.full = true →
    T.code? s = some c → c.length + 1 ≤ T.symbols.length
  | .leaf s' f, c, _, h => by
    simp only [HuffNode.code?] at h
    split at h
    · simp only [Option.some.injEq] at h; subst h; simp [HuffNode.symbols]
    · simp at h
  | .single _ _ _, _, h, _ => by simp [HuffNode.full] at h
  | .node l r f i, c, hf, h => by
    simp only [HuffNode.full, Bool.and_eq_true] at hf
    simp only [HuffNode.symbols, List.length_append]
    have pos : ∀ {U : HuffNode}, U.full = true → 1 ≤ U.symbols.length := by
      intro U hU
      induction U with
      | leaf => simp [HuffNode.symbols]
      | single => simp [HuffNode.full] at hU
      | node l r f i ihl ihr =>
        simp only [HuffNode.full, Bool.and_eq_true] at hU
        have := ihl hU.1
        simp only [HuffNode.symbols, List.length_append]; omega
    have hl := pos hf.1
    have hr := pos hf.2
    simp only [HuffNode.code?] at h
    split at h
    · rename_i d hd
      have := HuffNode.code?_length hf.1 hd
      simp only [Option.some.injEq] at h; subst h
      simp only [List.length_cons]; omega
    · obtain ⟨d, hd, rfl⟩ := Option.map_eq_some_iff.1 h
      have := HuffNode.code?_length hf.2 hd
      simp only [List.length_cons]; omega

/-- A symbol has a path exactly when it is a leaf's symbol. -/
theorem HuffNode.code?_isSome (s : Byte) : ∀ T : HuffNode, (T.code? s).isSome = true ↔ s ∈ T.symbols
  | .leaf s' f => by
    simp only [HuffNode.code?, HuffNode.symbols, List.mem_singleton]
    split <;> simp_all [eq_comm]
  | .single l _ _ => by
    simpa [HuffNode.code?, HuffNode.symbols] using HuffNode.code?_isSome s l
  | .node l r _ _ => by
    have hl := HuffNode.code?_isSome s l
    have hr := HuffNode.code?_isSome s r
    simp only [HuffNode.code?, HuffNode.symbols, List.mem_append, ← hl, ← hr]
    cases l.code? s <;> simp

/-- No path of a tree is the beginning of another symbol's path (R125). -/
theorem HuffNode.code?_beginning {s t : Byte} : ∀ {T : HuffNode} {c d : List Bool},
    T.code? s = some c → T.code? t = some d → c <+: d → s = t
  | .leaf s' f, c, d, hc, hd, _ => by
    simp only [HuffNode.code?] at hc hd
    split at hc <;> split at hd <;> simp_all
  | .single l _ _, c, d, hc, hd, h => by
    simp only [HuffNode.code?] at hc hd
    obtain ⟨c', hc', rfl⟩ := Option.map_eq_some_iff.1 hc
    obtain ⟨d', hd', rfl⟩ := Option.map_eq_some_iff.1 hd
    exact HuffNode.code?_beginning hc' hd' (List.prefix_cons_inj _ |>.1 h)
  | .node l r _ _, c, d, hc, hd, h => by
    simp only [HuffNode.code?] at hc hd
    split at hc <;> split at hd
    · simp only [Option.some.injEq] at hc hd
      subst hc hd
      rename_i hc' _ _ hd'
      exact HuffNode.code?_beginning hc' hd' (List.prefix_cons_inj _ |>.1 h)
    · simp only [Option.some.injEq] at hc
      obtain ⟨d', hd', rfl⟩ := Option.map_eq_some_iff.1 hd
      subst hc
      simp [List.cons_prefix_cons] at h
    · simp only [Option.some.injEq] at hd
      obtain ⟨c', hc', rfl⟩ := Option.map_eq_some_iff.1 hc
      subst hd
      simp [List.cons_prefix_cons] at h
    · obtain ⟨c', hc', rfl⟩ := Option.map_eq_some_iff.1 hc
      obtain ⟨d', hd', rfl⟩ := Option.map_eq_some_iff.1 hd
      exact HuffNode.code?_beginning hc' hd' (List.prefix_cons_inj _ |>.1 h)

/-- The path to a leaf is empty exactly at that leaf, so a path of an inner node has a first step, and
the rest of it is a path of the child that step leads to. -/
theorem HuffNode.code?_step {s : Byte} {T : HuffNode} {c : List Bool} (hT : T.isInner = true)
    (h : T.code? s = some c) :
    ∃ b c' U, c = b :: c' ∧ T.child? b = some U ∧ U.code? s = some c' := by
  cases T with
  | leaf => simp [HuffNode.isInner] at hT
  | single l f i =>
    obtain ⟨d, hd, rfl⟩ := Option.map_eq_some_iff.1 h
    exact ⟨false, d, l, rfl, rfl, hd⟩
  | node l r f i =>
    simp only [HuffNode.code?] at h
    split at h
    · rename_i d hd
      simp only [Option.some.injEq] at h
      exact ⟨false, d, l, h.symm, rfl, hd⟩
    · obtain ⟨d, hd, rfl⟩ := Option.map_eq_some_iff.1 h
      exact ⟨true, d, r, rfl, rfl, hd⟩

/-- Where a path leads to a leaf, its symbol is one of the tree's. -/
theorem HuffNode.follow_symbols {s : Byte} {f : Nat} : ∀ (T : HuffNode) (c : List Bool),
    T.follow c = some (.leaf s f) → s ∈ T.symbols
  | .leaf s' f', [], h => by simp only [follow, Option.some.injEq, leaf.injEq] at h; simp [symbols, h.1]
  | .single _ _ _, [], h => by simp [follow] at h
  | .node _ _ _ _, [], h => by simp [follow] at h
  | .leaf _ _, _ :: _, h => by simp [follow] at h
  | .single l _ _, false :: c, h => HuffNode.follow_symbols l c h
  | .single _ _ _, true :: _, h => by simp [follow] at h
  | .node l _ _ _, false :: c, h => List.mem_append_left _ (HuffNode.follow_symbols l c h)
  | .node _ r _ _, true :: c, h => List.mem_append_right _ (HuffNode.follow_symbols r c h)

/-- In a tree of distinct symbols, a symbol's code is the path to its leaf (R124). -/
theorem HuffNode.code?_iff_follow {s : Byte} : ∀ {T : HuffNode} {c : List Bool}, T.symbols.Nodup →
    (T.code? s = some c ↔ ∃ f, T.follow c = some (.leaf s f))
  | .leaf s' f, [], _ => by simp only [code?, follow]; split <;> simp_all
  | .leaf s' f, b :: c, _ => by simp only [code?, follow]; split <;> simp
  | .single l f i, [], _ => by simp [code?, follow]
  | .single l f i, false :: c, h => by
    simpa [code?, follow] using HuffNode.code?_iff_follow (T := l) (c := c) h
  | .single l f i, true :: c, _ => by simp [code?, follow]
  | .node l r f i, [], _ => by simp only [code?, follow]; split <;> simp
  | .node l r f i, false :: c, h => by
    have hl := HuffNode.code?_iff_follow (s := s) (T := l) (c := c) (List.nodup_append.1 h).1
    simp only [follow, ← hl, code?]
    split
    · rename_i d hd; simp [hd]
    · rename_i hd; simp [hd]
  | .node l r f i, true :: c, h => by
    obtain ⟨_, hr, hd⟩ := List.nodup_append.1 h
    have ih := HuffNode.code?_iff_follow (s := s) (T := r) (c := c) hr
    simp only [follow, ← ih, code?]
    split
    · rename_i d hl
      have hs : s ∈ l.symbols := (HuffNode.code?_isSome s l).1 (by simp [hl])
      have hr' : ¬ s ∈ r.symbols := fun hr => hd s hs s hr rfl
      have : r.code? s = none := by
        rw [← Option.not_isSome_iff_eq_none]; exact fun h => hr' ((HuffNode.code?_isSome s r).1 h)
      simp [this]
    · simp

/-! The bit walk -/

/-- One bit of the walk that leads to a leaf, to an inner node, or to no node. -/
theorem walkBits_cons (root : HuffNode) (cap : Nat) (bit : Bool) (bits : List Bool)
    (at? : Option HuffNode) (n : Nat) : walkBits root cap (bit :: bits) at? n =
    match (at?.getD root).child? bit with
    | none => ⟨[], some .invalidCode⟩
    | some (.leaf s _) =>
      if n = cap then ⟨[], some .outputOverflow⟩ else (walkBits root cap bits none (n + 1)).emit s
    | some c => walkBits root cap bits (some c) n := by
  cases h : (at?.getD root).child? bit with
  | none => simp [walkBits, h]
  | some c => cases c <;> simp [walkBits, h]

/-- Walking a whole path from the node it starts at emits its symbol and goes back to the root. -/
theorem walkBits_code (root : HuffNode) (cap : Nat) {s : Byte} (rest : List Bool) (n : Nat) :
    ∀ (c : List Bool) (at? : Option HuffNode), (at?.getD root).isInner = true →
      (at?.getD root).code? s = some c →
      walkBits root cap (c ++ rest) at? n =
        if n = cap then ⟨[], some .outputOverflow⟩
        else (walkBits root cap rest none (n + 1)).emit s := by
  intro c
  induction c with
  | nil =>
    intro at? hi h
    obtain ⟨b, c', U, hc, _⟩ := HuffNode.code?_step hi h
    simp at hc
  | cons bit c ih =>
    intro at? hi h
    obtain ⟨b, c', U, hc, hU, hUs⟩ := HuffNode.code?_step hi h
    simp only [List.cons.injEq] at hc
    obtain ⟨rfl, rfl⟩ := hc
    rw [List.cons_append, walkBits_cons, hU]
    cases U with
    | leaf s' f =>
      simp only [HuffNode.code?] at hUs
      split at hUs
      · rename_i hs
        simp only [Option.some.injEq] at hUs
        subst hs hUs
        simp
      · simp at hUs
    | single l f i => exact ih (some _) rfl hUs
    | node l r f i => exact ih (some _) rfl hUs

/-- Walking a part of a path, neither nothing nor all of it, ends inside it. -/
theorem walkBits_part (root : HuffNode) (cap : Nat) {s : Byte} (n : Nat) :
    ∀ (c part : List Bool) (at? : Option HuffNode), (at?.getD root).isInner = true →
      (at?.getD root).code? s = some c → part <+: c → part ≠ c → part ≠ [] ∨ at?.isSome = true →
      walkBits root cap part at? n = ⟨[], some .decodeUnderrun⟩ := by
  intro c
  induction c with
  | nil =>
    intro part at? hi h
    obtain ⟨b, c', U, hc, _⟩ := HuffNode.code?_step hi h
    simp at hc
  | cons bit c ih =>
    intro part at? hi h hp hne hs
    obtain ⟨b, c', U, hc, hU, hUs⟩ := HuffNode.code?_step hi h
    simp only [List.cons.injEq] at hc
    obtain ⟨rfl, rfl⟩ := hc
    cases part with
    | nil =>
      have : at?.isSome = true := by simpa using hs
      simp [walkBits, this]
    | cons bit' part =>
      rw [List.cons_prefix_cons] at hp
      obtain ⟨rfl, hp⟩ := hp
      have hne' : part ≠ c := fun h => hne (by rw [h])
      rw [walkBits_cons, hU]
      cases U with
      | leaf s' f =>
        simp only [HuffNode.code?] at hUs
        split at hUs
        · simp only [Option.some.injEq] at hUs
          subst hUs
          exact absurd (List.prefix_nil.1 hp) hne'
        · simp at hUs
      | single l f i => exact ih part (some _) rfl hUs hp hne' (Or.inr rfl)
      | node l r f i => exact ih part (some _) rfl hUs hp hne' (Or.inr rfl)

/-- Walking the codes of a list of bytes that fits emits the bytes and goes on with the rest. -/
theorem walkBits_encode (root : HuffNode) (hr : root.isInner = true) (cap : Nat) (rest : List Bool) :
    ∀ (out : List Byte) (n : Nat), (∀ b ∈ out, (codeOf (some root) b).isSome = true) →
      n + out.length ≤ cap →
      walkBits root cap (encodeBits (some root) out ++ rest) none n =
        ⟨out ++ (walkBits root cap rest none (n + out.length)).out,
          (walkBits root cap rest none (n + out.length)).err⟩
  | [], n, _, _ => by simp [encodeBits]
  | b :: out, n, h, hn => by
    obtain ⟨c, hc⟩ := Option.isSome_iff_exists.1 (h b (by simp))
    have hc' : root.code? b = some c := hc
    simp only [List.length_cons] at hn
    have ih := walkBits_encode root hr cap rest out (n + 1) (fun x hx => h x (by simp [hx])) (by omega)
    simp only [encodeBits, List.flatMap_cons, hc, Option.getD_some, List.append_assoc] at ih ⊢
    rw [walkBits_code root cap _ n c none hr hc', if_neg (by omega), ih]
    simp [WalkEnd.emit, show n + 1 + out.length = n + (out.length + 1) by omega]

/-- The errors a bit walk can end in (R140). -/
theorem walkBits_err (root : HuffNode) (cap : Nat) : ∀ (bits : List Bool) (at? : Option HuffNode)
    (n : Nat) (e : CmdError), (walkBits root cap bits at? n).err = some e →
    e = .decodeUnderrun ∨ e = .outputOverflow ∨ e = .invalidCode
  | [], at?, n, e, h => by simp only [walkBits] at h; split at h <;> simp_all
  | b :: bits, at?, n, e, h => by
    rw [walkBits_cons] at h
    split at h
    · simp_all
    · split at h
      · simp_all
      · exact walkBits_err root cap bits none (n + 1) e h
    · exact walkBits_err root cap bits _ n e h

/-- A bit walk emits no more bytes than OBUF holds (R140 check HD4). -/
theorem walkBits_out_length (root : HuffNode) (cap : Nat) : ∀ (bits : List Bool)
    (at? : Option HuffNode) (n : Nat), n ≤ cap →
    n + (walkBits root cap bits at? n).out.length ≤ cap
  | [], at?, n, h => by simpa [walkBits] using h
  | b :: bits, at?, n, h => by
    rw [walkBits_cons]
    split
    · simpa using h
    · split
      · simpa using h
      · have := walkBits_out_length root cap bits none (n + 1) (by omega)
        simp only [WalkEnd.emit, List.length_cons]; omega
    · exact walkBits_out_length root cap bits _ n h

end Sys2Proof.Machine
end

