-- ==== Sys2Proof/Laws/Operands.lean ====
section
/-! SUPPORT. What the words commands read and write hold: STATUS as a number (R34), the bits of a packed
byte (R126), and the bytes of a tail word (R162, R170). -/

namespace Sys2Proof.Machine

/-- Two bit vectors one above the other, as a number. -/
theorem toNat_append_eq {n m : Nat} (x : BitVec n) (y : BitVec m) :
    (x ++ y).toNat = x.toNat * 2 ^ m + y.toNat := by
  rw [BitVec.toNat_append, Nat.shiftLeft_eq, Nat.mul_comm, Nat.two_pow_add_eq_or_of_lt y.isLt]

/-- STATUS as a number (R34). -/
theorem statusWord_toNat (s : State) : s.statusWord.toNat =
    s.status.errop.toNat * 2 ^ 24 + s.status.lastop.toNat * 2 ^ 16 + s.status.errcode.toNat * 2 ^ 8 +
      s.status.bacc.toNat * 16 + s.status.ovr.toNat * 8 + s.status.err.toNat * 4 +
      s.status.done.toNat * 2 + s.isBusy.toNat := by
  simp only [State.statusWord]
  generalize s.isBusy = b
  obtain ⟨b1, b2, b3, b4, c, l, o⟩ := s.status
  simp only [toNat_append_eq, BitVec.toNat_ofBool]
  simp
  ring

/-- Bit 7 − m of packed byte j is bit 8j + m of the string, or 0 beyond its end (R126). -/
theorem packByte_getLsbD (bits : List Bool) (j m : Nat) (h : m < 8) :
    (packByte bits j).getLsbD (7 - m) = bits.getD (8 * j + m) false := by
  have sum8 : ∀ f : Nat → Nat, ((List.range 8).map f).sum =
      f 0 + f 1 + f 2 + f 3 + f 4 + f 5 + f 6 + f 7 := by
    intro f; simp [List.range_succ]; ring
  have key : ∀ b0 b1 b2 b3 b4 b5 b6 b7 : Bool, ∀ m : Fin 8,
      (BitVec.ofNat 8 (b0.toNat <<< (7 - 0) + b1.toNat <<< (7 - 1) + b2.toNat <<< (7 - 2) +
        b3.toNat <<< (7 - 3) + b4.toNat <<< (7 - 4) + b5.toNat <<< (7 - 5) + b6.toNat <<< (7 - 6) +
        b7.toNat <<< (7 - 7))).getLsbD (7 - m.val) = #[b0, b1, b2, b3, b4, b5, b6, b7][m.val] := by
    decide
  unfold packByte
  rw [sum8, key _ _ _ _ _ _ _ _ ⟨m, h⟩]
  interval_cases m <;> rfl

theorem byteBE_toNat (v : Word) (j : Nat) : (byteBE v j).toNat = v.toNat / 2 ^ (8 * (3 - j)) % 256 := by
  simp [byteBE, Nat.shiftRight_eq_div_pow]

theorem wordBE_toNat (b0 b1 b2 b3 : Byte) : (wordBE b0 b1 b2 b3).toNat =
    b0.toNat * 2 ^ 24 + b1.toNat * 2 ^ 16 + b2.toNat * 2 ^ 8 + b3.toNat := by
  simp only [wordBE, toNat_append_eq]
  ring

end Sys2Proof.Machine
end

