-- ==== Sys2Proof/Laws/PerInstr.lean ====
section
/-! SUPPORT. Statements made per command: the internal structure of each opcode (R100, R101). -/

namespace Sys2Proof.Laws.OpcodeFields

/-- The stage a command's OPC[3:0] names (R101). -/
def stage : Instr → Nat
  | .nop => 0x0
  | .hufEncode | .hufDecode => 0x1
  | .cubeEncode | .cubeDecode => 0x2
  | .relabelEncode | .relabelDecode => 0x3
  | .encodeAll | .decodeAll => 0xF

/-- The direction a command's OPC[4] names (R101): true on the decode path. -/
def decodePath : Instr → Bool
  | .nop | .hufEncode | .cubeEncode | .relabelEncode | .encodeAll => false
  | .hufDecode | .cubeDecode | .relabelDecode | .decodeAll => true

/-- A command's word has reserved bits 0 (R100), and its opcode names its stage and direction, with
OPC[7:5] = 0 (R101). -/
def Statement (i : Instr) : Prop :=
  (encode i).extractLsb' 8 24 = 0#24 ∧ (opcodeOf i).extractLsb' 5 3 = 0#3 ∧
    ((opcodeOf i).extractLsb' 0 4).toNat = stage i ∧ (opcodeOf i).getLsbD 4 = decodePath i

theorem nop : Statement .nop := by unfold Statement; decide
theorem hufEncode : Statement .hufEncode := by unfold Statement; decide
theorem cubeEncode : Statement .cubeEncode := by unfold Statement; decide
theorem relabelEncode : Statement .relabelEncode := by unfold Statement; decide
theorem encodeAll : Statement .encodeAll := by unfold Statement; decide
theorem hufDecode : Statement .hufDecode := by unfold Statement; decide
theorem cubeDecode : Statement .cubeDecode := by unfold Statement; decide
theorem relabelDecode : Statement .relabelDecode := by unfold Statement; decide
theorem decodeAll : Statement .decodeAll := by unfold Statement; decide

end Sys2Proof.Laws.OpcodeFields
end

