-- ==== Sys2Proof/Laws/Port.lean ====
section
/-! SUPPORT. What the port's operations do: the windows of the address map (R72), the location an access
reaches (R73), and the map's inverse. -/

namespace Sys2Proof.Machine

theorem inWindow_of_mem {start size off : Nat} (h : start ≤ off ∧ off < start + 4 * size) :
    inWindow start size off = some ((off - start) / 4) := if_pos h

theorem inWindow_eq_none_iff {start size off : Nat} :
    inWindow start size off = none ↔ ¬ (start ≤ off ∧ off < start + 4 * size) := by
  unfold inWindow; split <;> simp_all

theorem inWindow_some {start size off k : Nat} (h : inWindow start size off = some k) :
    start ≤ off ∧ off < start + 4 * size ∧ k = (off - start) / 4 := by
  unfold inWindow at h
  split at h
  · simp only [Option.some.injEq] at h; omega
  · simp at h

/-- A location the address map gives exists (R72). -/
theorem locOf_present {p : Params} {off : Nat} {l : Loc} (h : locOf p off = some l) : l.present p := by
  simp only [locOf, Option.or_eq_some_iff, Option.map_eq_some_iff] at h
  rcases h with ⟨k, h, rfl⟩ | ⟨_, h⟩
  · unfold regAt; split <;> trivial
  rcases h with ⟨k, h, rfl⟩ | ⟨_, h⟩
  · trivial
  rcases h with ⟨k, h, rfl⟩ | ⟨_, h⟩
  · trivial
  rcases h with ⟨k, h, rfl⟩ | ⟨_, h⟩
  · have := inWindow_some h; simp only [Loc.present, keyLen] at *; omega
  rcases h with ⟨k, h, rfl⟩ | ⟨_, h⟩
  · have := inWindow_some h; simp only [Loc.present] at *; omega
  rcases h with ⟨k, h, rfl⟩ | ⟨_, h⟩
  · have := inWindow_some h; simp only [Loc.present] at *; omega
  obtain ⟨k, h, rfl⟩ := h
  have := inWindow_some h; simp only [Loc.present] at *; omega

/-- What an access that reaches a location must be (R73): in the block, aligned, 32 bits wide, mapped. -/
theorem locate_ok {p : Params} {addr bytes : Nat} {l : Loc} (h : locate p addr bytes = .ok l) :
    p.base ≤ addr ∧ addr < p.base + 2 ^ 28 ∧ (addr - p.base) % 4 = 0 ∧ bytes = 4 ∧
      locOf p (addr - p.base) = some l ∧ l.present p := by
  unfold locate offsetOf at h
  by_cases h1 : p.base ≤ addr ∧ addr < p.base + 2 ^ 28
  · rw [if_pos h1] at h
    simp only at h
    split at h
    · cases h
    · split at h
      · cases h
      · split at h
        · cases h
        · rename_i hl
          cases h
          exact ⟨h1.1, h1.2, by omega, by omega, hl, locOf_present hl⟩
  · rw [if_neg h1] at h; cases h

/-- A read or a write changes no parameter of the instance (R30). -/
theorem readLoc_params (s : State) (l : Loc) : (s.readLoc l).params = s.params := by
  unfold State.readLoc; split <;> rfl

theorem writeLoc_params (s : State) (l : Loc) (v : Word) : (s.writeLoc l v).params = s.params := by
  unfold State.writeLoc
  split
  · rfl
  · cases l with
    | ctrl => simp only [State.writeSlot]; split <;> rfl
    | cmd => simp only [State.writeSlot]; split <;> rfl
    | _ => rfl

end Sys2Proof.Machine
end

