-- ==== Sys2Proof/Laws/Primes.lean ====
section
/-! SUPPORT. What the prime operations do (R19, R190): trial division decides primality, and the search
for the next prime finds it. -/

namespace Sys2Proof.Machine

theorem noDivisorFrom_iff : ∀ (fuel d n : Nat), n < (d + fuel) * (d + fuel) →
    (noDivisorFrom fuel d n = true ↔ ∀ k, d ≤ k → k * k ≤ n → ¬ k ∣ n)
  | 0, d, n, h => by
    simp only [noDivisorFrom, true_iff]
    intro k hk hkk
    have : (d + 0) * (d + 0) ≤ k * k := Nat.mul_le_mul hk hk
    omega
  | fuel + 1, d, n, h => by
    have ih := noDivisorFrom_iff fuel (d + 1) n
      (by rw [show d + 1 + fuel = d + (fuel + 1) by omega]; exact h)
    unfold noDivisorFrom
    split
    · simp only [true_iff]
      intro k hk hkk
      have : d * d ≤ k * k := Nat.mul_le_mul hk hk
      omega
    · split
      · rename_i h2
        simp only [Bool.false_eq_true, false_iff, not_forall]
        exact ⟨d, le_refl _, by omega, by simpa [Nat.dvd_iff_mod_eq_zero] using h2⟩
      · rename_i h2
        rw [ih]
        constructor
        · intro hh k hk hkk
          rcases Nat.eq_or_lt_of_le hk with rfl | hlt
          · rwa [Nat.dvd_iff_mod_eq_zero]
          · exact hh k hlt hkk
        · intro hh k hk hkk
          exact hh k (by omega) hkk

/-- Trial division decides primality. -/
theorem isPrime_iff (n : Nat) : isPrime n = true ↔ n.Prime := by
  simp only [isPrime, Bool.and_eq_true, decide_eq_true_eq]
  constructor
  · rintro ⟨h2, h⟩
    rw [noDivisorFrom_iff _ _ _ (by nlinarith)] at h
    rw [Nat.prime_def_le_sqrt]
    exact ⟨h2, fun m hm hms => h m hm (Nat.le_sqrt.1 hms)⟩
  · intro h
    refine ⟨h.two_le, ?_⟩
    rw [noDivisorFrom_iff _ _ _ (by nlinarith)]
    rw [Nat.prime_def_le_sqrt] at h
    exact fun k hk hkk => h.2 k hk (Nat.le_sqrt.2 hkk)

/-- Where there is a prime among the numbers searched, the search gives the first one. -/
theorem primeFrom_spec : ∀ fuel n, (∃ p, n ≤ p ∧ p < n + fuel ∧ p.Prime) →
    (primeFrom fuel n).Prime ∧ n ≤ primeFrom fuel n ∧
      ∀ k, n ≤ k → k < primeFrom fuel n → ¬ k.Prime
  | 0, n, ⟨p, h1, h2, _⟩ => by omega
  | fuel + 1, n, ⟨p, h1, h2, hp⟩ => by
    unfold primeFrom
    split
    · rename_i h
      exact ⟨(isPrime_iff n).1 h, le_refl _, by omega⟩
    · rename_i h
      rw [isPrime_iff] at h
      have hne : p ≠ n := by rintro rfl; exact h hp
      obtain ⟨a, b, c⟩ := primeFrom_spec fuel (n + 1) ⟨p, by omega, by omega, hp⟩
      refine ⟨a, by omega, fun k hk hkk => ?_⟩
      rcases Nat.eq_or_lt_of_le hk with rfl | hlt
      · exact h
      · exact c k hlt hkk

theorem nthPrime_prime : ∀ j, (nthPrime j).Prime
  | 0 => Nat.prime_two
  | j + 1 => by
    have hj := nthPrime_prime j
    obtain ⟨p, hp, h1, h2⟩ := Nat.exists_prime_lt_and_le_two_mul (nthPrime j) hj.ne_zero
    exact (primeFrom_spec _ _ ⟨p, by omega, by omega, hp⟩).1

/-- Between one element of the sequence and the next there is no prime. -/
theorem nthPrime_succ (j : Nat) : nthPrime j < nthPrime (j + 1) ∧
    ∀ k, nthPrime j < k → k < nthPrime (j + 1) → ¬ k.Prime := by
  have hj := nthPrime_prime j
  obtain ⟨p, hp, h1, h2⟩ := Nat.exists_prime_lt_and_le_two_mul (nthPrime j) hj.ne_zero
  obtain ⟨_, b, c⟩ := primeFrom_spec (nthPrime j) (nthPrime j + 1) ⟨p, by omega, by omega, hp⟩
  exact ⟨b, fun k hk hkk => c k hk hkk⟩

/-- The search of R190 stops at once at a prime that does not divide the modulus. -/
theorem primeNotDividing_stops (fuel j N : Nat) (h : N % nthPrime j ≠ 0) :
    primeNotDividing fuel j N = nthPrime j := by
  cases fuel with
  | zero => rfl
  | succ fuel => exact if_neg h

end Sys2Proof.Machine
end

