-- ==== Sys2Proof/Tests/Slice0.lean ====
section
/-! SUPPORT. Tests: the smoke tests of WellFormed, words decoded bit by bit from R100 and R102, small
vectors of 95_test_vectors.md (each by its name there), and, for every statement of Certificates with
hypotheses, a state and operands that meet them. -/

namespace Sys2Proof.Tests

open Sys2Proof.Machine

/-! ## WellFormed: a term each check refuses -/

theorem test_wf_params_vectors : Params.vectors.wf = true := by decide
theorem test_wf_params_reference : Params.reference.wf = true := by decide
theorem test_wOk_refuses_3 : ({ Params.vectors with w := 3 } : Params).wOk = false := by decide
theorem test_wOk_refuses_9 : ({ Params.vectors with w := 9 } : Params).wOk = false := by decide
theorem test_ibufOk_refuses_0 : ({ Params.vectors with ibufSize := 0 } : Params).ibufOk = false := by
  decide
theorem test_obufOk_refuses_beyond :
    ({ Params.vectors with obufSize := 2 ^ 24 + 1 } : Params).obufOk = false := by decide
theorem test_baseOk_refuses_4 : ({ Params.vectors with base := 4 } : Params).baseOk = false := by decide
theorem test_wf_refuses_each :
    ({ Params.vectors with w := 3 } : Params).wf = false ∧
    ({ Params.vectors with ibufSize := 0 } : Params).wf = false ∧
    ({ Params.vectors with obufSize := 0 } : Params).wf = false ∧
    ({ Params.vectors with base := 4 } : Params).wf = false := by decide
theorem test_reservedZero_refuses_bit8 : Word.reservedZero 0x00000100#32 = false := by decide
theorem test_isDefined_refuses_opcode : Word.isDefined 0x00000010#32 = false := by decide
theorem test_isDefined_takes_decodeAll : Word.isDefined 0x0000001F#32 = true := by decide

/-! ## Words written out bit by bit (R100, R102): bits 31:8, then OPC[7:5], OPC[4], OPC[3:0] -/

/-- A command word from the fields of R100 and R101. -/
def wordOf (reserved : BitVec 24) (opc75 : BitVec 3) (direction : BitVec 1) (stage : BitVec 4) : Word :=
  reserved ++ opc75 ++ direction ++ stage

theorem test_decode_nop : decode (wordOf 0#24 0b000#3 0b0#1 0b0000#4) = .ok .nop := by decide
theorem test_decode_hufEncode : decode (wordOf 0#24 0b000#3 0b0#1 0b0001#4) = .ok .hufEncode := by decide
theorem test_decode_cubeEncode :
    decode (wordOf 0#24 0b000#3 0b0#1 0b0010#4) = .ok .cubeEncode := by decide
theorem test_decode_relabelEncode :
    decode (wordOf 0#24 0b000#3 0b0#1 0b0011#4) = .ok .relabelEncode := by decide
theorem test_decode_encodeAll : decode (wordOf 0#24 0b000#3 0b0#1 0b1111#4) = .ok .encodeAll := by decide
theorem test_decode_hufDecode : decode (wordOf 0#24 0b000#3 0b1#1 0b0001#4) = .ok .hufDecode := by decide
theorem test_decode_cubeDecode :
    decode (wordOf 0#24 0b000#3 0b1#1 0b0010#4) = .ok .cubeDecode := by decide
theorem test_decode_relabelDecode :
    decode (wordOf 0#24 0b000#3 0b1#1 0b0011#4) = .ok .relabelDecode := by decide
theorem test_decode_decodeAll : decode (wordOf 0#24 0b000#3 0b1#1 0b1111#4) = .ok .decodeAll := by decide
/-- R101: 0x10 is no command. V-K2. -/
theorem test_decode_0x10 : decode (wordOf 0#24 0b000#3 0b1#1 0b0000#4) = .error .undefinedOpcode := by
  decide
/-- V-K3. -/
theorem test_decode_reserved : decode 0x00000101#32 = .error .reservedBits := by decide

/-! ## Helpers -/

/-- The state an outcome goes on with, if it goes on. -/
def nextOf (o : Host.Outcome State Fault Refusal) : Option State :=
  match o with
  | .next t => some t
  | .fault _ => none
  | .refused _ => none

/-- The fault an outcome stops with, if it stops with one. -/
def faultOf (o : Host.Outcome State Fault Refusal) : Option Fault :=
  match o with
  | .next _ => none
  | .fault f => some f
  | .refused _ => none

/-- The state a command leaves; every command goes on. -/
def after (i : Instr) (s : State) : State :=
  match exec i s with
  | .next t => t
  | .fault _ => s
  | .refused _ => s

/-- The test key of 95_test_vectors.md. -/
def testKey : Vector Byte 1000 := tabulate 1000 fun i => BitVec.ofNat 8 (7 * i + 3)

/-- The reset state with the test key. -/
def keyed : State := { State.reset with key := testKey }

/-- A memory that lists the given cells from 0 up. -/
def listing {α : Type} (vs : List α) : Memory α := ⟨0, numberFrom 0 vs⟩

/-- The input bytes given, in IBUF. -/
def withInput (s : State) (data : List Byte) : State :=
  { s with ibuf := listing data, ilen := BitVec.ofNat 32 data.length }

/-- A stream of bytes and its length in bits, at the front of WBUF. -/
def withStream (s : State) (bytes : List Byte) (bits : Nat) : State :=
  { s with wbuf := listing (bytes.map fun b => ⟨0#24, b⟩), bitlen := BitVec.ofNat 32 bits }

/-- Frequencies given by symbol, 0 for the others. -/
def withFreq (s : State) (F : Byte → Word) : State := { s with freq := perSymbol F }

/-- A cube of side 2, smaller than the spec allows, so that a whole sort is a small test. -/
def tiny : State := { keyed with params := ⟨1, 2 ^ 24, 2 ^ 24, 0⟩ }

/-- The bytes of a word list's payloads. -/
def payloads (s : State) (n : Nat) : List Nat := (List.range n).map fun q => (s.wbufAt q).payload.toNat

/-! ## Vectors -/

/-- V-K1. -/
theorem test_nop_status : (after .nop
    { keyed with phase := .busy, status := { Status.reset with lastop := 0x00#8 } }).statusWord =
    0x00000002#32 := by decide

/-- V-H4: BITLEN and the code of c. -/
theorem test_hufEncode_bitlen :
    (after .hufEncode (withInput keyed [0x61#8, 0x62#8, 0x63#8, 0x63#8])).bitlen = 6#32 := by
  decide +kernel

/-- V-H12, from a state in which the command was accepted. -/
theorem test_hufEncode_tooLong :
    (after .hufEncode { (keyed.accept 0x01#32) with ilen := 0x01000001#32 }).statusWord =
      0x01010404#32 := by decide

/-- V-H4: the codes a = 10, b = 11, c = 0, and the packed byte 0xB0. -/
theorem test_buildTree_codes :
    let T := buildTree fun b => [0x61#8, 0x62#8, 0x63#8, 0x63#8].count b
    codeOf T 0x61#8 = some [true, false] ∧ codeOf T 0x62#8 = some [true, true] ∧
      codeOf T 0x63#8 = some [false] ∧ packByte [true, false, true, true, false, false] 0 = 0xB0#8 := by
  decide +kernel

/-- V-H11i. -/
theorem test_hufDecode_invalidCode :
    let t := after .hufDecode (withFreq (withStream (keyed.accept 0x11#32) [0x40#8] 3)
      fun b => if b = 0x41#8 then 3#32 else 0#32)
    t.statusWord = 0x11110504#32 ∧ t.olen = 1#32 ∧ t.obufAt 0 = 0x41#8 := by decide +kernel

/-- V-H11j. -/
theorem test_hufDecode_emits :
    let t := after .hufDecode (withFreq (withStream (keyed.accept 0x11#32) [0x00#8] 3)
      fun b => if b = 0x41#8 then 3#32 else 0#32)
    t.statusWord = 0x00110002#32 ∧ t.olen = 3#32 ∧ t.obufAt 2 = 0x41#8 := by decide +kernel

/-- V-C1e, V-C1f and V-C1h: new coordinates and their positions. -/
theorem test_fwd :
    lin Params.vectors (fwd Params.vectors keyed.keyShift ⟨15, 15, 15⟩) = 4091 ∧
    lin Params.vectors (fwd Params.vectors keyed.keyShift ⟨5, 9, 2⟩) = 1751 ∧
    lin Params.vectors (fwd Params.vectors keyed.keyShift ⟨0, 15, 0⟩) = 1900 := by decide +kernel

/-- V-C2: the inverse, from the fields of the word 0x8835A. -/
theorem test_inv :
    inv Params.vectors keyed.keyShift (fields Params.vectors (wordOfSlot Params.vectors 0x8835A#32)) =
      ⟨0, 0, 0⟩ := by decide +kernel

/-- R165 by hand at side 2, where every word is a tail word. TailByte(0..3) is 1, 2, 3, 4, and 0 after.
K(0) = 1 and K(1) = 0, so X turns where y = 0, and Y and Z turn where X = 0: position 0 = (0,0,0) goes
to (1,0,0) = 1, position 1 to (0,1,1) = 6, position 2 to (0,0,1) = 4, position 3 to (1,1,0) = 3. -/
theorem test_cubeEncode_side2 :
    payloads (after .cubeEncode (withFreq tiny fun b => if b = 0#8 then 0x01020304#32 else 0#32)) 8 =
      [0, 1, 0, 4, 3, 0, 2, 0] := by decide +kernel

/-- R170 by hand: the decode of those words puts the payloads back. -/
theorem test_cubeDecode_side2 :
    payloads (after .cubeDecode { tiny with
      wlen := 8#32, bitlen := 0#32
      wbuf := listing ((after .cubeEncode
        (withFreq tiny fun b => if b = 0#8 then 0x01020304#32 else 0#32)).wbuf.cells.map (·.2)) }) 8 =
      [1, 2, 3, 4, 0, 0, 0, 0] := by decide +kernel

/-- V-C9. -/
theorem test_cubeDecode_mismatch :
    (after .cubeDecode { (keyed.accept 0x12#32) with wlen := 4095#32 }).statusWord = 0x12120304#32 := by
  decide

/-- V-C7. -/
theorem test_cubeEncode_tooLong :
    (after .cubeEncode { (keyed.accept 0x02#32) with bitlen := 24545#32 }).statusWord =
      0x02020404#32 := by decide

/-- V-R1 and V-R2: the prime of KEY[0] = 3 and some positions. -/
theorem test_relabelEncode_prime :
    (after .relabelEncode keyed).prime = 7#32 ∧ stridePos Params.vectors 7 1 = 4089 ∧
      stridePos Params.vectors 7 585 = 1 ∧ stridePos Params.vectors 7 512 = 512 := by decide +kernel

/-- R193, R194 by hand at side 2: KIDX = 2 selects KEY[2] = 17 and the prime P(17) = 61, which is 5
mod 8, so pos(i) = 8 − (5i mod 8) is 3, 6, 1, 4, 7, 2, 5 for i = 1 to 7. -/
theorem test_relabelEncode_side2 :
    payloads (after .relabelEncode { (withStream tiny [0#8, 1#8, 2#8, 3#8, 4#8, 5#8, 6#8, 7#8] 0) with
      kidx := 2#10 }) 8 = [0, 3, 6, 1, 4, 7, 2, 5] := by decide +kernel

/-- R197 by hand: rank q goes back to pos(q). -/
theorem test_relabelDecode_side2 :
    payloads (after .relabelDecode { (withStream tiny [0#8, 3#8, 6#8, 1#8, 4#8, 7#8, 2#8, 5#8] 0) with
      kidx := 2#10, wlen := 8#32 }) 8 = [0, 1, 2, 3, 4, 5, 6, 7] := by decide +kernel

/-- V-R7. -/
theorem test_relabelDecode_order :
    (after .relabelDecode { (keyed.accept 0x13#32) with wlen := 4095#32, kidx := 1000#10 }).statusWord =
      0x13130304#32 := by decide

/-- V-R1, R190. -/
theorem test_selectPrime :
    selectPrime 0#8 4096 = 3 ∧ selectPrime 1#8 4096 = 3 ∧ selectPrime 100#8 4096 = 547 ∧
      selectPrime 255#8 4096 = 1619 := by decide +kernel

/-- V-K6. -/
theorem test_encodeAll_badKidx :
    (after .encodeAll { (withInput (keyed.accept 0x0F#32) [0x41#8]) with kidx := 1000#10 }).statusWord =
      0x030F0704#32 := by decide +kernel

/-- R222, as V-A1 begins: ENCODE_ALL of two bytes succeeds, with the code of each one bit long. -/
theorem test_encodeAll_status :
    let t := after .encodeAll (withInput (keyed.accept 0x0F#32) [0x41#8, 0x42#8])
    t.statusWord = 0x000F0002#32 ∧ t.bitlen = 2#32 ∧ t.prime = 7#32 := by decide +kernel

/-- V-K7. -/
theorem test_decodeAll_mismatch :
    (after .decodeAll { (keyed.accept 0x1F#32) with wlen := 4095#32 }).statusWord = 0x131F0304#32 := by
  decide

/-- V-K2 and V-K4, each one step from the accepted word. -/
theorem test_step_illegal :
    (nextOf (step (keyed.withFetchWord 32 0x00000010))).map (·.statusWord) = some 0x10100104#32 ∧
    (nextOf (step (keyed.withFetchWord 32 0xFFFFFFFF))).map (·.statusWord) = some 0xFFFF0104#32 := by
  decide

/-- V-K9: IRQ after NOP's end step with IE = 1. -/
theorem test_irq :
    (nextOf (step ({ keyed with ie := true }.withFetchWord 32 0x00000000))).map (·.irq) = some true := by
  decide

/-- V-M1, V-M4, V-M5 and V-M6. -/
theorem test_port_reads :
    (nextOf (step { keyed with inputs := rdAt keyed.params 0x000 })).map (·.reads) =
      some [0x4D484331#32] ∧
    faultOf (step { keyed with inputs := rdAt keyed.params 0x002 }) = some .busMisaligned ∧
    faultOf (step { keyed with inputs := [.access (.read 0x014 2)] }) = some .busWidth ∧
    faultOf (step { keyed with inputs := rdAt keyed.params 0x8004000 }) = some .busUnmapped := by
  decide +kernel

/-- V-M7. -/
theorem test_port_key :
    (nextOf (step { keyed with inputs := wr keyed.params (.key 0) 0x000001FF#32 })).map
      (fun t => t.slotValue (.key 0)) = some 0x000000FF#32 := by decide +kernel

/-! ## Witnesses: states and operands that meet the hypotheses of each statement -/

/-- A command just accepted, the engine to move. -/
def accepted (v : Word) : State := keyed.accept v

/-- The host's next access is a write to a location. -/
def writing (s : State) (l : Loc) (v : Word) : State := { s with inputs := wr s.params l v }

/-- The host's next access is a read of a location. -/
def reading (s : State) (l : Loc) : State := { s with inputs := rd s.params l }

/-- WLEN is not read where a word of WBUF is. -/
theorem wbufAt_wlen (s : State) (v : Word) (q : Nat) : ({ s with wlen := v }).wbufAt q = s.wbufAt q :=
  rfl

theorem after_eq (i : Instr) (s : State) : exec i s = .next (after i s) := by cases i <;> rfl

theorem witness_DecodeOfEncodeGivesTheCommand : Instr.decodeAll.wellFormed = true := by decide

theorem witness_StepRunsTheAcceptedCommand :
    (accepted 0x1F#32).phase = .busy ∧ (accepted 0x1F#32).engineNext [] ∧
      decode (accepted 0x1F#32).cur = .ok .decodeAll ∧
      ({ accepted 0x1F#32 with inputs := [.engine, .hardReset] }).engineNext [.hardReset] :=
  ⟨rfl, .inr ⟨rfl, rfl⟩, by decide, .inl rfl⟩

theorem witness_IllegalWordEndsWithIllegalCmd :
    (accepted 0x10#32).phase = .busy ∧ (accepted 0x10#32).engineNext [] ∧
      (∀ n ∈ [0x04, 0x0E, 0x10, 0x14, 0xFF, 0x100, 0xFFFFFFFF], (accepted (BitVec.ofNat 32 n)).cur.toNat ∉
        [0x00, 0x01, 0x02, 0x03, 0x0F, 0x11, 0x12, 0x13, 0x1F]) :=
  ⟨rfl, .inr ⟨rfl, rfl⟩, by decide⟩

theorem witness_IdleEngineKeepsAllState :
    ({ keyed with inputs := [.engine] }).phase = .idle ∧
      ({ keyed with inputs := [.engine] }).engineNext [] := ⟨rfl, .inl rfl⟩

theorem witness_CmdWriteIsAcceptedOrLost :
    (writing keyed .cmd 1#32).params.wf = true ∧ (writing keyed .cmd 1#32).writesNext .cmd 1#32 [] ∧
      (writing keyed .cmd 1#32).phase = .idle ∧
      (writing (accepted 0#32) .cmd 1#32).writesNext .cmd 1#32 [] ∧
      (writing (accepted 0#32) .cmd 1#32).phase = .busy := ⟨rfl, rfl, rfl, rfl, rfl⟩

theorem witness_StatusWriteClearsItsOnes :
    (writing keyed .status 0x1E#32).params.wf = true ∧
      (writing keyed .status 0x1E#32).writesNext .status 0x1E#32 [] := ⟨rfl, rfl⟩

theorem accepted_inv (v : Word) : (accepted v).Inv where
  params := rfl
  ibuf := rfl
  wbuf := rfl
  obuf := rfl
  tags := by intro c hc; simp [accepted, keyed, State.reset, State.resetOf] at hc
  doneOrErr := by simp [accepted]
  busyClear := by simp [accepted]
  noErr := by simp [accepted]
  codes := by simp [accepted]
  olen := by simp [accepted, keyed, State.reset, State.resetOf]
  eras := ⟨le_refl _, le_refl _, le_refl _⟩

theorem witness_StatusAfterTheEndOfACommand :
    (accepted 0#32).Inv ∧ (accepted 0#32).phase = .busy ∧ (accepted 0#32).engineNext [] ∧
      step (accepted 0#32) = .next (accepted 0#32).successEnd ∧
      (accepted 0#32).successEnd.status.err = false ∧
    (accepted 0x10#32).Inv ∧ (accepted 0x10#32).phase = .busy ∧ (accepted 0x10#32).engineNext [] ∧
      step (accepted 0x10#32) = .next ((accepted 0x10#32).errorEnd .illegalCmd 0x10#8) ∧
      ((accepted 0x10#32).errorEnd .illegalCmd 0x10#8).status.err = true :=
  ⟨accepted_inv _, rfl, .inr ⟨rfl, rfl⟩, rfl, rfl, accepted_inv _, rfl, .inr ⟨rfl, rfl⟩, rfl, rfl⟩

theorem witness_IrqFollowsCompletion :
    exec .nop keyed = .next keyed.successEnd ∧
    (let s := accepted 0x10#32;
      s.phase = .busy ∧ s.engineNext [] ∧ step s = .next (s.errorEnd .illegalCmd 0x10#8) ∧
        s.status.err = false ∧ (s.errorEnd .illegalCmd 0x10#8).status.err = true) ∧
    (let s := accepted 0#32;
      step s = .next s.successEnd ∧ s.status.done = false ∧ s.successEnd.status.done = true) :=
  ⟨rfl, ⟨rfl, .inr ⟨rfl, rfl⟩, rfl, rfl, rfl⟩, rfl, rfl, rfl⟩

theorem witness_OffsetsNameTheirLocations :
    Params.vectors.wf = true ∧ Loc.present Params.vectors (.key 999) ∧
      Loc.present Params.vectors (.ibuf (2 ^ 24 - 1)) ∧ Loc.present Params.vectors (.wbuf 4095) ∧
      Loc.present Params.vectors (.obuf (2 ^ 24 - 1)) ∧ Loc.present Params.vectors (.freq 255#8) ∧
      locOf Params.vectors 0x034 = some .reserved ∧ locOf Params.vectors 0xFFC = some .reserved ∧
      locOf Params.vectors 0x030 = some .obufsz ∧ locOf Params.vectors 0x1000 = some (.freq 0#8) := by
  refine ⟨rfl, ?_, ?_, ?_, ?_, trivial, by decide, by decide, by decide, by decide⟩ <;>
    simp [Loc.present, Params.vectors, Params.capacity]

theorem witness_BusErrorsAreExactlyTheIllegalAccesses :
    ({ keyed with inputs := rdAt keyed.params 0x17FC }).inputs =
      .access (.read (keyed.params.base + 0x17FC) 4) :: [] ∧
    mappedOffset keyed.params 0x17FC ∧ ¬ mappedOffset keyed.params 0x1800 ∧
    mappedOffset keyed.params 0x2F9C ∧ ¬ mappedOffset keyed.params 0x2FA0 ∧
    ({ keyed with inputs := wrAt keyed.params 0x1800 0#32 }).inputs =
      .access (.write (keyed.params.base + 0x1800) 4 0#32) :: [] := by
  refine ⟨rfl, ?_, ?_, ?_, ?_, rfl⟩ <;>
    simp [mappedOffset, keyed, State.reset, State.resetOf, Params.vectors, Params.capacity]

/-- The locations that R76 names as not engine-owned, and the reserved offsets. -/
def free : List Loc := [.id, .config, .ctrl, .status, .cmd, .ibufsz, .obufsz, .reserved]

theorem witness_HostReadReturnsTheSlot :
    (reading keyed (.wbuf 4095)).params.wf = true ∧
      Loc.present (reading keyed (.wbuf 4095)).params (.wbuf 4095) ∧
      (reading keyed (.wbuf 4095)).readsNext (.wbuf 4095) [] ∧
      ¬ ((reading keyed (.wbuf 4095)).phase = .busy ∧ Loc.wbuf 4095 ∉ free) ∧
      (reading (accepted 0#32) .status).readsNext .status [] ∧
      ¬ ((reading (accepted 0#32) .status).phase = .busy ∧ Loc.status ∉ free) ∧
      (reading (accepted 0#32) .ilen).readsNext .ilen [] ∧
      ((reading (accepted 0#32) .ilen).phase = .busy ∧ Loc.ilen ∉ free) ∧
      ({ accepted 0#32 with inputs := rdAt keyed.params 0xFFC }).inputs =
        .access (.read (keyed.params.base + 0xFFC) 4) :: [] ∧
      (accepted 0#32).Inv := by
  refine ⟨rfl, ?_, rfl, ?_, rfl, ?_, rfl, ⟨rfl, by decide⟩, rfl, accepted_inv _⟩
  · simp [Loc.present, reading, keyed, State.reset, State.resetOf, Params.vectors, Params.capacity]
  · simp [reading, keyed, State.reset, State.resetOf]
  · simp [free]

theorem witness_WritesThatStoreNothing :
    (writing (accepted 0#32) .ilen 5#32).params.wf = true ∧
      Loc.present (writing (accepted 0#32) .ilen 5#32).params .ilen ∧
      (writing (accepted 0#32) .ilen 5#32).writesNext .ilen 5#32 [] ∧
      ((writing (accepted 0#32) .ilen 5#32).phase = .busy ∧ Loc.ilen ∉ free) ∧
      (writing (accepted 0#32) .id 5#32).writesNext .id 5#32 [] ∧
      ¬ ((writing (accepted 0#32) .id 5#32).phase = .busy ∧ Loc.id ∉ free) ∧
      (writing keyed .olen 5#32).writesNext .olen 5#32 [] ∧
      ¬ ((writing keyed .olen 5#32).phase = .busy ∧ Loc.olen ∉ free) ∧
      ({ accepted 0#32 with inputs := wrAt keyed.params 0x038 5#32 }).inputs =
        .access (.write (keyed.params.base + 0x038) 4 5#32) :: [] := by
  refine ⟨rfl, trivial, rfl, ⟨rfl, by decide⟩, rfl, ?_, rfl, ?_, rfl⟩
  · simp [free]
  · simp [writing, keyed, State.reset, State.resetOf]

theorem witness_HostWriteStoresOneLocation :
    (writing keyed (.wbuf 4095) 0xFFFFFFFF#32).params.wf = true ∧
      Loc.present (writing keyed (.wbuf 4095) 0xFFFFFFFF#32).params (.wbuf 4095) ∧
      (writing keyed (.wbuf 4095) 0xFFFFFFFF#32).phase = .idle ∧
      (Loc.wbuf 4095).storedWidth (writing keyed (.wbuf 4095) 0xFFFFFFFF#32).params = some 20 ∧
      (writing keyed (.wbuf 4095) 0xFFFFFFFF#32).writesNext (.wbuf 4095) 0xFFFFFFFF#32 [] := by
  refine ⟨rfl, ?_, rfl, rfl, rfl⟩
  simp [Loc.present, writing, keyed, State.reset, State.resetOf, Params.vectors, Params.capacity]

theorem witness_CtrlWriteSetsInterruptEnable :
    (writing keyed .ctrl 0x00000001#32).params.wf = true ∧
      (0x00000001#32 : Word).getLsbD 1 = false ∧
      (writing keyed .ctrl 0x00000001#32).writesNext .ctrl 0x00000001#32 [] := ⟨rfl, by decide, rfl⟩

theorem witness_SoftResetKeepsWhatItShould :
    (writing (accepted 0x11#32) .ctrl 0x00000002#32).params.wf = true ∧
      (0x00000002#32 : Word).getLsbD 1 = true ∧
      (writing (accepted 0x11#32) .ctrl 0x00000002#32).writesNext .ctrl 0x00000002#32 [] ∧
      (writing (accepted 0x11#32) .ctrl 0x00000002#32).cur.toNat ∉
        [0x01, 0x02, 0x03, 0x0F, 0x12, 0x13, 0x1F] ∧
      (writing (accepted 0x12#32) .ctrl 0x00000002#32).cur.toNat ∉ [0x11, 0x1F] :=
  ⟨rfl, by decide, rfl, by decide, by decide⟩

theorem witness_HardwareResetGivesTheResetTable :
    ({ accepted 0x1F#32 with inputs := [.hardReset] }).inputs = .hardReset :: [] := rfl

theorem witness_CommandsKeepToTheirWriteSets (i : Instr) : exec i keyed = .next (after i keyed) :=
  after_eq i keyed

theorem witness_CommandsRaiseOnlyTheirErrors :
    let s := { keyed with kidx := 1000#10 }
    s.status.err = false ∧ exec .relabelEncode s = .next (s.failed 7#4 0x03#8) ∧
      (s.failed 7#4 0x03#8).status.err = true := ⟨rfl, rfl, rfl⟩

theorem witness_EarlyChecksWriteOnlyStatus :
    ({ keyed with ilen := 0x01000001#32 }).params.ibufSize <
      ({ keyed with ilen := 0x01000001#32 }).ilen.toNat ∧
    ({ keyed with bitlen := 24545#32 }).params.front <
      bytesFor ({ keyed with bitlen := 24545#32 }).bitlen.toNat ∧
    8 * ({ keyed with bitlen := 24545#32 }).params.front <
      ({ keyed with bitlen := 24545#32 }).bitlen.toNat ∧
    1000 ≤ ({ keyed with kidx := 1000#10 }).kidx.toNat ∧
    ({ keyed with wlen := 4097#32 }).wlen.toNat ≠ keyed.params.capacity ∧
    (({ keyed with wlen := 4096#32, kidx := 1023#10 }).wlen.toNat = keyed.params.capacity ∧
      1000 ≤ ({ keyed with wlen := 4096#32, kidx := 1023#10 }).kidx.toNat) := by decide

theorem witness_BuildTreeMergesTheTwoLeastKeys :
    let a : HuffNode := .leaf 0x62#8 1
    let b : HuffNode := .leaf 0x63#8 2
    let c : HuffNode := .node (.leaf 0x61#8 1) (.leaf 0x64#8 1) 2 256
    let two : Byte → Nat := fun s => if s = 0x61#8 then 1 else if s = 0xFF#8 then 2 else 0
    [c, b, a].Perm (a :: b :: [c]) ∧ [c, b, a].Pairwise (fun m n => m.id ≠ n.id) ∧
      (∀ n ∈ [c, b, a], n.id < 256 + 1) ∧
      (∀ n ∈ b :: [c], a.freq < n.freq ∨ (a.freq = n.freq ∧ a.id < n.id)) ∧
      (∀ n ∈ [c], b.freq < n.freq ∨ (b.freq = n.freq ∧ b.id < n.id)) ∧
      2 ≤ (leafPool two).length ∧ leafPool (fun _ => 0) = [] ∧
      leafPool (fun s => if s = 0xFF#8 then 2 else 0) = [.leaf 0xFF#8 2] ∧
      codeOf (buildTree two) 0xFF#8 = some [true] := by
  decide +kernel

theorem witness_SymbolsThatOccurHaveCodes :
    let F : Byte → Nat := fun c => if c = 255#8 then 1 else 0
    0 < F 255#8 ∧ ∀ c, c ≠ 255#8 → F c = 0 := by
  refine ⟨by decide, fun c hc => if_neg hc⟩

theorem witness_CodesArePrefixFreeAndShort :
    let F : Byte → Nat := fun c => if c = 0#8 then 1 else if c = 255#8 then 2 else 0
    codeOf (buildTree F) 0#8 = some [false] ∧ codeOf (buildTree F) 255#8 = some [true] := by
  decide +kernel

theorem witness_StreamBitsReadThePackedBits :
    let s := withStream keyed [0x80#8, 0x80#8] 9
    let bits := [true, false, false, false, false, false, false, false, true]
    ∀ q < bytesFor bits.length, (s.wbufAt q).payload = packByte bits q := by decide +kernel

theorem witness_HufEncodePacksItsInput :
    let s := withInput keyed [0x41#8, 0x41#8]
    s.params.wf = true ∧ s.ilen.toNat ≤ s.params.ibufSize ∧
      bytesFor s.inputBits.length ≤ s.params.front := by decide +kernel

/-- 24545 equal bytes, whose stream is one bit longer than the front region at W = 4. -/
def longInput : State := withInput keyed (List.replicate 24545 0#8)

theorem longInput_bytes : longInput.inputBytes = List.replicate 24545 0#8 := by
  have hl : longInput.ilen.toNat = 24545 := by
    simp only [longInput, withInput, List.length_replicate]; decide
  apply List.ext_getElem
  · simp only [State.inputBytes, List.length_map, List.length_range, List.length_replicate, hl]
  · intro i h _
    simp only [State.inputBytes, List.length_map, List.length_range, hl] at h
    simp only [State.inputBytes, List.getElem_map, List.getElem_range, List.getElem_replicate]
    simp only [State.ibufAt, Memory.listed, longInput, withInput, listing, lookup_numberFrom,
      Nat.zero_le, if_true, Nat.sub_zero, List.getElem?_replicate, h, Option.getD_some]

theorem witness_HufEncodeStreamTooLong :
    longInput.params.wf = true ∧ longInput.ilen.toNat ≤ longInput.params.ibufSize ∧
      longInput.params.front < bytesFor longInput.inputBits.length := by
  have hT : longInput.inputTree = some (.single (.leaf 0#8 24545) 24545 256) := by
    have hF : (fun b : Byte => longInput.inputBytes.count b) = fun b => if 0#8 = b then 24545 else 0 := by
      funext b; rw [longInput_bytes, List.count_replicate]; simp
    rw [State.inputTree, hF]; decide +kernel
  have hb : longInput.inputBits.length = 24545 := by
    have hc : codeOf longInput.inputTree 0#8 = some [false] := by rw [hT]; decide
    rw [State.inputBits, encodeBits, longInput_bytes, List.flatMap_replicate, hc, List.length_flatten,
      List.map_replicate, List.sum_replicate]
    rfl
  refine ⟨rfl, ?_, ?_⟩
  · simp only [longInput, withInput, List.length_replicate]; decide
  · rw [hb]; decide

theorem witness_HufEncodeBounds :
    let s := withInput keyed [0x41#8, 0x42#8]
    s.params.wf = true ∧ exec .hufEncode s = .next (after .hufEncode s) ∧
      (after .hufEncode s).status.err = false := by
  refine ⟨rfl, rfl, by decide +kernel⟩

/-- FREQ of "abcc", the table of V-H4. -/
def abcc : Byte → Word :=
  fun b => if b = 0x61#8 then 1#32 else if b = 0x62#8 then 1#32 else if b = 0x63#8 then 2#32 else 0#32

theorem witness_HufDecodeReadsTheCodes :
    let s := withFreq (withStream keyed [0xB0#8] 6) abcc
    let out := [0x61#8, 0x62#8, 0x63#8, 0x63#8]
    s.bitlen.toNat ≤ 8 * s.params.front ∧ (∀ b ∈ out, 0 < (s.freqAt b).toNat) ∧
      s.streamBits s.bitlen.toNat = encodeBits s.freqTree out ∧ out.length ≤ s.params.obufSize := by
  decide +kernel

theorem witness_HufDecodeInvalidCode :
    (let s := withStream keyed [0#8] 1;
      s.bitlen.toNat ≤ 8 * s.params.front ∧ 0 < s.bitlen.toNat) ∧
    (∀ b, (withStream keyed [0#8] 1).freqAt b = 0#32) ∧
    (let s := withFreq (withStream keyed [0x40#8] 3) fun b => if b = 0x41#8 then 3#32 else 0#32;
      s.bitlen.toNat ≤ 8 * s.params.front ∧ s.freqAt 0x41#8 ≠ 0#32 ∧
      s.streamBits s.bitlen.toNat = List.replicate 1 false ++ true :: [false] ∧
      1 ≤ s.params.obufSize) ∧
    (∀ c, c ≠ 0x41#8 → (withFreq (withStream keyed [0x40#8] 3)
      fun b => if b = 0x41#8 then 3#32 else 0#32).freqAt c = 0#32) := by
  refine ⟨by decide +kernel, fun b => ?_, by decide +kernel, fun c hc => ?_⟩
  · exact tabulate_getElem 256 (fun _ => 0#32) b.toNat b.isLt
  · rw [State.freqAt_of_eq (F := fun b => if b = 0x41#8 then 3#32 else 0#32) rfl, if_neg hc]

theorem witness_HufDecodeOutputOverflow :
    let s := withFreq { (withStream keyed [0#8] 3) with params := ⟨4, 1, 1, 0⟩ }
      fun b => if b = 0x41#8 then 3#32 else 0#32
    let out := [0x41#8, 0x41#8]
    s.bitlen.toNat ≤ 8 * s.params.front ∧ (∀ b ∈ out, 0 < (s.freqAt b).toNat) ∧
      out.length = s.params.obufSize + 1 ∧
      s.streamBits s.bitlen.toNat = encodeBits s.freqTree out ++ [false] := by decide +kernel

theorem witness_HufDecodeUnderrunInsideACode :
    let s := withFreq (withStream keyed [0x40#8] 2) abcc
    let out := [0x63#8]
    s.bitlen.toNat ≤ 8 * s.params.front ∧ (∀ a ∈ out, 0 < (s.freqAt a).toNat) ∧
      out.length ≤ s.params.obufSize ∧ codeOf s.freqTree 0x61#8 = some [true, false] ∧
      [true] <+: [true, false] ∧ [true] ≠ [true, false] ∧ [true] ≠ [] ∧
      s.streamBits s.bitlen.toNat = encodeBits s.freqTree out ++ [true] := by decide +kernel

theorem witness_HuffmanRoundTrip :
    let s := withInput keyed [0x41#8, 0x42#8]
    let a := after .hufEncode s
    s.params.wf = true ∧ exec .hufEncode s = .next a ∧ a.status.err = false ∧ a.params = s.params ∧
      (∀ q < bytesFor a.bitlen.toNat, (a.wbufAt q).payload = (a.wbufAt q).payload) ∧
      s.ilen.toNat ≤ s.params.obufSize := by
  refine ⟨rfl, rfl, by decide +kernel, rfl, fun _ _ => rfl, by decide⟩

theorem witness_WordLayoutRoundTrips :
    Params.vectors.wf = true ∧ 15 < Params.vectors.side ∧ ¬ 16 < Params.vectors.side := by decide

theorem witness_FwdAndInvAreInverse : (0 : Nat) < Params.reference.side ∧ 255 < Params.reference.side := by
  decide

theorem witness_LiteralLoopWritesFwd :
    keyed.params.wf = true ∧ 0 < keyed.params.side ∧ 15 < keyed.params.side := by decide

theorem witness_CubeEncodePlacesEveryPayload :
    let s := { keyed with bitlen := 24544#32 }
    s.params.wf = true ∧ bytesFor s.bitlen.toNat ≤ s.params.front := by decide

theorem witness_TailLayoutIsBigEndian : 3 < 4 := by decide

theorem witness_CubeDecodeSortsTheUnshiftedWords :
    let s := { keyed with wlen := 4096#32 }
    s.params.wf = true ∧ s.wlen.toNat = s.params.capacity := by decide

theorem witness_CubeRoundTrip :
    let s := { keyed with bitlen := 24544#32 }
    let a := after .cubeEncode s
    let d := { a with wlen := 4096#32 }
    s.params.wf = true ∧ exec .cubeEncode s = .next a ∧ a.status.err = false ∧ d.params = s.params ∧
      (∀ i < s.params.side, d.keyAt i = s.keyAt i) ∧ d.wlen.toNat = s.params.capacity ∧
      ∀ q < s.params.capacity, d.wbufAt q = a.wbufAt q := by
  exact ⟨rfl, rfl, by decide +kernel, rfl, fun _ _ => rfl, by decide, fun q _ => wbufAt_wlen _ _ q⟩

theorem witness_SelectedPrimeIsOdd : Params.reference.wf = true := by decide

theorem witness_StrideMapIsABijection :
    Params.vectors.wf = true ∧ 1 ≤ 4095 ∧ 4095 < Params.vectors.capacity := by decide

theorem witness_RelabelEncodeClosedForm :
    let s := { keyed with kidx := 999#10 }
    s.params.wf = true ∧ s.kidx.toNat < 1000 ∧ 4095 < s.params.capacity := by decide

/-- The tag array of the test key's prime 7 at W = 4: 585 undoes the stride (V-R2: pos(585) = 1). -/
theorem witness_RelabelEncodeAgreesWithTheTagArray :
    let t := after .relabelEncode keyed
    let tag : Nat → Nat := fun q => 585 * q % 4096
    keyed.params.wf = true ∧ exec .relabelEncode keyed = .next t ∧ t.status.err = false ∧ tag 0 = 0 ∧
      ∀ i, 1 ≤ i → i < keyed.params.capacity → tag (stridePos keyed.params t.prime.toNat i) = i := by
  have hp : (after .relabelEncode keyed).prime.toNat = 7 := by decide +kernel
  have hc : keyed.params.capacity = 4096 := by decide
  refine ⟨rfl, rfl, by decide, rfl, fun i h1 h2 => ?_⟩
  simp only [stridePos, hp, hc] at h2 ⊢
  omega

theorem witness_RelabelDecodeClosedForm :
    let s := { keyed with wlen := 4096#32, kidx := 999#10 }
    s.params.wf = true ∧ s.wlen.toNat = s.params.capacity ∧ s.kidx.toNat < 1000 := by decide

theorem witness_RelabelFixedPoints :
    1 ≤ 4095 ∧ 4095 < Params.vectors.capacity ∧ Params.vectors.w = 4 ∧ 512 < Params.vectors.capacity := by
  decide

/-- A cube whose words have their positions as tags. -/
def inOrder : State := keyed.storeCube (cubeWords keyed.params fun q => tagged q 0#8)

theorem witness_RelabelRoundTrip :
    let a := after .relabelEncode inOrder
    let d := { a with wlen := 4096#32 }
    inOrder.params.wf = true ∧
      (∀ q < inOrder.params.capacity, (inOrder.wbufAt q).tag.toNat = q) ∧
      exec .relabelEncode inOrder = .next a ∧ a.status.err = false ∧ d.params = inOrder.params ∧
      d.keyAt inOrder.kidx.toNat = inOrder.keyAt inOrder.kidx.toNat ∧ d.kidx = inOrder.kidx ∧
      d.wlen.toNat = inOrder.params.capacity ∧
      ∀ r < inOrder.params.capacity, (d.wbufAt r).payload = (a.wbufAt r).payload := by
  refine ⟨rfl, fun q hq => ?_, rfl, by decide, rfl, rfl, rfl, by decide, fun _ _ => rfl⟩
  have hq' : q < keyed.params.capacity := hq
  rw [inOrder, State.wbufAt_storeCube, cubeWords, dif_pos (by simpa using hq')]
  simp only [List.getElem_map, List.getElem_range]
  exact tagged_tag keyed.params rfl hq' 0#8

/-- A side-2 cube of zero words, its BITLEN word among them. -/
def tinyZeros : State := { (withStream tiny (List.replicate 8 0#8) 0) with wlen := 8#32 }

/-- HUF_DECODE of no bits succeeds, whatever FREQ holds (R141). -/
theorem after_hufDecode_noBits {s : State} (h : s.bitlen = 0#32) :
    (after .hufDecode s).status.err = s.status.err := by
  have hw : s.hufWalk.err = none := by
    have hb : s.streamBits s.bitlen.toNat = [] := by rw [h]; rfl
    rw [State.hufWalk, hb]
    cases s.freqTree <;> rfl
  simp only [after, exec, execHufDecode]
  rw [hufDecodeBody_walks (by rw [h]; exact Nat.zero_le _), hw]
  rfl

theorem witness_PipelineCommandsRunTheirStages :
    ((after .hufEncode (withInput tiny [])).status.err = false ∧
      (after .cubeEncode (after .hufEncode (withInput tiny []))).status.err = false ∧
      (after .relabelEncode (after .cubeEncode (after .hufEncode (withInput tiny [])))).status.err =
        false) ∧
    (after .relabelDecode tinyZeros).status.err = false ∧
      (after .cubeDecode (after .relabelDecode tinyZeros)).status.err = false ∧
      (after .hufDecode (after .cubeDecode (after .relabelDecode tinyZeros))).status.err = false := by
  refine ⟨by decide +kernel, by decide +kernel, by decide +kernel, ?_⟩
  rw [after_hufDecode_noBits (by decide +kernel)]
  decide +kernel

theorem witness_EncodeAllPlacesEveryByte :
    let s := withInput keyed [0x41#8, 0x42#8]
    s.params.wf = true ∧ s.ilen.toNat ≤ s.params.ibufSize ∧
      bytesFor s.inputBits.length ≤ s.params.front ∧ s.kidx.toNat < 1000 := by decide +kernel

theorem witness_EncodeAllStopsAtTheFirstError :
    (let s := { keyed with ilen := 0x01000001#32 };
      s.status.err = false ∧ (after .hufEncode s).status.err = true) ∧
    (let s := { (withInput keyed [0x41#8]) with kidx := 1000#10 };
      (after .hufEncode s).status.err = false ∧
      (after .cubeEncode (after .hufEncode s)).status.err = false ∧ 1000 ≤ s.kidx.toNat) := by
  decide +kernel

/-- Words by position that hold, after the relabel and the cube are undone, the bytes `g`; WLEN = C. -/
def filed (g : Nat → Byte) : State :=
  { keyed.storeCube (cubeWords keyed.params fun i => tagged 0 (g (lin keyed.params
      (inv keyed.params keyed.keyShift (decomp keyed.params (relabelSource keyed.params
        (selectPrime (keyed.keyAt keyed.kidx.toNat) keyed.params.capacity) i)))))) with wlen := 4096#32 }

theorem filed_payload (g : Nat → Byte) {i : Nat} (h : i < keyed.params.capacity) :
    ((filed g).wbufAt i).payload = g (lin keyed.params (inv keyed.params keyed.keyShift
      (decomp keyed.params (relabelSource keyed.params
        (selectPrime (keyed.keyAt keyed.kidx.toNat) keyed.params.capacity) i)))) := by
  rw [filed, wbufAt_wlen, State.wbufAt_storeCube, cubeWords, dif_pos (by simpa using h)]
  simp only [List.getElem_map, List.getElem_range, tagged_payload]

/-- A file that holds the two symbols B and A: the table A = 1, B = 1, the length 2 and the stream 10. -/
theorem witness_DecodeAllReadsTheFile :
    let F : Byte → Word := fun b => if b = 0x41#8 ∨ b = 0x42#8 then 1#32 else 0#32
    let g : Nat → Byte := fun q => if q = 0 then 0x80#8 else if 3068 ≤ q then tailByteOf F 2#32 (q - 3068)
      else 0#8
    let s := filed g
    let out : List Byte := [0x42#8, 0x41#8]
    s.params.wf = true ∧ s.wlen.toNat = s.params.capacity ∧ s.kidx.toNat < 1000 ∧
      (∀ i < s.params.capacity, (s.wbufAt i).payload = g (lin s.params (inv s.params s.keyShift
        (decomp s.params (relabelSource s.params
          (selectPrime (s.keyAt s.kidx.toNat) s.params.capacity) i))))) ∧
      (∀ r < 1028, g (s.params.front + r) = tailByteOf F 2#32 r) ∧
      (2#32).toNat ≤ 8 * s.params.front ∧ (∀ b ∈ out, 0 < (F b).toNat) ∧
      ((List.range (2#32).toNat).map fun t => (g (t / 8)).getLsbD (7 - t % 8)) =
        encodeBits (buildTree fun b => (F b).toNat) out ∧
      out.length ≤ s.params.obufSize := by
  refine ⟨rfl, by decide, by decide, fun i hi => filed_payload _ hi, fun r _ => ?_, by decide, by decide,
    by decide +kernel, by decide⟩
  have hf : ∀ g, (filed g).params.front = 3068 := fun _ => (by decide : keyed.params.front = 3068)
  simp only [hf]
  rw [if_neg (by omega), if_pos (by omega), Nat.add_sub_cancel_left]

theorem witness_DecodeAllStopsAtTheFirstError :
    ({ keyed with wlen := 4095#32 }).wlen.toNat ≠ keyed.params.capacity ∧
    (({ keyed with wlen := 4096#32, kidx := 1000#10 }).wlen.toNat = keyed.params.capacity ∧
      1000 ≤ ({ keyed with wlen := 4096#32, kidx := 1000#10 }).kidx.toNat) ∧
    (let s := { (withStream tiny (List.replicate 8 1#8) 0) with wlen := 8#32 };
      let a := after .relabelDecode s;
      let b := after .cubeDecode a;
      let c := after .hufDecode b;
      a.status.err = false ∧ b.status.err = false ∧ c.status.err = true) := by decide +kernel

/-- ENCODE_ALL leaves what its stages leave: the parameters, KEY and KIDX (R56). -/
theorem after_encodeAll_keeps (s : State) : (after .encodeAll s).params = s.params ∧
    (after .encodeAll s).key = s.key ∧ (after .encodeAll s).kidx = s.kidx := by
  simp only [after, exec, execEncodeAll]
  have hp := hufEncodeBody_params s
  have hk := hufEncodeBody_key s
  have hx := hufEncodeBody_kidx s
  cases h : hufEncodeBody s with
  | error e u => rw [h] at hp hk hx; exact ⟨hp, hk, hx⟩
  | ok u =>
    rw [h, StageEnd.left_ok] at hp hk hx
    have hp₁ := cubeEncodeBody_params u
    have hk₁ := cubeEncodeBody_key u
    have hx₁ := cubeEncodeBody_kidx u
    rw [StageEnd.thenDo_ok]
    cases h₁ : cubeEncodeBody u with
    | error e v =>
      rw [h₁] at hp₁ hk₁ hx₁; exact ⟨hp₁.trans hp, hk₁.trans hk, hx₁.trans hx⟩
    | ok v =>
      rw [h₁, StageEnd.left_ok] at hp₁ hk₁ hx₁
      have hp₂ := relabelEncodeBody_params v
      have hk₂ := relabelEncodeBody_key v
      have hx₂ := relabelEncodeBody_kidx v
      rw [StageEnd.thenDo_ok]
      cases h₂ : relabelEncodeBody v with
      | error e w =>
        rw [h₂] at hp₂ hk₂ hx₂
        exact ⟨hp₂.trans (hp₁.trans hp), hk₂.trans (hk₁.trans hk), hx₂.trans (hx₁.trans hx)⟩
      | ok w =>
        rw [h₂] at hp₂ hk₂ hx₂
        exact ⟨hp₂.trans (hp₁.trans hp), hk₂.trans (hk₁.trans hk), hx₂.trans (hx₁.trans hx)⟩

theorem encoded_withLength_keeps (s : State) (v : Word) :
    ({ after .encodeAll s with wlen := v }).params = s.params ∧
      ({ after .encodeAll s with wlen := v }).key = s.key ∧
      ({ after .encodeAll s with wlen := v }).kidx = s.kidx := after_encodeAll_keeps s

theorem witness_FullRoundTrip :
    let s := withInput keyed [0x41#8, 0x42#8]
    let a := after .encodeAll s
    let d := { a with wlen := 4096#32 }
    s.params.wf = true ∧ exec .encodeAll s = .next a ∧ a.status.err = false ∧ d.params = s.params ∧
      d.key = s.key ∧ d.kidx = s.kidx ∧ d.wlen.toNat = s.params.capacity ∧
      (∀ r < s.params.capacity, (d.wbufAt r).payload = (a.wbufAt r).payload) ∧
      s.ilen.toNat ≤ s.params.obufSize := by
  have h := encoded_withLength_keeps (withInput keyed [0x41#8, 0x42#8]) 4096#32
  exact ⟨rfl, rfl, by decide +kernel, h.1, h.2.1, h.2.2, by decide +kernel,
    fun q _ => congrArg CubeWord.payload (wbufAt_wlen _ _ q),
    by decide +kernel⟩

theorem witness_EveryStepKeepsTheInvariant :
    (accepted 0#32).Inv ∧ step (accepted 0#32) = .next (accepted 0#32).successEnd :=
  ⟨accepted_inv _, rfl⟩

theorem witness_ResetHasTheInvariant : Params.reference.wf = true := by decide

end Sys2Proof.Tests
end

section
/-! Proofs about the word layout (R16): the value of a packed word as a number, and the round trips of
packing and unpacking. -/

namespace Sys2Proof.Machine

/-- The value of a packed word is lin of its coordinate above the payload byte (R16, R18). -/
theorem pack_value (p : Params) (hp : p.wf = true) {c : Coord} (h : Coord.inCube p c) (b : Byte) :
    (pack p c b).value = lin p c * 256 + b.toNat := by
  rw [CubeWord.value, pack_tag p hp h, pack_payload]

/-- lin above a payload byte, as the three coordinate fields at their bit positions (R16). -/
theorem lin_mul_256 (p : Params) (c : Coord) :
    lin p c * 256 = c.z * 2 ^ (8 + 2 * p.w) + c.y * 2 ^ (8 + p.w) + c.x * 2 ^ 8 := by
  simp only [lin, Params.side, pow_add, ← pow_mul, Nat.mul_comm p.w 2]
  ring

/-- The slot value of a packed word, with each field at its bit position (R16, R47). -/
theorem pack_toWord_toNat (p : Params) (hp : p.wf = true) {c : Coord} (h : Coord.inCube p c)
    (b : Byte) : (pack p c b).toWord.toNat =
      c.z * 2 ^ (8 + 2 * p.w) + c.y * 2 ^ (8 + p.w) + c.x * 2 ^ 8 + b.toNat := by
  rw [cubeWord_toWord_toNat, pack_value p hp h, lin_mul_256]

/-- Settles O38, from the lemmas about lin, decomp, pack and fields and the word's slot value. -/
theorem wordLayoutRoundTrips : Obligations.WordLayoutRoundTrips := by
  intro p c b hp hx hy hz
  have h : Coord.inCube p c := ⟨hx, hy, hz⟩
  exact ⟨decomp_lin p h, lin_lt p h, fields_pack p hp h b, pack_payload p c b,
    pack_toWord_toNat p hp h b, pack_eq_tagged p h b⟩

end Sys2Proof.Machine
end

section
/-! Proofs about the sequence of primes (R19): the model's search gives Mathlib's enumeration of the
primes. -/

namespace Sys2Proof.Machine

/-- The enumeration of the primes is fixed by its first element and by the absence of primes between
neighbours, and `nthPrime` has both. -/
theorem nthPrime_eq_nth (j : Nat) : nthPrime j = Nat.nth Nat.Prime j := by
  induction j with
  | zero => exact Nat.nth_prime_zero_eq_two.symm
  | succ j ih =>
    obtain ⟨hlt, hgap⟩ := nthPrime_succ j
    have hnth : nthPrime j < Nat.nth Nat.Prime (j + 1) :=
      ih ▸ Nat.nth_strictMono Nat.infinite_setOfPred_prime j.lt_succ_self
    apply le_antisymm
    · by_contra hlater
      exact hgap _ hnth (not_le.1 hlater) (Nat.prime_nth_prime (j + 1))
    · by_contra hearlier
      have hle : nthPrime (j + 1) ≤ Nat.nth Nat.Prime j :=
        Nat.le_nth_of_lt_nth_succ (not_le.1 hearlier) (nthPrime_prime (j + 1))
      omega

/-- Settles O45, by induction on the index. -/
theorem nthPrimeIsTheStandardSequence : Obligations.NthPrimeIsTheStandardSequence :=
  nthPrime_eq_nth

end Sys2Proof.Machine
end

section
/-! Proofs about the end of every command (R53, R245) and about the state each command leaves alone (R56).
A command is its list of stages, so a property that every one of its stages keeps, and that does not look
at the phase or STATUS, is kept by the command. -/

namespace Sys2Proof.Machine

/-! The stages of a command -/

/-- The six stages commands are made of. -/
inductive Stage where
  | hufEncode | cubeEncode | relabelEncode | hufDecode | cubeDecode | relabelDecode

/-- What a stage does before the command's end (R130, R140, R165, R170, R194, R197). -/
def Stage.body : Stage → State → StageEnd
  | .hufEncode => hufEncodeBody
  | .cubeEncode => cubeEncodeBody
  | .relabelEncode => relabelEncodeBody
  | .hufDecode => hufDecodeBody
  | .cubeDecode => cubeDecodeBody
  | .relabelDecode => relabelDecodeBody

/-- The opcode a stage's error is reported under (R222, R223, R245). -/
def Stage.op : Stage → Byte
  | .hufEncode => 0x01#8
  | .cubeEncode => 0x02#8
  | .relabelEncode => 0x03#8
  | .hufDecode => 0x11#8
  | .cubeDecode => 0x12#8
  | .relabelDecode => 0x13#8

/-- The stages a command runs, in turn (R221 to R223). -/
def stagesOf : Instr → List Stage
  | .nop => []
  | .hufEncode => [.hufEncode]
  | .cubeEncode => [.cubeEncode]
  | .relabelEncode => [.relabelEncode]
  | .encodeAll => [.hufEncode, .cubeEncode, .relabelEncode]
  | .hufDecode => [.hufDecode]
  | .cubeDecode => [.cubeDecode]
  | .relabelDecode => [.relabelDecode]
  | .decodeAll => [.relabelDecode, .cubeDecode, .hufDecode]

/-- Run stages in turn up to the first error, then end the command (R53, R245). -/
def runStages : List Stage → State → State
  | [], s => s.successEnd
  | g :: gs, s => (g.body s).thenDo g.op (runStages gs)

/-- A command runs its stages. -/
theorem exec_eq_runStages (i : Instr) (s : State) : exec i s = .next (runStages (stagesOf i) s) := by
  cases i <;> rfl

/-- What each of the stages keeps, and a change of phase and STATUS too, a run of them keeps. -/
theorem runStages_keeps {P : State → Prop} (hctl : ∀ u ph st, P u → P (u.withControl ph st)) :
    ∀ gs : List Stage, (∀ g ∈ gs, ∀ u, P u → P (g.body u).left) → ∀ s, P s → P (runStages gs s)
  | [], _, s, hs => hctl s _ _ hs
  | g :: gs, hstage, s, hs => by
    have hleft : P (g.body s).left := hstage g List.mem_cons_self s hs
    have ih := runStages_keeps hctl gs fun g' h => hstage g' (List.mem_cons_of_mem _ h)
    rw [runStages]
    rcases (g.body s).thenDo_cases g.op (runStages gs) with ⟨u, hbody, hrun⟩ | ⟨e, u, hbody, hrun⟩
    · rw [hrun]
      exact ih u (by simpa [hbody] using hleft)
    · rw [hrun]
      exact hctl u _ _ (by simpa [hbody] using hleft)

/-- Fields that every stage of a command keeps, other than the phase and STATUS, the command keeps. -/
theorem exec_keeps {α : Type} (field : State → α)
    (hctl : ∀ u ph st, field (State.withControl u ph st) = field u) {i : Instr} {s t : State}
    (h : exec i s = .next t) (hstage : ∀ g ∈ stagesOf i, ∀ u, field (g.body u).left = field u) :
    field t = field s := by
  rw [exec_eq_runStages] at h
  cases h
  exact runStages_keeps (P := fun u => field u = field s) (fun u ph st hu => (hctl u ph st).trans hu)
    (stagesOf i) (fun g hmem u hu => (hstage g hmem u).trans hu) s rfl

/-! What each stage keeps (R56) -/

/-- No stage writes KEY, IBUF, ILEN, WLEN, KIDX, CTRL or the constants. -/
theorem Stage.keeps_hostState (g : Stage) (u : State) :
    (g.body u).left.params = u.params ∧ (g.body u).left.key = u.key ∧
      (g.body u).left.ibuf = u.ibuf ∧ (g.body u).left.ilen = u.ilen ∧
      (g.body u).left.wlen = u.wlen ∧ (g.body u).left.kidx = u.kidx ∧ (g.body u).left.ie = u.ie := by
  cases g with
  | hufEncode => rw [body, hufEncodeBody_frame]; simp
  | cubeEncode => rw [body, cubeEncodeBody_frame]; simp
  | relabelEncode => rw [body, relabelEncodeBody_frame]; simp
  | hufDecode => rw [body, hufDecodeBody_frame]; simp
  | cubeDecode => rw [body, cubeDecodeBody_frame]; simp
  | relabelDecode => rw [body, relabelDecodeBody_frame]; simp

/-- FREQ and BITLEN are written by HUF_ENCODE and CUBE_DECODE alone. -/
theorem Stage.keeps_freq_bitlen {g : Stage} (h : g ≠ .hufEncode ∧ g ≠ .cubeDecode) (u : State) :
    (g.body u).left.freq = u.freq ∧ (g.body u).left.bitlen = u.bitlen := by
  cases g with
  | hufEncode | cubeDecode => simp at h
  | cubeEncode => rw [body, cubeEncodeBody_frame]; simp
  | relabelEncode => rw [body, relabelEncodeBody_frame]; simp
  | hufDecode => rw [body, hufDecodeBody_frame]; simp
  | relabelDecode => rw [body, relabelDecodeBody_frame]; simp

/-- CODELEN is written by the Huffman stages alone. -/
theorem Stage.keeps_codelen {g : Stage} (h : g ≠ .hufEncode ∧ g ≠ .hufDecode) (u : State) :
    (g.body u).left.codelen = u.codelen := by
  cases g with
  | hufEncode | hufDecode => simp at h
  | cubeEncode => rw [body, cubeEncodeBody_frame]
  | relabelEncode => rw [body, relabelEncodeBody_frame]
  | cubeDecode => rw [body, cubeDecodeBody_frame]
  | relabelDecode => rw [body, relabelDecodeBody_frame]

/-- PRIME is written by the relabel stages alone. -/
theorem Stage.keeps_prime {g : Stage} (h : g ≠ .relabelEncode ∧ g ≠ .relabelDecode) (u : State) :
    (g.body u).left.prime = u.prime := by
  cases g with
  | relabelEncode | relabelDecode => simp at h
  | hufEncode => rw [body, hufEncodeBody_frame]
  | cubeEncode => rw [body, cubeEncodeBody_frame]
  | hufDecode => rw [body, hufDecodeBody_frame]
  | cubeDecode => rw [body, cubeDecodeBody_frame]

/-- OLEN and OBUF are written by HUF_DECODE alone. -/
theorem Stage.keeps_olen_obuf {g : Stage} (h : g ≠ .hufDecode) (u : State) :
    (g.body u).left.olen = u.olen ∧ (g.body u).left.obuf = u.obuf := by
  cases g with
  | hufDecode => simp at h
  | hufEncode => rw [body, hufEncodeBody_frame]; simp
  | cubeEncode => rw [body, cubeEncodeBody_frame]; simp
  | relabelEncode => rw [body, relabelEncodeBody_frame]; simp
  | cubeDecode => rw [body, cubeDecodeBody_frame]; simp
  | relabelDecode => rw [body, relabelDecodeBody_frame]; simp

/-- HUF_DECODE does not write WBUF. -/
theorem Stage.hufDecode_keeps_wbuf (u : State) : (Stage.hufDecode.body u).left.wbuf = u.wbuf := by
  rw [body, hufDecodeBody_frame]

/-! How a command ends -/

/-- What the end of a command makes of STATUS: DONE, or ERR with a code and an opcode (R53, R245). -/
def Status.EndsAs (st st' : Status) : Prop :=
  st' = { st with done := true } ∨
    ∃ (e : CmdError) (op : Byte), st' = { st with err := true, errcode := e.code, errop := op }

/-- Every command ends IDLE, with success or an error in STATUS. -/
theorem exec_next (i : Instr) (s : State) :
    ∃ t, exec i s = .next t ∧ t.phase = .idle ∧ s.status.EndsAs t.status := by
  obtain ⟨u, st, hexec, hend, hstatus⟩ := exec_ends i s
  rw [hstatus] at hend
  exact ⟨_, hexec, rfl, hend⟩

/-- The engine ends every accepted word, an illegal one too, IDLE and with success or an error in
STATUS (R103, R220). -/
theorem endCommand_next (s : State) :
    ∃ t, endCommand s = .next t ∧ t.phase = .idle ∧ s.status.EndsAs t.status := by
  unfold endCommand
  cases s.fetch with
  | ok i => exact exec_next i s
  | error _ => exact ⟨_, rfl, rfl, .inr ⟨_, _, rfl⟩⟩

/-- Settles O21: the end sets DONE or ERR and leaves LASTOP, OVR and BACC. -/
theorem everyCommandEnds : Obligations.EveryCommandEnds := by
  intro i s
  obtain ⟨t, hexec, hidle, hend⟩ := exec_next i s
  refine ⟨t, hexec, hidle, ?_⟩
  rcases hend with hok | ⟨e, op, herr⟩
  · simp [hok]
  · simp [herr]

/-- Settles O22: each clause holds of the command because it holds of every stage it runs. -/
theorem commandsKeepToTheirWriteSets : Obligations.CommandsKeepToTheirWriteSets := by
  intro i s t h
  have hhost := exec_keeps
    (fun u => (u.params, u.key, u.ibuf, u.ilen, u.wlen, u.kidx, u.ie)) (fun _ _ _ => rfl) h
    fun g _ u => by simp [g.keeps_hostState u]
  simp only [Prod.mk.injEq] at hhost
  obtain ⟨t', hexec, hidle, hend⟩ := exec_next i s
  obtain rfl : t' = t := by simpa [hexec] using h
  refine ⟨hhost, ?freq, ?codelen, ?prime, ?obuf, ?wbuf, hidle, ?status⟩
  case freq =>
    intro hi
    have := exec_keeps (fun u => (u.freq, u.bitlen)) (fun _ _ _ => rfl) h <| by
      cases i with
      | hufEncode | encodeAll | cubeDecode | decodeAll => simp at hi
      | _ => simp [stagesOf, Stage.keeps_freq_bitlen]
    exact Prod.mk.inj this
  case codelen =>
    intro hi
    refine exec_keeps (·.codelen) (fun _ _ _ => rfl) h ?_
    cases i with
    | hufEncode | encodeAll | hufDecode | decodeAll => simp at hi
    | _ => simp [stagesOf, Stage.keeps_codelen]
  case prime =>
    intro hi
    refine exec_keeps (·.prime) (fun _ _ _ => rfl) h ?_
    cases i with
    | relabelEncode | encodeAll | relabelDecode | decodeAll => simp at hi
    | _ => simp [stagesOf, Stage.keeps_prime]
  case obuf =>
    intro hi
    have := exec_keeps (fun u => (u.olen, u.obuf)) (fun _ _ _ => rfl) h <| by
      cases i with
      | hufDecode | decodeAll => simp at hi
      | _ => simp [stagesOf, Stage.keeps_olen_obuf]
    obtain ⟨holen, hobuf⟩ := Prod.mk.inj this
    exact ⟨holen, fun n => congrFun (State.obufAt_congr hobuf) n⟩
  case wbuf =>
    intro hi q
    have hwbuf := exec_keeps (·.wbuf) (fun _ _ _ => rfl) h <| by
      cases i with
      | nop => simp [stagesOf]
      | hufDecode => simp [stagesOf, Stage.hufDecode_keeps_wbuf]
      | _ => simp at hi
    exact congrFun (State.wbufAt_congr hhost.1 hwbuf) q
  case status =>
    exact hend.imp_right fun ⟨e, op, herr⟩ => ⟨e.code, op, herr⟩

/-! STATUS after the end -/

/-- The engine's turn while BUSY ends the command (R220). -/
theorem step_engineNext {s : State} {rest : List Input} (hbusy : s.phase = .busy)
    (h : s.engineNext rest) : step s = endCommand { s with inputs := rest } := by
  rcases h with hin | ⟨hin, rfl⟩
  · simp only [step, hin, engineTurn, hbusy]
  · have hs : ({ s with inputs := [] } : State) = s := by rw [← hin]
    rw [hs]
    simp only [step, hin, engineTurn, hbusy]

/-- Settles O10: acceptance left DONE, ERR, ERRCODE and ERROP 0, and the end sets DONE or ERR. -/
theorem statusAfterTheEndOfACommand : Obligations.StatusAfterTheEndOfACommand := by
  intro s t rest hinv hbusy hnext hstep
  rw [step_engineNext hbusy hnext] at hstep
  obtain ⟨t', hend, hidle, hstatus⟩ := endCommand_next { s with inputs := rest }
  obtain rfl : t' = t := by simpa [hend] using hstep
  obtain ⟨hdone, herr⟩ := hinv.busyClear hbusy
  obtain ⟨hcode, hop⟩ := hinv.noErr herr
  rw [statusWord_toNat]
  rcases hstatus with hok | ⟨e, op, hfail⟩
  · simp [hok, State.isBusy, hidle, herr, hcode, hop]
  · simp [hfail, State.isBusy, hidle, hdone]

end Sys2Proof.Machine
end

section
/-! Proofs about the STATUS word (R34): the bit at each place, and the acknowledge (R248) as a mask of
bits. -/

namespace Sys2Proof.Machine

/-- STATUS bit by bit (R34). -/
theorem statusWord_getLsbD (s : State) (i : Nat) : s.statusWord.getLsbD i =
    if i < 1 then s.isBusy else if i < 2 then s.status.done else if i < 3 then s.status.err
    else if i < 4 then s.status.ovr else if i < 5 then s.status.bacc else if i < 8 then false
    else if i < 12 then s.status.errcode.getLsbD (i - 8) else if i < 16 then false
    else if i < 24 then s.status.lastop.getLsbD (i - 16) else s.status.errop.getLsbD (i - 24) := by
  rw [State.statusWord, BitVec.getLsbD_append (n := 8 + 8 + 4 + 4 + 3 + 1 + 1 + 1 + 1)]
  simp only [BitVec.getLsbD_append, BitVec.getLsbD_ofBool, BitVec.getLsbD_zero, Nat.sub_sub]
  grind (splits := 20)

/-- Settles O8, bit by bit. -/
theorem statusWordHasTheLayout : Obligations.StatusWordHasTheLayout := by
  intro s
  refine ⟨?busy, ?done, ?err, ?ovr, ?bacc, ?low, ?errcode, ?high, ?lastop, ?errop⟩
  case busy | done | err | ovr | bacc => rw [statusWord_getLsbD]; rfl
  case low | errcode | high | lastop | errop =>
    apply BitVec.eq_of_getLsbD_eq
    intro i hi
    simp only [BitVec.getLsbD_extractLsb', statusWord_getLsbD, BitVec.getLsbD_zero]
    grind

/-- The acknowledge clears the bits of STATUS that the written word has a 1 for, and ERRCODE and ERROP
with ERR (R34). -/
theorem statusWord_acknowledge (s : State) (v : Word) :
    ({ s with status := s.status.acknowledge v } : State).statusWord = s.statusWord &&&
      ~~~((v &&& 0x0000001A#32) ||| if v.getLsbD 2 then 0xFF000F04#32 else 0#32) := by
  apply BitVec.eq_of_getLsbD_eq
  intro i hi
  simp only [BitVec.getLsbD_and, BitVec.getLsbD_not, BitVec.getLsbD_or, statusWord_getLsbD,
    Status.acknowledge, State.isBusy]
  cases v.getLsbD 2
  all_goals interval_cases i <;> simp

end Sys2Proof.Machine
end

section
/-! Proofs about the host's accesses (R70 to R76): which location an offset names, and what a read and a
write of a location that exists do in one step. -/

namespace Sys2Proof.Machine

/-! The address map, location by location -/

/-- Slot `k` of a window lies in it, and is its slot `k` (R72). -/
theorem inWindow_slot {start size k : Nat} (h : k < size) :
    inWindow start size (start + 4 * k) = some k := by
  rw [inWindow_of_mem (by omega)]
  congr 1; omega

/-- An offset below a window or beyond its end lies outside it (R72). -/
theorem inWindow_none {start size off : Nat} (h : off < start ∨ start + 4 * size ≤ off) :
    inWindow start size off = none := inWindow_eq_none_iff.2 (by omega)

/-- A slot of the register region is a control register or reserved (R72). -/
theorem locOf_register (p : Params) {k : Nat} (h : k < 1024) : locOf p (4 * k) = some (regAt k) := by
  have hk := inWindow_slot (start := 0) h
  rw [Nat.zero_add] at hk
  simp [locOf, hk]

/-- The register slots beyond OBUFSZ are reserved (R74). -/
theorem regAt_reserved {k : Nat} (h : 13 ≤ k) : regAt k = .reserved := by
  obtain ⟨j, rfl⟩ := Nat.exists_eq_add_of_le' h
  rfl

/-- A location that exists stands at its offset (R72). -/
theorem locOf_offset {p : Params} {l : Loc} (hp : p.wf = true) (hl : l.present p) :
    locOf p l.offset = some l := by
  obtain ⟨-, ⟨-, hib⟩, -, -⟩ := p.wf_iff.1 hp
  have hcap := p.capacity_le hp
  have hkey : keyLen = 1000 := rfl
  cases l with
  | freq b =>
    have hb := b.isLt
    simp (disch := omega) [locOf, Loc.offset, inWindow_none, inWindow_slot hb]
  | codelen b =>
    have hb := b.isLt
    simp (disch := omega) [locOf, Loc.offset, inWindow_none, inWindow_slot hb]
  | key i =>
    have hi : i < keyLen := hl
    simp (disch := omega) [locOf, Loc.offset, inWindow_none, inWindow_slot hi]
  | ibuf i =>
    have hi : i < p.ibufSize := hl
    simp (disch := omega) [locOf, Loc.offset, inWindow_none, inWindow_slot hi]
  | wbuf q =>
    have hq : q < p.capacity := hl
    simp (disch := omega) [locOf, Loc.offset, inWindow_none, inWindow_slot hq]
  | obuf n =>
    have hn : n < p.obufSize := hl
    simp (disch := omega) [locOf, Loc.offset, inWindow_none, inWindow_slot hn]
  | _ => rfl

/-- Offsets of locations that exist are multiples of 4 inside the 2^28 bytes of the block (R71, R72). -/
theorem offset_in_block {p : Params} {l : Loc} (hp : p.wf = true) (hl : l.present p) :
    l.offset % 4 = 0 ∧ l.offset < 2 ^ 28 := by
  obtain ⟨-, ⟨-, hib⟩, ⟨-, hob⟩, -⟩ := p.wf_iff.1 hp
  have hcap := p.capacity_le hp
  cases l with
  | freq b | codelen b => have hb := b.isLt; simp only [Loc.offset]; omega
  | key i | ibuf i | wbuf i | obuf i => simp only [Loc.present, Loc.offset] at *; omega
  | _ => exact ⟨rfl, by decide⟩

/-- A 32-bit access to an aligned mapped offset of the block reaches the location there (R73). -/
theorem locate_of_locOf {p : Params} {off : Nat} {l : Loc} (h : locOf p off = some l)
    (halign : off % 4 = 0) (hblock : off < 2 ^ 28) : locate p (p.base + off) 4 = .ok l := by
  have hoff : offsetOf p (p.base + off) = some off := by
    rw [offsetOf, if_pos (by omega), Nat.add_sub_cancel_left]
  simp [locate, hoff, halign, h]

theorem locate_offset {p : Params} {l : Loc} (hp : p.wf = true) (hl : l.present p) :
    locate p (p.base + l.offset) 4 = .ok l := by
  obtain ⟨halign, hblock⟩ := offset_in_block hp hl
  exact locate_of_locOf (locOf_offset hp hl) halign hblock

/-- Offsets 0x034 to 0xFFC are reserved (R74). -/
theorem locate_reserved (p : Params) {off : Nat} (hlo : 0x034 ≤ off) (hhi : off ≤ 0xFFC)
    (halign : off % 4 = 0) : locate p (p.base + off) 4 = .ok .reserved := by
  obtain ⟨k, rfl⟩ := Nat.dvd_of_mod_eq_zero halign
  refine locate_of_locOf ?_ halign (by omega)
  rw [locOf_register p (by omega), regAt_reserved (by omega)]

/-! One step of the host -/

theorem step_read {s : State} {addr bytes : Nat} {rest : List Input} {l : Loc}
    (h : s.inputs = .access (.read addr bytes) :: rest) (hl : locate s.params addr bytes = .ok l) :
    step s = .next ({ s with inputs := rest }.readLoc l) := by
  simp [step, h, hostAccess, hl]

theorem step_write {s : State} {addr bytes : Nat} {v : Word} {rest : List Input} {l : Loc}
    (h : s.inputs = .access (.write addr bytes v) :: rest)
    (hl : locate s.params addr bytes = .ok l) :
    step s = .next ({ s with inputs := rest }.writeLoc l v) := by
  simp [step, h, hostAccess, hl]

/-- The step of a host that reads a location that exists. -/
theorem step_readsNext {s : State} {l : Loc} {rest : List Input} (hp : s.params.wf = true)
    (hl : l.present s.params) (h : s.readsNext l rest) :
    step s = .next ({ s with inputs := rest }.readLoc l) := step_read h (locate_offset hp hl)

/-- The step of a host that writes a location that exists. -/
theorem step_writesNext {s : State} {l : Loc} {v : Word} {rest : List Input}
    (hp : s.params.wf = true) (hl : l.present s.params) (h : s.writesNext l v rest) :
    step s = .next ({ s with inputs := rest }.writeLoc l v) := step_write h (locate_offset hp hl)

/-- A location the engine does not own is read and written, idle or busy (R76). -/
theorem readLoc_free {s : State} {l : Loc} (h : s.ownedNow l = false) :
    s.readLoc l = { s with reads := s.slotValue l :: s.reads } := by
  simp [State.readLoc, h, State.respond]

theorem readLoc_owned {s : State} {l : Loc} (h : s.ownedNow l = true) :
    s.readLoc l = { s with reads := 0#32 :: s.reads, status := { s.status with bacc := true } } := by
  simp [State.readLoc, h, State.respond, State.setBacc]

theorem writeLoc_free {s : State} {l : Loc} (v : Word) (h : s.ownedNow l = false) :
    s.writeLoc l v = s.writeSlot l v := by
  simp [State.writeLoc, h]

theorem ownedNow_iff (s : State) (l : Loc) : s.ownedNow l = true ↔ s.phase = .busy ∧
    l ∉ [.id, .config, .ctrl, .status, .cmd, .ibufsz, .obufsz, .reserved] := by
  cases l <;> simp [State.ownedNow, State.isBusy, Loc.engineOwned]

theorem ownedNow_of_idle {s : State} (l : Loc) (h : s.phase = .idle) : s.ownedNow l = false := by
  simp [State.ownedNow, State.isBusy, h]

theorem ownedNow_of_free (s : State) {l : Loc} (h : l.engineOwned = false) :
    s.ownedNow l = false := by
  simp [State.ownedNow, h]

/-! What a write that reaches its location does, by location -/

/-- OPC of a command word is its low byte (R100). -/
theorem opcode_eq_setWidth (v : Word) : Word.opcode v = v.setWidth 8 :=
  (BitVec.setWidth_eq_extractLsb' (by decide)).symm

theorem writeSlot_cmd_idle {s : State} (v : Word) (h : s.phase = .idle) :
    s.writeSlot .cmd v = s.accept v := by
  simp [State.writeSlot, State.isBusy, h]

theorem writeSlot_cmd_busy {s : State} (v : Word) (h : s.phase = .busy) :
    s.writeSlot .cmd v = s.setOvr := by
  simp [State.writeSlot, State.isBusy, h]

theorem writeSlot_ctrl_ie (s : State) {v : Word} (h : v.getLsbD 1 = false) :
    s.writeSlot .ctrl v = { s with ie := v.getLsbD 0 } := by
  rw [State.writeSlot, h]
  rfl

theorem writeSlot_ctrl_reset (s : State) {v : Word} (h : v.getLsbD 1 = true) :
    s.writeSlot .ctrl v = s.softReset := if_pos h

/-- CTRL reads IE as 1 or 0 (R33). -/
theorem ctrlWord_eq (s : State) : s.ctrlWord = if s.ie then 1#32 else 0#32 := by
  rw [State.ctrlWord]
  cases s.ie <;> rfl

/-- Settles O7: CMD is not engine-owned, so its write is acceptance or sets OVR. -/
theorem cmdWriteIsAcceptedOrLost : Obligations.CmdWriteIsAcceptedOrLost := by
  intro s rest v hp h
  rw [step_writesNext (l := .cmd) hp trivial h, writeLoc_free v (ownedNow_of_free _ rfl)]
  constructor
  · intro hidle
    rw [writeSlot_cmd_idle (s := { s with inputs := rest }) v hidle, State.accept, opcode_eq_setWidth]
  · intro hbusy
    rw [writeSlot_cmd_busy (s := { s with inputs := rest }) v hbusy, State.setOvr]

/-- Settles O17: CTRL is not engine-owned, and its write with bit 1 clear sets IE to bit 0. -/
theorem ctrlWriteSetsInterruptEnable : Obligations.CtrlWriteSetsInterruptEnable := by
  intro s v rest hp hv h
  rw [step_writesNext (l := .ctrl) hp trivial h, writeLoc_free v (ownedNow_of_free _ rfl),
    writeSlot_ctrl_ie _ hv]
  refine ⟨_, rfl, rfl, ?_⟩
  have hbit : v.getLsbD 0 = decide (v.toNat % 2 = 1) := by
    rw [BitVec.getLsbD, Nat.testBit_zero]
  rw [State.slotValue, ctrlWord_eq, hbit]
  rcases Nat.mod_two_eq_zero_or_one v.toNat with h0 | h1
  · simp [h0]
  · simp [h1]

/-- Settles O9: STATUS is not engine-owned, and its write is the acknowledge. -/
theorem statusWriteClearsItsOnes : Obligations.StatusWriteClearsItsOnes := by
  intro s rest v hp h
  rw [step_writesNext (l := .status) hp trivial h, writeLoc_free v (ownedNow_of_free _ rfl)]
  exact ⟨_, rfl, rfl, statusWord_acknowledge { s with inputs := rest } v⟩

/-! What a read returns -/

/-- A listed cell is one of the memory's cells. -/
theorem Memory.mem_of_listed {α : Type} {m : Memory α} {i : Nat} {v : α} (h : m.listed i = some v) :
    (i, v) ∈ m.cells := by
  obtain ⟨before, after, hcells, -⟩ := List.lookup_eq_some_iff.1 h
  rw [hcells]
  exact List.mem_append_right before List.mem_cons_self

/-- Where the invariant holds, every word of WBUF has a tag below C, the free value of an unlisted word
too (R47). -/
theorem State.Inv.wbufAt_tag_lt {s : State} (h : s.Inv) (q : Nat) :
    (s.wbufAt q).tag.toNat < s.params.capacity := by
  rw [State.wbufAt]
  cases hq : s.wbuf.listed q with
  | none => exact wordOfSlot_tag_lt _ _
  | some w => exact h.tags _ (Memory.mem_of_listed hq)

/-- A word whose tag is below C has WW bits (R47). -/
theorem toWord_lt {p : Params} {w : CubeWord} (h : w.tag.toNat < p.capacity) :
    w.toWord.toNat < 2 ^ (8 + 3 * p.w) := by
  have hb := w.payload.isLt
  rw [cubeWord_toWord_toNat, CubeWord.value, pow_add]
  rw [Params.capacity] at h
  omega

/-- A byte cell reads zero-extended (R75). -/
theorem setWidth_byte_toNat (b : Byte) : (b.setWidth 32).toNat = b.toNat := by
  rw [BitVec.toNat_setWidth]
  have := b.isLt
  omega

/-- Settles O14, from the two forms of a read, the reserved offsets, and the slots one by one. -/
theorem hostReadReturnsTheSlot : Obligations.HostReadReturnsTheSlot := by
  refine ⟨?reads, ?reserved, ?registers, ?tables, ?memories, ?width⟩
  case reads =>
    intro s l rest hp hl h
    rw [step_readsNext hp hl h]
    have howned := ownedNow_iff { s with inputs := rest } l
    constructor
    · intro hfree
      rw [readLoc_free (Bool.eq_false_iff.2 fun ho => hfree (howned.1 ho))]
      cases l <;> rfl
    · intro ho
      rw [readLoc_owned (howned.2 ho)]
  case reserved =>
    intro s off rest hlo hhi halign h
    rw [step_read h (locate_reserved s.params hlo hhi halign),
      readLoc_free (ownedNow_of_free _ rfl)]
    rfl
  case registers =>
    intro s
    have hk : (s.slotValue .kidx).toNat = s.kidx.toNat := by
      have := s.kidx.isLt
      rw [State.slotValue, BitVec.toNat_setWidth]
      omega
    exact ⟨rfl, rfl, ctrlWord_eq s, rfl, rfl, rfl, rfl, rfl, rfl, hk, rfl, rfl, rfl, rfl⟩
  case tables => exact fun s b => ⟨rfl, setWidth_byte_toNat _⟩
  case memories =>
    exact fun s i => ⟨setWidth_byte_toNat _, setWidth_byte_toNat _, setWidth_byte_toNat _,
      cubeWord_toWord_toNat _⟩
  case width => exact fun s q h => toWord_lt (h.wbufAt_tag_lt q)

/-! What a write of one location stores, and what it leaves -/

/-- A word stored from a host value has its low WW bits (R47, R75). -/
theorem wordOfSlot_toWord {p : Params} (hp : p.wf = true) (v : Word) :
    (wordOfSlot p v).toWord.toNat = v.toNat % 2 ^ (8 + 3 * p.w) := by
  have htag : (wordOfSlot p v).tag.toNat = v.toNat / 2 ^ 8 % p.capacity := by
    have hlt : v.toNat / 2 ^ 8 % p.capacity < p.capacity := Nat.mod_lt _ p.capacity_pos
    have hcap := p.capacity_le hp
    rw [wordOfSlot, bitField, BitVec.toNat_ofNat, Nat.shiftRight_eq_div_pow]
    exact Nat.mod_eq_of_lt (hlt.trans_le hcap)
  have hpay : (wordOfSlot p v).payload.toNat = v.toNat % 2 ^ 8 := BitVec.toNat_setWidth ..
  rw [cubeWord_toWord_toNat, CubeWord.value, htag, hpay, pow_add, Nat.mod_mul, Params.capacity]
  omega

theorem keyAt_setIfInBounds (s : State) (i : Nat) (b : Byte) (j : Nat) :
    ({ s with key := s.key.setIfInBounds i b } : State).keyAt j =
      if j = i ∧ j < 1000 then b else s.keyAt j := by
  unfold State.keyAt
  by_cases hj : j < 1000
  · simp [hj, Vector.getElem_setIfInBounds, eq_comm]
  · simp [hj]

theorem freqAt_set (s : State) (a : Byte) (v : Word) (b : Byte) :
    ({ s with freq := s.freq.set a.toNat v a.isLt } : State).freqAt b =
      if b = a then v else s.freqAt b := by
  simp [State.freqAt, Vector.getElem_set, BitVec.toNat_inj, eq_comm]

theorem ibufAt_write (s : State) (i : Nat) (b : Byte) (j : Nat) :
    ({ s with ibuf := s.ibuf.write i b } : State).ibufAt j = if j = i then b else s.ibufAt j := by
  unfold State.ibufAt
  by_cases h : j = i <;> simp [h]

theorem wbufAt_write (s : State) (q : Nat) (w : CubeWord) (r : Nat) :
    ({ s with wbuf := s.wbuf.write q w } : State).wbufAt r = if r = q then w else s.wbufAt r := by
  unfold State.wbufAt
  by_cases h : r = q <;> simp [h]

/-- A location a host write stores to holds the low bits of the value (R75). -/
theorem writeSlot_slot {s : State} {l : Loc} {n : Nat} (v : Word) (hp : s.params.wf = true)
    (hl : l.present s.params) (hn : l.storedWidth s.params = some n) :
    ((s.writeSlot l v).slotValue l).toNat = v.toNat % 2 ^ n := by
  have hv := v.isLt
  cases l with
  | ilen | bitlen | wlen =>
    obtain rfl := Option.some.inj hn
    exact (Nat.mod_eq_of_lt hv).symm
  | freq b =>
    obtain rfl := Option.some.inj hn
    simp only [State.writeSlot, State.slotValue, freqAt_set, if_pos]
    exact (Nat.mod_eq_of_lt hv).symm
  | kidx =>
    obtain rfl := Option.some.inj hn
    simp only [State.writeSlot, State.slotValue, BitVec.toNat_setWidth]
    omega
  | key i =>
    obtain rfl := Option.some.inj hn
    have hi : i < 1000 := hl
    simp only [State.writeSlot, State.slotValue, keyAt_setIfInBounds, hi, and_self, if_pos]
    exact (setWidth_byte_toNat _).trans (BitVec.toNat_setWidth ..)
  | ibuf i =>
    obtain rfl := Option.some.inj hn
    simp only [State.writeSlot, State.slotValue, ibufAt_write, if_pos]
    exact (setWidth_byte_toNat _).trans (BitVec.toNat_setWidth ..)
  | wbuf q =>
    obtain rfl := Option.some.inj hn
    simp only [State.writeSlot, State.slotValue, wbufAt_write, if_pos, wordOfSlot_toWord hp]
  | _ => cases hn

/-- A host write that stores leaves every other slot as it was (R75). -/
theorem writeSlot_slot_of_ne {s : State} {l l' : Loc} {n : Nat} (v : Word)
    (hn : l.storedWidth s.params = some n) (hne : l' ≠ l) :
    (s.writeSlot l v).slotValue l' = s.slotValue l' := by
  cases l with
  | ilen | bitlen | wlen | kidx => cases l' <;> first | exact absurd rfl hne | rfl
  | freq a => cases l' with
    | freq b =>
      have hba : b ≠ a := fun h => hne (h ▸ rfl)
      simp only [State.writeSlot, State.slotValue, freqAt_set, if_neg hba]
    | _ => rfl
  | key i => cases l' with
    | key j =>
      have hji : j ≠ i := fun h => hne (h ▸ rfl)
      simp only [State.writeSlot, State.slotValue, keyAt_setIfInBounds, hji, false_and, if_false]
    | _ => rfl
  | ibuf i => cases l' with
    | ibuf j =>
      have hji : j ≠ i := fun h => hne (h ▸ rfl)
      simp only [State.writeSlot, State.slotValue, ibufAt_write, if_neg hji]
    | _ => rfl
  | wbuf q => cases l' with
    | wbuf r =>
      have hrq : r ≠ q := fun h => hne (h ▸ rfl)
      simp only [State.writeSlot, State.slotValue, wbufAt_write, if_neg hrq]
    | _ => rfl
  | _ => cases hn

/-- A host write that stores changes nothing but registers and memories of the host's (R75). -/
theorem writeSlot_frame {s : State} {l : Loc} {n : Nat} (v : Word)
    (hn : l.storedWidth s.params = some n) : s.writeSlot l v = { s with
      ilen := (s.writeSlot l v).ilen, bitlen := (s.writeSlot l v).bitlen
      wlen := (s.writeSlot l v).wlen, kidx := (s.writeSlot l v).kidx
      freq := (s.writeSlot l v).freq, key := (s.writeSlot l v).key
      ibuf := (s.writeSlot l v).ibuf, wbuf := (s.writeSlot l v).wbuf } := by
  cases l with
  | ilen | bitlen | wlen | kidx | freq b | key i | ibuf i | wbuf q => rfl
  | _ => cases hn

/-- Settles O16: while IDLE the write reaches its location, which takes the value's low bits. -/
theorem hostWriteStoresOneLocation : Obligations.HostWriteStoresOneLocation := by
  intro s l v n rest hp hl hidle hn h
  have hfree := ownedNow_of_idle (s := { s with inputs := rest }) l hidle
  rw [step_writesNext hp hl h, writeLoc_free v hfree]
  refine ⟨_, rfl, writeSlot_slot v hp hl hn, ?_, ?_⟩
  · intro l' hne
    rw [writeSlot_slot_of_ne (s := { s with inputs := rest }) v hn hne]
    cases l' <;> rfl
  · rw [writeSlot_frame (s := { s with inputs := rest }) v hn]
    exact ⟨rfl, rfl, rfl, rfl, rfl, rfl, rfl, rfl, rfl⟩

end Sys2Proof.Machine
end

section
/-! Proofs about the resets (R57, R270, R271): the reset table read through the host's slots. -/

namespace Sys2Proof.Machine

/-- A table of zeros reads 0 in every entry. -/
theorem freqAt_zeros {s : State} (h : s.freq = tabulate 256 fun _ => 0#32) (b : Byte) :
    s.freqAt b = 0#32 :=
  State.freqAt_of_eq (F := fun _ => 0#32) h b

theorem codelenAt_zeros {s : State} (h : s.codelen = tabulate 256 fun _ => 0#8) (b : Byte) :
    s.codelenAt b = 0#8 :=
  State.codelenAt_of_eq (F := fun _ => 0#8) h b

/-- IDLE with every field of STATUS 0 reads 0 (R34). -/
theorem statusWord_of_reset {s : State} (hidle : s.phase = .idle) (h : s.status = Status.reset) :
    s.statusWord = 0#32 := by
  simp only [State.statusWord, State.isBusy, hidle, h]
  rfl

/-- Settles O19: the step is the hardware reset, and each register of its state is the table's. -/
theorem hardwareResetGivesTheResetTable : Obligations.HardwareResetGivesTheResetTable := by
  intro s rest h
  have hstep : step s = .next (State.hardReset { s with inputs := rest }) := by simp only [step, h]
  refine ⟨_, hstep, rfl, rfl, rfl, rfl, ctrlWord_eq _, statusWord_of_reset rfl rfl, rfl, rfl, rfl, rfl, rfl,
    rfl, fun b => ⟨freqAt_zeros rfl b, ?_⟩, rfl, rfl, rfl, rfl⟩
  rw [State.slotValue, codelenAt_zeros rfl b]
  rfl

/-- Settles O20: the state after reset holds the table as it stands. -/
theorem resetStateIsTheResetTable : Obligations.ResetStateIsTheResetTable :=
  ⟨rfl, statusWord_of_reset rfl rfl, ctrlWord_eq _, rfl, rfl, rfl, rfl, rfl, rfl, rfl, rfl,
    fun b => ⟨freqAt_zeros rfl b, codelenAt_zeros rfl b⟩⟩

end Sys2Proof.Machine
end

section
/-! Proofs about the invariant (R34, R38, R46, R47, R49, R241). It has two halves: one about the contents of
the memories and OLEN, which the phase and STATUS do not enter, and one about the flags alone. Each
update of the state keeps the half it touches. -/

namespace Sys2Proof.Machine

/-! The tags the engine writes are below C -/

/-- Inv leads from any fields into the cube (R161). -/
theorem inv_inCube (p : Params) (K : Nat → Nat) (c : Coord) : Coord.inCube p (inv p K c) :=
  ⟨subMod_lt p.side_pos _ _, subMod_lt p.side_pos _ _, subMod_lt p.side_pos _ _⟩

/-- Fwd leads from the cube into the cube (R160). -/
theorem fwd_inCube (p : Params) (K : Nat → Nat) (c : Coord) : Coord.inCube p (fwd p K c) :=
  ⟨Nat.mod_lt _ p.side_pos, Nat.mod_lt _ p.side_pos, Nat.mod_lt _ p.side_pos⟩

/-- A word packed from a coordinate of the cube has a tag below C (R16). -/
theorem pack_tag_lt {p : Params} (hp : p.wf = true) {c : Coord} (h : Coord.inCube p c) (b : Byte) :
    (pack p c b).tag.toNat < p.capacity := by
  rw [pack_tag p hp h]
  exact lin_lt p h

/-- P(0) = 2 is the only prime of the sequence that is not above 2 (R19). -/
theorem two_lt_nthPrime {j : Nat} (h : 1 ≤ j) : 2 < nthPrime j := by
  induction j, h using Nat.le_induction with
  | base => exact (nthPrime_succ 0).1
  | succ j _ ih => exact ih.trans (nthPrime_succ j).1

/-- A prime of the sequence other than 2 does not divide a power of 2. -/
theorem capacity_mod_nthPrime (p : Params) {j : Nat} (h : 1 ≤ j) : p.capacity % nthPrime j ≠ 0 := by
  intro hmod
  have hdvd : nthPrime j ∣ 2 := (nthPrime_prime j).dvd_of_dvd_pow (Nat.dvd_of_mod_eq_zero hmod)
  have := Nat.le_of_dvd (by decide) hdvd
  have := two_lt_nthPrime h
  omega

/-- The prime the relabel commands select is the key byte's, or the next one for key byte 0, whose prime
2 divides C (R190). -/
theorem selectPrime_eq {p : Params} (hp : p.wf = true) (kb : Byte) :
    selectPrime kb p.capacity = nthPrime (max kb.toNat 1) := by
  have hcap := p.le_capacity hp
  unfold selectPrime
  rcases Nat.eq_zero_or_pos kb.toNat with h0 | hpos
  · have heven : p.capacity % nthPrime 0 = 0 := by
      rw [Params.capacity, ← Nat.dvd_iff_mod_eq_zero]
      exact dvd_pow_self 2 (by have := (p.wf_iff.1 hp).1; omega)
    obtain ⟨n, hn⟩ : ∃ n, p.capacity = n + 1 := ⟨p.capacity - 1, by omega⟩
    calc primeNotDividing p.capacity kb.toNat p.capacity
        = primeNotDividing (n + 1) 0 p.capacity := by rw [h0, ← hn]
      _ = primeNotDividing n 1 p.capacity := if_pos heven
      _ = nthPrime 1 := primeNotDividing_stops _ _ _ (capacity_mod_nthPrime p (le_refl 1))
      _ = nthPrime (max kb.toNat 1) := by rw [h0]; rfl
  · rw [primeNotDividing_stops _ _ _ (capacity_mod_nthPrime p hpos), max_eq_left hpos]

/-- The selected prime has no factor in common with C (R190). -/
theorem selectPrime_coprime {p : Params} (hp : p.wf = true) (kb : Byte) :
    (selectPrime kb p.capacity).Coprime p.capacity := by
  rw [selectPrime_eq hp]
  refine (nthPrime_prime _).coprime_iff_not_dvd.2 fun hdvd => ?_
  exact capacity_mod_nthPrime p (le_max_right _ 1) (Nat.mod_eq_zero_of_dvd hdvd)

/-- The stride map stays inside the cube: a multiple of C does not occur among i·prime for 0 < i < C
(R193). -/
theorem relabelSource_lt {p : Params} (hp : p.wf = true) (kb : Byte) {i : Nat} (hi : i < p.capacity) :
    relabelSource p (selectPrime kb p.capacity) i < p.capacity := by
  have hcap := p.capacity_pos
  unfold relabelSource stridePos
  split
  · exact hcap
  · next hne =>
    have hmod : i * selectPrime kb p.capacity % p.capacity ≠ 0 := by
      intro hmod
      have hdvd := (selectPrime_coprime hp kb).symm.dvd_of_dvd_mul_right (Nat.dvd_of_mod_eq_zero hmod)
      exact absurd (Nat.le_of_dvd (by omega) hdvd) (by omega)
    omega

/-! The contents -/

/-- The half of the invariant about contents: the memories, OLEN and the eras (R38, R46, R47, R49). -/
structure ContentsOk (p : Params) (ibuf : Memory Byte) (wbuf : Memory CubeWord) (obuf : Memory Byte)
    (olen : Word) (era : Nat) : Prop where
  paramsOk : p.wf = true
  ibufOk : ibuf.wf p.ibufSize = true
  wbufOk : wbuf.wf p.capacity = true
  obufOk : obuf.wf p.obufSize = true
  tagsOk : ∀ c ∈ wbuf.cells, c.2.tag.toNat < p.capacity
  olenOk : olen.toNat ≤ p.obufSize
  erasOk : ibuf.era ≤ era ∧ wbuf.era ≤ era ∧ obuf.era ≤ era

/-- The contents of a state are as the invariant asks. -/
abbrev State.contentsOk (s : State) : Prop := ContentsOk s.params s.ibuf s.wbuf s.obuf s.olen s.era

section

variable {p : Params} {ibuf obuf : Memory Byte} {wbuf : Memory CubeWord} {olen : Word} {era : Nat}

theorem ContentsOk.reset (hp : p.wf = true) (e : Nat) :
    ContentsOk p ⟨e, []⟩ ⟨e, []⟩ ⟨e, []⟩ 0#32 e where
  paramsOk := hp
  ibufOk := rfl
  wbufOk := rfl
  obufOk := rfl
  tagsOk := fun _ hc => absurd hc List.not_mem_nil
  olenOk := Nat.zero_le _
  erasOk := ⟨le_rfl, le_rfl, le_rfl⟩

theorem ContentsOk.writeIbuf (h : ContentsOk p ibuf wbuf obuf olen era) {i : Nat} (hi : i < p.ibufSize)
    (b : Byte) : ContentsOk p (ibuf.write i b) wbuf obuf olen era :=
  { h with ibufOk := Memory.wf_write h.ibufOk hi b }

theorem ContentsOk.writeWbuf (h : ContentsOk p ibuf wbuf obuf olen era) {q : Nat} (hq : q < p.capacity)
    {w : CubeWord} (hw : w.tag.toNat < p.capacity) :
    ContentsOk p ibuf (wbuf.write q w) obuf olen era :=
  { h with
    wbufOk := Memory.wf_write h.wbufOk hq w
    tagsOk := fun c hc => by
      rcases mem_insertCell wbuf.cells hc with rfl | hc
      · exact hw
      · exact h.tagsOk c hc }

/-- Writing all C words with tags below C (R18, R194, R197). -/
theorem ContentsOk.storeCube (h : ContentsOk p ibuf wbuf obuf olen era) {ws : List CubeWord}
    (hlen : ws.length = p.capacity) (hws : ∀ w ∈ ws, w.tag.toNat < p.capacity) :
    ContentsOk p ibuf (wbuf.writeFront ws) obuf olen era :=
  { h with
    wbufOk := Memory.wf_writeFront h.wbufOk hlen.le
    tagsOk := fun c hc => (Memory.mem_writeFront hc).elim (hws c.2) (h.tagsOk c) }

/-- Writing the words of the cube by position. -/
theorem ContentsOk.storeCubeWords (h : ContentsOk p ibuf wbuf obuf olen era) {f : Nat → CubeWord}
    (hf : ∀ q < p.capacity, (f q).tag.toNat < p.capacity) :
    ContentsOk p ibuf (wbuf.writeFront (cubeWords p f)) obuf olen era := by
  refine h.storeCube (cubeWords_length p f) fun w hw => ?_
  obtain ⟨q, hq, rfl⟩ := List.mem_map.1 hw
  exact hf q (List.mem_range.1 hq)

/-- Writing the words of the cube sorted. -/
theorem ContentsOk.storeSorted (h : ContentsOk p ibuf wbuf obuf olen era) {f : Nat → CubeWord}
    (hf : ∀ q < p.capacity, (f q).tag.toNat < p.capacity) :
    ContentsOk p ibuf (wbuf.writeFront (sortAsc p (cubeWords p f))) obuf olen era := by
  refine h.storeCube (by simp) fun w hw => ?_
  obtain ⟨q, hq, rfl⟩ := List.mem_map.1 ((sortAsc_perm p _).mem_iff.1 hw)
  exact hf q (List.mem_range.1 hq)

/-- Writing decoded bytes that fit, and their number to OLEN (R38, R140). -/
theorem ContentsOk.writeOutput (h : ContentsOk p ibuf wbuf obuf olen era) {out : List Byte}
    (hout : out.length ≤ p.obufSize) :
    ContentsOk p ibuf wbuf (obuf.writeFront out) (BitVec.ofNat 32 out.length) era :=
  { h with
    obufOk := Memory.wf_writeFront h.obufOk hout
    olenOk := (Nat.mod_le _ _).trans hout }

end

/-- Contents forgotten in the era that begins with a soft reset (R272). -/
theorem ContentsOk.softReset {s : State} (h : s.contentsOk) : s.softReset.contentsOk where
  paramsOk := h.paramsOk
  ibufOk := h.ibufOk
  wbufOk := by
    rw [State.softReset_wbuf]
    split
    · rfl
    · exact h.wbufOk
  obufOk := by
    rw [State.softReset_obuf]
    split
    · rfl
    · exact h.obufOk
  tagsOk := by
    rw [State.softReset_wbuf]
    split
    · exact fun c hc => absurd hc List.not_mem_nil
    · exact h.tagsOk
  olenOk := Nat.zero_le _
  erasOk := by
    obtain ⟨hi, hw, ho⟩ := h.erasOk
    rw [State.softReset_wbuf, State.softReset_obuf, State.softReset_era]
    refine ⟨Nat.le_succ_of_le hi, ?_, ?_⟩
    · split
      · exact le_rfl
      · exact Nat.le_succ_of_le hw
    · split
      · exact le_rfl
      · exact Nat.le_succ_of_le ho

/-! The flags -/

/-- The half of the invariant about the flags (R34, R241). -/
structure FlagsOk (phase : Phase) (st : Status) : Prop where
  doneOrErr : ¬ (st.done = true ∧ st.err = true)
  busyClear : phase = .busy → st.done = false ∧ st.err = false
  noErr : st.err = false → st.errcode = 0#4 ∧ st.errop = 0#8
  codes : st.errcode.toNat ≤ 7

/-- The invariant is its two halves. -/
theorem State.inv_iff (s : State) : s.Inv ↔ s.contentsOk ∧ FlagsOk s.phase s.status :=
  ⟨fun h => ⟨⟨h.params, h.ibuf, h.wbuf, h.obuf, h.tags, h.olen, h.eras⟩,
      ⟨h.doneOrErr, h.busyClear, h.noErr, h.codes⟩⟩,
    fun ⟨h, f⟩ => ⟨h.paramsOk, h.ibufOk, h.wbufOk, h.obufOk, h.tagsOk, f.doneOrErr, f.busyClear, f.noErr,
      f.codes, h.olenOk, h.erasOk⟩⟩

theorem FlagsOk.reset : FlagsOk .idle Status.reset :=
  ⟨by decide, by decide, by decide, by decide⟩

/-- OVR, BACC and LASTOP are outside the invariant. -/
theorem FlagsOk.of_eq {ph : Phase} {st st' : Status} (h : FlagsOk ph st) (hdone : st'.done = st.done)
    (herr : st'.err = st.err) (hcode : st'.errcode = st.errcode) (hop : st'.errop = st.errop) :
    FlagsOk ph st' := by
  obtain ⟨h1, h2, h3, h4⟩ := h
  constructor
  all_goals simpa only [hdone, herr, hcode, hop]

theorem FlagsOk.accept (s : State) (v : Word) : FlagsOk (s.accept v).phase (s.accept v).status :=
  ⟨by simp, by simp, by simp, by simp⟩

/-- The acknowledge takes DONE and ERR away and never sets them; ERRCODE and ERROP go with ERR (R34). -/
theorem FlagsOk.acknowledge {ph : Phase} {st : Status} (h : FlagsOk ph st) (v : Word) :
    FlagsOk ph (st.acknowledge v) := by
  obtain ⟨hexcl, hbusy, hnoErr, hcodes⟩ := h
  cases hv : v.getLsbD 2 with
  | true =>
    refine ⟨?_, fun hb => ?_, ?_, ?_⟩
    all_goals simp only [Status.acknowledge, hv]
    · simp
    · simp [hbusy hb]
    · simp
    · simp
  | false =>
    refine ⟨?_, fun hb => ?_, ?_, ?_⟩
    all_goals simp only [Status.acknowledge, hv]
    · simp only [Bool.and_eq_true, Bool.not_false, and_true]
      exact fun ⟨⟨hd, _⟩, he⟩ => hexcl ⟨hd, he⟩
    · simp [hbusy hb]
    · simpa using hnoErr
    · simpa using hcodes

theorem CmdError.code_le (e : CmdError) : e.code.toNat ≤ 7 := by cases e <;> decide

/-- A command ends with one of DONE and ERR, because it began with neither (R34, R53, R245). -/
theorem FlagsOk.ends {ph : Phase} {st st' : Status} (h : FlagsOk ph st) (hbusy : ph = .busy)
    (hend : st.EndsAs st') : FlagsOk .idle st' := by
  obtain ⟨hdone, herr⟩ := h.busyClear hbusy
  rcases hend with rfl | ⟨e, op, rfl⟩
  · exact ⟨by simp [herr], by simp, h.noErr, h.codes⟩
  · exact ⟨by simp [hdone], by simp, by simp, e.code_le⟩

/-! The commands keep the contents -/

theorem hufEncodeBody_contentsOk {s : State} (h : s.contentsOk) : (hufEncodeBody s).left.contentsOk := by
  by_cases hlen : s.params.ibufSize < s.ilen.toNat
  · rw [hufEncodeBody_tooLong hlen]
    exact h
  · by_cases hfront : s.params.front < bytesFor s.inputBits.length
    · rw [hufEncodeBody_overflow (not_lt.1 hlen) hfront]
      exact h
    · rw [hufEncodeBody_ok (not_lt.1 hlen) (not_lt.1 hfront)]
      exact h.storeCubeWords fun q _ => by
        rw [tagged_tag _ h.paramsOk s.params.capacity_pos]
        exact s.params.capacity_pos

theorem cubeEncodeBody_contentsOk {s : State} (h : s.contentsOk) :
    (cubeEncodeBody s).left.contentsOk := by
  by_cases hfront : s.params.front < bytesFor s.bitlen.toNat
  · rw [cubeEncodeBody_tooLong hfront]
    exact h
  · rw [cubeEncodeBody_ok (not_lt.1 hfront)]
    exact h.storeSorted fun q _ => pack_tag_lt h.paramsOk (fwd_inCube _ _ _) _

theorem relabelEncodeBody_contentsOk {s : State} (h : s.contentsOk) :
    (relabelEncodeBody s).left.contentsOk := by
  by_cases hk : 1000 ≤ s.kidx.toNat
  · rw [relabelEncodeBody_badConfig hk]
    exact h
  · rw [relabelEncodeBody_ok (not_le.1 hk)]
    exact h.storeSorted fun q hq => by
      rw [State.relabelEncoded, tagged_tag _ h.paramsOk hq]
      exact hq

/-- The walk HUF_DECODE makes emits at most OBUF_SIZE bytes (R140). -/
theorem hufWalk_out_length (s : State) : s.hufWalk.out.length ≤ s.params.obufSize := by
  unfold State.hufWalk decodeBits
  cases s.freqTree with
  | none => exact Nat.zero_le _
  | some root => simpa using walkBits_out_length root s.params.obufSize _ none 0 (Nat.zero_le _)

theorem hufDecodeBody_contentsOk {s : State} (h : s.contentsOk) :
    (hufDecodeBody s).left.contentsOk := by
  by_cases hbits : 8 * s.params.front < s.bitlen.toNat
  · rw [hufDecodeBody_underrun hbits]
    exact h
  · have hok : (s.hufDecoded s.hufWalk).contentsOk := h.writeOutput (hufWalk_out_length s)
    rw [hufDecodeBody_walks (not_lt.1 hbits)]
    cases s.hufWalk.err with
    | none => exact hok
    | some e => exact hok

theorem cubeDecodeBody_contentsOk {s : State} (h : s.contentsOk) :
    (cubeDecodeBody s).left.contentsOk := by
  by_cases hwlen : s.wlen.toNat = s.params.capacity
  · rw [cubeDecodeBody_ok hwlen]
    exact h.storeSorted fun q _ => pack_tag_lt h.paramsOk (inv_inCube _ _ _) _
  · rw [cubeDecodeBody_mismatch hwlen]
    exact h

theorem relabelDecodeBody_contentsOk {s : State} (h : s.contentsOk) :
    (relabelDecodeBody s).left.contentsOk := by
  by_cases hwlen : s.wlen.toNat = s.params.capacity
  · by_cases hk : 1000 ≤ s.kidx.toNat
    · rw [relabelDecodeBody_badConfig hwlen hk]
      exact h
    · rw [relabelDecodeBody_ok hwlen (not_le.1 hk)]
      exact h.storeSorted fun q hq => by
        have hsrc := relabelSource_lt h.paramsOk (s.keyAt s.kidx.toNat) hq
        rw [State.relabelDecoded, State.relabelPrime, tagged_tag _ h.paramsOk hsrc]
        exact hsrc
  · rw [relabelDecodeBody_mismatch hwlen]
    exact h

theorem Stage.body_contentsOk (g : Stage) {s : State} (h : s.contentsOk) :
    (g.body s).left.contentsOk := by
  cases g with
  | hufEncode => exact hufEncodeBody_contentsOk h
  | cubeEncode => exact cubeEncodeBody_contentsOk h
  | relabelEncode => exact relabelEncodeBody_contentsOk h
  | hufDecode => exact hufDecodeBody_contentsOk h
  | cubeDecode => exact cubeDecodeBody_contentsOk h
  | relabelDecode => exact relabelDecodeBody_contentsOk h

theorem exec_contentsOk {i : Instr} {s t : State} (hs : s.contentsOk) (h : exec i s = .next t) :
    t.contentsOk := by
  rw [exec_eq_runStages] at h
  cases h
  exact runStages_keeps (P := State.contentsOk) (fun _ _ _ hu => hu) _
    (fun g _ _ hu => g.body_contentsOk hu) s hs

/-! Every event keeps the invariant -/

/-- The end of a command (R220). -/
theorem endCommand_inv {s t : State} (hs : s.Inv) (hbusy : s.phase = .busy)
    (h : endCommand s = .next t) : t.Inv := by
  obtain ⟨hcontents, hflags⟩ := s.inv_iff.1 hs
  obtain ⟨t', hend, hidle, hstatus⟩ := endCommand_next s
  obtain rfl : t' = t := by simpa [hend] using h
  refine t'.inv_iff.2 ⟨?_, hidle ▸ hflags.ends hbusy hstatus⟩
  unfold endCommand at h
  cases hf : s.fetch with
  | ok i =>
    rw [hf] at h
    exact exec_contentsOk hcontents h
  | error _ =>
    rw [hf] at h
    cases h
    exact hcontents

/-- The engine's turn (R220, R259). -/
theorem engineTurn_inv {s t : State} (hs : s.Inv) (h : engineTurn s = .next t) : t.Inv := by
  unfold engineTurn at h
  cases hph : s.phase with
  | busy =>
    rw [hph] at h
    exact endCommand_inv hs hph h
  | idle =>
    rw [hph] at h
    cases h
    exact hs

/-- A read changes at most BACC (R76). -/
theorem readLoc_inv {s : State} (hs : s.Inv) (l : Loc) : (s.readLoc l).Inv := by
  obtain ⟨hcontents, hflags⟩ := s.inv_iff.1 hs
  cases ho : s.ownedNow l with
  | false =>
    rw [readLoc_free ho]
    exact (State.inv_iff _).2 ⟨hcontents, hflags⟩
  | true =>
    rw [readLoc_owned ho]
    exact (State.inv_iff _).2 ⟨hcontents, hflags.of_eq rfl rfl rfl rfl⟩

/-- A write that reaches a location that exists (R33 to R35, R75). -/
theorem writeSlot_inv {s : State} (hs : s.Inv) {l : Loc} (hl : l.present s.params) (v : Word) :
    (s.writeSlot l v).Inv := by
  obtain ⟨hcontents, hflags⟩ := s.inv_iff.1 hs
  cases l with
  | ctrl =>
    cases hv : v.getLsbD 1 with
    | true =>
      rw [writeSlot_ctrl_reset s hv]
      exact (State.inv_iff _).2 ⟨hcontents.softReset, FlagsOk.reset⟩
    | false =>
      rw [writeSlot_ctrl_ie s hv]
      exact (State.inv_iff _).2 ⟨hcontents, hflags⟩
  | status => exact (State.inv_iff _).2 ⟨hcontents, hflags.acknowledge v⟩
  | cmd =>
    cases hph : s.phase with
    | idle =>
      rw [writeSlot_cmd_idle v hph]
      exact (State.inv_iff _).2 ⟨hcontents, FlagsOk.accept s v⟩
    | busy =>
      rw [writeSlot_cmd_busy v hph]
      exact (State.inv_iff _).2 ⟨hcontents, hflags.of_eq rfl rfl rfl rfl⟩
  | ibuf i => exact (State.inv_iff _).2 ⟨hcontents.writeIbuf hl _, hflags⟩
  | wbuf q =>
    exact (State.inv_iff _).2 ⟨hcontents.writeWbuf hl (wordOfSlot_tag_lt s.params v), hflags⟩
  | _ => exact (State.inv_iff _).2 ⟨hcontents, hflags⟩

/-- A write to an engine-owned location while BUSY sets BACC alone (R76). -/
theorem writeLoc_inv {s : State} (hs : s.Inv) {l : Loc} (hl : l.present s.params) (v : Word) :
    (s.writeLoc l v).Inv := by
  obtain ⟨hcontents, hflags⟩ := s.inv_iff.1 hs
  cases ho : s.ownedNow l with
  | false =>
    rw [writeLoc_free v ho]
    exact writeSlot_inv hs hl v
  | true =>
    rw [State.writeLoc, if_pos ho]
    exact (State.inv_iff _).2 ⟨hcontents, hflags.of_eq rfl rfl rfl rfl⟩

/-- The host's access reaches only locations that exist (R73). -/
theorem hostAccess_inv {s t : State} {a : Access} (hs : s.Inv) (h : hostAccess s a = .next t) :
    t.Inv := by
  obtain ⟨l, ⟨addr, n, -, -, rfl⟩ | ⟨addr, n, v, -, hl, rfl⟩⟩ := hostAccess_next h
  · exact readLoc_inv hs l
  · obtain ⟨-, -, -, -, -, hpresent⟩ := locate_ok hl
    exact writeLoc_inv hs hpresent v

/-- What is still to come from outside is no part of the invariant. -/
theorem State.Inv.withInputs {s : State} (hs : s.Inv) (rest : List Input) :
    ({ s with inputs := rest } : State).Inv :=
  (State.inv_iff _).2 ((State.inv_iff s).1 hs)

/-! The parameters stay -/

theorem engineTurn_params {s t : State} (h : engineTurn s = .next t) : t.params = s.params := by
  unfold engineTurn endCommand at h
  cases hph : s.phase with
  | idle =>
    rw [hph] at h
    cases h
    rfl
  | busy =>
    rw [hph] at h
    cases hf : s.fetch with
    | ok i =>
      rw [hf] at h
      exact exec_keeps (·.params) (fun _ _ _ => rfl) h fun g _ u => (g.keeps_hostState u).1
    | error _ =>
      rw [hf] at h
      cases h
      rfl

theorem hostAccess_params {s t : State} {a : Access} (h : hostAccess s a = .next t) :
    t.params = s.params := by
  obtain ⟨l, ⟨addr, n, -, -, rfl⟩ | ⟨addr, n, v, -, -, rfl⟩⟩ := hostAccess_next h
  · exact readLoc_params s l
  · exact writeLoc_params s l v

/-- Settles O59, by the four kinds of event: the engine's turn unasked or in its place in the inputs, a
host access, and the reset input. -/
theorem everyStepKeepsTheInvariant : Obligations.EveryStepKeepsTheInvariant := by
  intro s t hs h
  rcases step_cases s with ⟨-, hstep⟩ | ⟨rest, -, hstep⟩ | ⟨a, rest, -, hstep⟩ | ⟨rest, -, hstep⟩
  · rw [hstep] at h
    exact ⟨engineTurn_inv hs h, engineTurn_params h⟩
  · rw [hstep] at h
    exact ⟨engineTurn_inv (hs.withInputs rest) h,
      engineTurn_params (s := { s with inputs := rest }) h⟩
  · rw [hstep] at h
    exact ⟨hostAccess_inv (hs.withInputs rest) h,
      hostAccess_params (s := { s with inputs := rest }) h⟩
  · rw [hstep] at h
    cases h
    exact ⟨(State.inv_iff _).2 ⟨ContentsOk.reset hs.params _, FlagsOk.reset⟩, rfl⟩

/-- Whatever legal parameters it has, the state after reset has the invariant. -/
theorem resetOf_inv {p : Params} (hp : p.wf = true) (era : Nat) : (State.resetOf p era).Inv :=
  (State.inv_iff _).2 ⟨ContentsOk.reset hp era, FlagsOk.reset⟩

/-- Settles O60: the parameters of the vectors are legal too. -/
theorem resetHasTheInvariant : Obligations.ResetHasTheInvariant :=
  ⟨resetOf_inv (p := Params.vectors) (by decide) 0, fun _ era hp => resetOf_inv hp era⟩

end Sys2Proof.Machine
end

section
/-! Proofs about the host port as a whole (R71 to R76): which offsets the address map gives a location,
which accesses are bus errors, and the writes that store nothing. -/

namespace Sys2Proof.Machine

/-! The mapped offsets -/

/-- An offset has a slot of a window exactly when it lies in the window (R72). -/
theorem inWindow_isSome {start size off : Nat} :
    (inWindow start size off).isSome ↔ start ≤ off ∧ off < start + 4 * size := by
  rw [Option.isSome_iff_ne_none, Ne, inWindow_eq_none_iff, not_not]

/-- The map is defined exactly on the mapped offsets: the registers, FREQ and CODELEN stand end to end
below 0x1800, and each memory has its own window (R72). -/
theorem locOf_isSome_iff (p : Params) (off : Nat) : (locOf p off).isSome ↔ mappedOffset p off := by
  simp only [locOf, Option.isSome_or, Option.isSome_map, Bool.or_eq_true, inWindow_isSome, mappedOffset,
    keyLen]
  omega

theorem locOf_reserved (p : Params) {off : Nat} (hlo : 0x034 ≤ off) (hhi : off ≤ 0xFFC)
    (halign : off % 4 = 0) : locOf p off = some .reserved := by
  obtain ⟨-, -, -, -, hloc, -⟩ := locate_ok (locate_reserved p hlo hhi halign)
  rwa [Nat.add_sub_cancel_left] at hloc

/-- Settles O12: the map inverts the offsets, which are those of R72 by definition. -/
theorem offsetsNameTheirLocations : Obligations.OffsetsNameTheirLocations :=
  ⟨fun _ _ hp hl => ⟨locOf_offset hp hl, offset_in_block hp hl⟩,
    fun p _ hlo hhi halign => locOf_reserved p hlo hhi halign,
    rfl, fun _ => ⟨rfl, rfl⟩, fun _ => ⟨rfl, rfl, rfl, rfl⟩⟩

/-! Bus errors -/

/-- An access reaches a location exactly when none of R73's three faults applies to it. -/
theorem locate_ok_iff (p : Params) (addr bytes : Nat) :
    (∃ l, locate p addr bytes = .ok l) ↔ p.base ≤ addr ∧ addr < p.base + 2 ^ 28 ∧
      (addr - p.base) % 4 = 0 ∧ bytes = 4 ∧ mappedOffset p (addr - p.base) := by
  constructor
  · rintro ⟨l, h⟩
    obtain ⟨hbase, hblock, halign, hbytes, hloc, -⟩ := locate_ok h
    exact ⟨hbase, hblock, halign, hbytes, (locOf_isSome_iff p _).1 (by rw [hloc]; rfl)⟩
  · rintro ⟨hbase, hblock, halign, rfl, hmapped⟩
    obtain ⟨l, hl⟩ := Option.isSome_iff_exists.1 ((locOf_isSome_iff p _).2 hmapped)
    have hok := locate_of_locOf hl halign (by omega)
    rw [Nat.add_sub_cancel' hbase] at hok
    exact ⟨l, hok⟩

theorem step_read_fault {s : State} {addr bytes : Nat} {rest : List Input} {f : Fault}
    (h : s.inputs = .access (.read addr bytes) :: rest) (hf : locate s.params addr bytes = .error f) :
    step s = .fault f := by
  simp [step, h, hostAccess, hf]

theorem step_write_fault {s : State} {addr bytes : Nat} {v : Word} {rest : List Input} {f : Fault}
    (h : s.inputs = .access (.write addr bytes v) :: rest)
    (hf : locate s.params addr bytes = .error f) : step s = .fault f := by
  simp [step, h, hostAccess, hf]

/-- A step that faults where the port finds no location and goes on where it finds one does each in that
case alone. -/
theorem fault_iff_and_next_iff {o : Host.Outcome State Fault Refusal} {r : Except Fault Loc}
    (hfault : ∀ f, r = .error f → o = .fault f) (hnext : ∀ l, r = .ok l → ∃ t, o = .next t) :
    ((∃ f, o = .fault f) ↔ ¬ ∃ l, r = .ok l) ∧ ((∃ t, o = .next t) ↔ ∃ l, r = .ok l) := by
  cases r with
  | error f => simp [hfault f rfl]
  | ok l =>
    obtain ⟨t, ht⟩ := hnext l rfl
    simp [ht]

/-- Settles O13: a read and a write end as the port's search for their location does. -/
theorem busErrorsAreExactlyTheIllegalAccesses : Obligations.BusErrorsAreExactlyTheIllegalAccesses := by
  intro s addr bytes v rest
  rw [← locate_ok_iff]
  exact
    ⟨fun h => fault_iff_and_next_iff (fun _ hf => step_read_fault h hf) fun _ hl => ⟨_, step_read h hl⟩,
      fun h => fault_iff_and_next_iff (fun _ hf => step_write_fault h hf) fun _ hl =>
        ⟨_, step_write h hl⟩⟩

/-! Writes that store nothing -/

/-- A write to a location the engine owns while BUSY sets BACC alone (R76). -/
theorem writeLoc_owned {s : State} {l : Loc} (v : Word) (h : s.ownedNow l = true) :
    s.writeLoc l v = { s with status := { s.status with bacc := true } } := by
  simp [State.writeLoc, h, State.setBacc]

/-- A read-only or reserved location ignores what is written to it (R74). -/
theorem writeSlot_readOnly (s : State) {l : Loc} (v : Word)
    (h : l ∈ [.id, .config, .ibufsz, .obufsz, .reserved, .olen, .prime] ∨ (∃ b, l = .codelen b) ∨
      ∃ n, l = .obuf n) : s.writeSlot l v = s := by
  rcases h with hmem | ⟨b, rfl⟩ | ⟨n, rfl⟩
  · simp only [List.mem_cons, List.not_mem_nil, or_false] at hmem
    rcases hmem with rfl | rfl | rfl | rfl | rfl | rfl | rfl <;> rfl
  · rfl
  · rfl

/-- Settles O15: the write is dropped, or it reaches a location that ignores it. -/
theorem writesThatStoreNothing : Obligations.WritesThatStoreNothing := by
  refine ⟨?mapped, ?reserved⟩
  case mapped =>
    intro s l v rest hp hl h
    have howned := ownedNow_iff { s with inputs := rest } l
    rw [step_writesNext hp hl h]
    constructor
    · intro ho
      rw [writeLoc_owned v (howned.2 ho)]
    · intro hfree hreadOnly
      rw [writeLoc_free v (Bool.eq_false_iff.2 fun ho => hfree (howned.1 ho)),
        writeSlot_readOnly _ v hreadOnly]
  case reserved =>
    intro s off v rest hlo hhi halign h
    rw [step_write h (locate_reserved s.params hlo hhi halign),
      writeLoc_free v (ownedNow_of_free _ rfl)]
    rfl

end Sys2Proof.Machine
end

section
/-! Proofs about the encoding (R100 to R103): the decoder answers a command on that command's own word and
on no other, and an accepted word on which it answers none ends with ILLEGAL_CMD. -/

namespace Sys2Proof

open Machine

/-! The opcode map -/

/-- The opcode map holds each command under its own opcode alone (R102). -/
theorem decodeOpcode_eq_some_iff (opc : Byte) (i : Instr) :
    decodeOpcode opc = some i ↔ opc = opcodeOf i := by
  constructor
  · intro h
    unfold decodeOpcode at h
    split at h
    case h_10 => cases h
    all_goals
      cases h
      exact BitVec.eq_of_toNat_eq ‹_›
  · rintro rfl
    cases i <;> rfl

/-- The reserved bits are 0 exactly when the word is its opcode zero-extended (R100). -/
theorem reservedZero_iff (v : Word) :
    Word.reservedZero v = true ↔ v = (Word.opcode v).setWidth 32 := by
  simp only [Word.reservedZero, Word.opcode, beq_iff_eq, ← BitVec.toNat_inj, BitVec.extractLsb'_toNat,
    BitVec.toNat_setWidth, BitVec.toNat_ofNat, Nat.shiftRight_eq_div_pow]
  omega

/-- A command's word is its opcode zero-extended (R100, R102). -/
theorem encode_eq_opcodeOf (i : Instr) : encode i = (opcodeOf i).setWidth 32 := by
  cases i <;> rfl

/-! The decoder -/

theorem decode_eq_ok_iff (v : Word) (i : Instr) :
    decode v = .ok i ↔ Word.reservedZero v = true ∧ decodeOpcode (Word.opcode v) = some i := by
  unfold decode
  cases Word.reservedZero v <;> cases decodeOpcode (Word.opcode v) <;> simp

/-- The decoder answers a command on that command's word and on no other (R102). -/
theorem decode_eq_ok_iff_eq_encode (v : Word) (i : Instr) : decode v = .ok i ↔ v = encode i := by
  rw [decode_eq_ok_iff, reservedZero_iff, decodeOpcode_eq_some_iff]
  constructor
  · rintro ⟨hv, hop⟩
    rw [hv, hop, ← encode_eq_opcodeOf]
  · rintro rfl
    exact ⟨encode_eq_opcodeOf i, rfl⟩

/-- The decoder undoes the encoder. -/
@[simp] theorem decode_encode (i : Instr) : decode (encode i) = .ok i :=
  (decode_eq_ok_iff_eq_encode _ i).2 rfl

/-- Settles O2: the decoder answers a command on its encoding alone, and the nine rows are the
encodings. -/
theorem definedWordsAreExactlyTheOpcodeMap : Obligations.DefinedWordsAreExactlyTheOpcodeMap := by
  intro v i
  rw [decode_eq_ok_iff_eq_encode, ← BitVec.toNat_inj]
  cases i <;> simp [encode]

/-- A word outside the opcode map is illegal (R103). -/
theorem decode_eq_error_of_not_mem {v : Word}
    (h : v.toNat ∉ [0x00, 0x01, 0x02, 0x03, 0x0F, 0x11, 0x12, 0x13, 0x1F]) :
    ∃ e, decode v = .error e := by
  cases hdec : decode v with
  | error e => exact ⟨e, rfl⟩
  | ok i =>
    have hrow := (definedWordsAreExactlyTheOpcodeMap v i).1 hdec
    exact absurd (List.mem_map_of_mem (f := Prod.fst) hrow) h

/-! The end of an illegal word -/

/-- The engine ends an illegal word with ILLEGAL_CMD under its opcode bits (R103, R245). -/
theorem endCommand_of_illegal {s : State} {e : IllegalWord} (h : decode s.cur = .error e) :
    endCommand s = .next (s.failed 1#4 (s.cur.setWidth 8)) := by
  rw [endCommand, State.fetch, h, ← opcode_eq_setWidth]
  rfl

/-- Settles O5: no word outside the map decodes, so the engine's turn is the end of an illegal word. -/
theorem illegalWordEndsWithIllegalCmd : Obligations.IllegalWordEndsWithIllegalCmd := by
  intro s rest hbusy hnext hcur
  obtain ⟨e, hdec⟩ := decode_eq_error_of_not_mem hcur
  rw [step_engineNext hbusy hnext]
  exact endCommand_of_illegal (s := { s with inputs := rest }) hdec

/-- Settles O1: every command is well-formed, and the decoder undoes the encoder. -/
theorem decodeOfEncodeGivesTheCommand : Obligations.DecodeOfEncodeGivesTheCommand :=
  fun i _ => decode_encode i

/-- Settles O3: five of the words are encodings; 0x10 stands in no row of the map, and bit 8 of 0x101 is
reserved. -/
theorem sampleWordsDecode : Obligations.SampleWordsDecode :=
  ⟨decode_encode .nop, decode_encode .hufEncode, decode_encode .cubeDecode, decode_encode .relabelDecode,
    decode_encode .decodeAll, rfl, rfl⟩

end Sys2Proof
end

section
/-! Proofs about the Huffman tree and its codes (R120 to R125): the pool's leaves are the symbols that occur,
a turn of the merging loop takes the two nodes of least key, and what its tree says of every code. -/

namespace Sys2Proof.Machine

/-! The symbols that occur -/

/-- All symbols, in rising order. -/
def allSymbols : List Byte := (List.range 256).map (BitVec.ofNat 8)

theorem mem_allSymbols (b : Byte) : b ∈ allSymbols :=
  List.mem_map.2 ⟨b.toNat, List.mem_range.2 b.isLt, by simp⟩

theorem allSymbols_nodup : allSymbols.Nodup := by
  refine List.Nodup.map_on (fun i hi j hj hij => ?_) List.nodup_range
  have hmod : i % 256 = j % 256 := by simpa using congrArg BitVec.toNat hij
  rwa [Nat.mod_eq_of_lt (List.mem_range.1 hi), Nat.mod_eq_of_lt (List.mem_range.1 hj)] at hmod

/-- The symbols of a frequency table that occur, in rising order (R120). -/
def occurring (F : Byte → Nat) : List Byte := allSymbols.filter fun b => decide (0 < F b)

theorem mem_occurring {F : Byte → Nat} {b : Byte} : b ∈ occurring F ↔ 0 < F b := by
  simp [occurring, mem_allSymbols]

theorem occurring_nodup (F : Byte → Nat) : (occurring F).Nodup := allSymbols_nodup.filter _

theorem occurring_length_le (F : Byte → Nat) : (occurring F).length ≤ 256 := by
  have hle : (occurring F).length ≤ allSymbols.length := List.length_filter_le _ _
  simpa [allSymbols] using hle

/-- The pool BuildTree starts from is one leaf for each symbol that occurs (R120). -/
theorem leafPool_eq (F : Byte → Nat) : leafPool F = (occurring F).map fun b => .leaf b (F b) := by
  rw [leafPool, occurring, ← List.filterMap_eq_map, ← List.filterMap_eq_filter, allSymbols,
    List.filterMap_filterMap, List.filterMap_map]
  refine List.filterMap_congr fun i _ => ?_
  rcases Nat.eq_zero_or_pos (F (BitVec.ofNat 8 i)) with hzero | hpos
  · simp [Option.guard, hzero]
  · simp [Option.guard, hpos, hpos.ne']

theorem mem_leafPool {F : Byte → Nat} {n : HuffNode} :
    n ∈ leafPool F ↔ ∃ b, 0 < F b ∧ n = .leaf b (F b) := by
  simp only [leafPool_eq, List.mem_map, mem_occurring, eq_comm]

theorem leafPool_nodup (F : Byte → Nat) : (leafPool F).Nodup := by
  rw [leafPool_eq]
  exact (occurring_nodup F).map fun a b h => (HuffNode.leaf.inj h).1

theorem leafPool_symbols (F : Byte → Nat) : (leafPool F).flatMap HuffNode.symbols = occurring F := by
  simp [leafPool_eq, List.flatMap_map, HuffNode.symbols]

/-! One turn of the merging loop -/

/-- Taking from a pool, however it is ordered, takes a node whose key is below all others (R120). -/
theorem takeLeast_of_least {pool rest : List HuffNode} {a : HuffNode} (hp : pool.Perm (a :: rest))
    (ha : ∀ n ∈ rest, a.freq < n.freq ∨ (a.freq = n.freq ∧ a.id < n.id)) :
    ∃ rest', takeLeast pool = some (a, rest') ∧ rest'.Perm rest := by
  cases htake : takeLeast pool with
  | none => rw [takeLeast_eq_none.1 htake] at hp; exact absurd hp.symm.eq_nil (List.cons_ne_nil _ _)
  | some taken =>
    obtain ⟨m, rest'⟩ := taken
    have hsplit : (m :: rest').Perm (a :: rest) := (takeLeast_perm htake).trans hp
    have hma : m = a := by
      by_contra hne
      have hm : m ∈ rest := (List.mem_cons.1 (hsplit.mem_iff.1 List.mem_cons_self)).resolve_left hne
      have ha' : a ∈ rest' :=
        (List.mem_cons.1 (hsplit.mem_iff.2 List.mem_cons_self)).resolve_left (Ne.symm hne)
      have hnot := takeLeast_least htake a ha'
      rw [(HuffNode.keyLt_iff a m).2 (ha m hm)] at hnot
      exact Bool.noConfusion hnot
    subst hma
    exact ⟨rest', rfl, hsplit.cons_inv⟩

/-- One turn of the merging loop joins the two nodes of least key (R120, R121). -/
theorem mergePool_turn {k : Nat} {pool rest : List HuffNode} {a b : HuffNode} (fuel : Nat)
    (hp : pool.Perm (a :: b :: rest)) (hids : pool.Pairwise fun m n => m.id ≠ n.id)
    (hbelow : ∀ n ∈ pool, n.id < 256 + k)
    (ha : ∀ n ∈ b :: rest, a.freq < n.freq ∨ (a.freq = n.freq ∧ a.id < n.id))
    (hb : ∀ n ∈ rest, b.freq < n.freq ∨ (b.freq = n.freq ∧ b.id < n.id)) :
    mergePool (fuel + 1) k pool =
      mergePool fuel (k + 1) (rest ++ [.node a b (a.freq + b.freq) (256 + k)]) := by
  obtain ⟨pool₁, htake₁, hperm₁⟩ := takeLeast_of_least hp ha
  obtain ⟨pool₂, htake₂, hperm₂⟩ := takeLeast_of_least hperm₁ hb
  obtain ⟨hids', hbelow'⟩ :=
    mergePool_next_ids hids hbelow (takeLeast_perm htake₁) (takeLeast_perm htake₂)
  simp only [mergePool, htake₁, htake₂]
  exact mergePool_perm fuel (k + 1) _ _ (hperm₂.append_right _) hids' hbelow'

/-! BuildTree by the number of leaves -/

theorem buildTree_of_empty {F : Byte → Nat} (h : leafPool F = []) : buildTree F = none := by
  rw [buildTree, h]

theorem buildTree_of_sole {F : Byte → Nat} {a : HuffNode} (h : leafPool F = [a]) :
    buildTree F = some (.single a a.freq 256) := by
  rw [buildTree, h]

theorem buildTree_of_two {F : Byte → Nat} (h : 2 ≤ (leafPool F).length) :
    buildTree F = mergePool (leafPool F).length 0 (leafPool F) := by
  obtain ⟨a, b, rest, hpool⟩ : ∃ a b rest, leafPool F = a :: b :: rest := by
    match hpool : leafPool F with
    | [] | [_] => simp [hpool] at h
    | a :: b :: rest => exact ⟨a, b, rest, rfl⟩
  rw [buildTree, hpool]
  rfl

/-- The trees BuildTree gives: Empty when no symbol occurs, a sole leaf below a root of its own, and
otherwise a full tree; a tree has one leaf for each symbol that occurs (R120, R122, R123). -/
theorem buildTree_cases (F : Byte → Nat) :
    (occurring F = [] ∧ buildTree F = none) ∨
    (∃ b, occurring F = [b] ∧ buildTree F = some (.single (.leaf b (F b)) (F b) 256)) ∨
    (2 ≤ (occurring F).length ∧ ∃ T, buildTree F = some T ∧ T.full = true ∧ T.isInner = true ∧
      T.symbols.Perm (occurring F)) := by
  match hocc : occurring F with
  | [] => exact .inl ⟨rfl, buildTree_of_empty (by simp [leafPool_eq, hocc])⟩
  | [b] => exact .inr (.inl ⟨b, rfl, buildTree_of_sole (by simp [leafPool_eq, hocc])⟩)
  | a :: b :: rest =>
    have htwo : 2 ≤ (leafPool F).length := by simp [leafPool_eq, hocc]
    have hleaves : ∀ n ∈ leafPool F, n.full = true := by
      intro n hn
      obtain ⟨c, -, rfl⟩ := mem_leafPool.1 hn
      rfl
    obtain ⟨T, htree, hfull, hsymbols, hinner⟩ := mergePool_spec (leafPool F).length 0 (leafPool F)
      (List.ne_nil_of_length_pos (by omega)) le_rfl hleaves
    rw [leafPool_symbols, hocc] at hsymbols
    exact .inr (.inr ⟨by simp, T, (buildTree_of_two htwo).trans htree, hfull, hinner htwo, hsymbols⟩)

theorem buildTree_isInner {F : Byte → Nat} {T : HuffNode} (h : buildTree F = some T) :
    T.isInner = true := by
  rcases buildTree_cases F with ⟨-, hnone⟩ | ⟨b, -, hsole⟩ | ⟨-, U, hU, -, hinner, -⟩
  · rw [hnone] at h; cases h
  · rw [hsole] at h; cases h; rfl
  · rw [hU] at h; cases h; exact hinner

/-- The leaves of the tree are the symbols that occur, each once (R120). -/
theorem buildTree_symbols {F : Byte → Nat} {T : HuffNode} (h : buildTree F = some T) :
    T.symbols.Perm (occurring F) := by
  rcases buildTree_cases F with ⟨-, hnone⟩ | ⟨b, hocc, hsole⟩ | ⟨-, U, hU, -, -, hsymbols⟩
  · rw [hnone] at h; cases h
  · rw [hsole] at h; cases h; rw [hocc]; rfl
  · rw [hU] at h; cases h; exact hsymbols

theorem buildTree_eq_none_iff {F : Byte → Nat} : buildTree F = none ↔ ∀ b, F b = 0 := by
  have hocc : occurring F = [] ↔ ∀ b, F b = 0 := by
    simp [List.eq_nil_iff_forall_not_mem, mem_occurring]
  rw [← hocc]
  rcases buildTree_cases F with ⟨hempty, hnone⟩ | ⟨b, hb, hsole⟩ | ⟨htwo, T, hT, -⟩
  · simp [hempty, hnone]
  · simp [hb, hsole]
  · simp [hT, List.ne_nil_of_length_pos (by omega : 0 < (occurring F).length)]

/-- A table with one symbol gives the one-symbol tree (R122). -/
theorem buildTree_of_one {F : Byte → Nat} {b : Byte} (hb : 0 < F b) (hother : ∀ c, c ≠ b → F c = 0) :
    buildTree F = some (.single (.leaf b (F b)) (F b) 256) := by
  have hocc : occurring F = [b] := by
    refine List.perm_singleton.1 ((List.perm_ext_iff_of_nodup (occurring_nodup F) (by simp)).2 fun c => ?_)
    rw [mem_occurring, List.mem_singleton]
    exact ⟨fun hc => by_contra fun hne => absurd (hother c hne) hc.ne', fun h => h ▸ hb⟩
  exact buildTree_of_sole (a := .leaf b (F b)) (by simp [leafPool_eq, hocc])

/-! Codes -/

/-- Only a tree that is not Empty has codes, and they are the paths to its leaves (R123, R124). -/
theorem codeOf_eq_some {T? : Option HuffNode} {b : Byte} {c : List Bool} :
    codeOf T? b = some c ↔ ∃ T, T? = some T ∧ T.code? b = some c := Option.bind_eq_some_iff

/-- A symbol has a code exactly when it occurs (R124). -/
theorem codeOf_isSome {F : Byte → Nat} {b : Byte} : (codeOf (buildTree F) b).isSome = true ↔ 0 < F b := by
  cases htree : buildTree F with
  | none => simp [codeOf, buildTree_eq_none_iff.1 htree b]
  | some T =>
    rw [← mem_occurring, ← (buildTree_symbols htree).mem_iff, ← HuffNode.code?_isSome]
    rfl

/-- A code has at least one bit, and at most 255, for a tree has at most 256 leaves (R125). -/
theorem codeOf_length {F : Byte → Nat} {b : Byte} {c : List Bool} (h : codeOf (buildTree F) b = some c) :
    1 ≤ c.length ∧ c.length ≤ 255 := by
  obtain ⟨T, htree, hcode⟩ := codeOf_eq_some.1 h
  refine ⟨?_, ?_⟩
  · obtain ⟨bit, c', -, rfl, -⟩ := HuffNode.code?_step (buildTree_isInner htree) hcode
    exact Nat.le_add_left _ _
  · rcases buildTree_cases F with ⟨-, hnone⟩ | ⟨a, -, hsole⟩ | ⟨-, U, hU, hfull, -, hsymbols⟩
    · rw [hnone] at htree; cases htree
    · rw [hsole] at htree
      cases htree
      obtain ⟨-, rfl⟩ : a = b ∧ [false] = c := by simpa [HuffNode.code?] using hcode
      simp
    · rw [hU] at htree
      cases htree
      have hleaves := HuffNode.code?_length hfull hcode
      rw [hsymbols.length_eq] at hleaves
      have hmax := occurring_length_le F
      omega

/-- Settles O26: the pool is `leafPool_eq`, a turn of the loop `mergePool_turn`, and a code is a path
because the tree's symbols are distinct. -/
theorem buildTreeMergesTheTwoLeastKeys : Obligations.BuildTreeMergesTheTwoLeastKeys := by
  refine ⟨fun F => ⟨leafPool_nodup F, fun _ => mem_leafPool⟩, fun _ _ => ⟨rfl, rfl⟩,
    fun _ _ _ _ => ⟨rfl, rfl⟩,
    fun F => ⟨buildTree_of_empty, fun _ => buildTree_of_sole, buildTree_of_two⟩,
    fun fuel _ _ _ _ _ => mergePool_turn fuel, fun _ _ _ => rfl, fun F b c => ?_⟩
  have hpath : ∀ T, buildTree F = some T → (T.code? b = some c ↔ ∃ f, T.follow c = some (.leaf b f)) :=
    fun T htree => HuffNode.code?_iff_follow
      ((buildTree_symbols htree).nodup_iff.2 (occurring_nodup F))
  rw [codeOf_eq_some]
  constructor
  · rintro ⟨T, htree, hcode⟩
    obtain ⟨f, hfollow⟩ := (hpath T htree).1 hcode
    exact ⟨T, f, htree, hfollow⟩
  · rintro ⟨T, f, htree, hfollow⟩
    exact ⟨T, htree, (hpath T htree).2 ⟨f, hfollow⟩⟩

/-- Settles O27: the leaves are the symbols that occur, and a sole one hangs to the left of the root. -/
theorem symbolsThatOccurHaveCodes : Obligations.SymbolsThatOccurHaveCodes := by
  refine fun F b => ⟨codeOf_isSome, fun hb hother => ?_⟩
  rw [buildTree_of_one hb hother]
  simp [codeOf, HuffNode.code?]

/-- Settles O28, from the paths of one tree. -/
theorem codesArePrefixFreeAndShort : Obligations.CodesArePrefixFreeAndShort := by
  intro F a b c d hc hd
  refine ⟨codeOf_length hc, fun hbegins => ?_⟩
  obtain ⟨T, htree, hcode⟩ := codeOf_eq_some.1 hc
  obtain ⟨U, htree', hcode'⟩ := codeOf_eq_some.1 hd
  obtain rfl : T = U := Option.some.inj (htree.symm.trans htree')
  exact HuffNode.code?_beginning hcode hcode' hbegins

end Sys2Proof.Machine
end

section
/-! Proofs about the packed bitstream (R126) and HUF_ENCODE (R130 to R132): the stream read back, the bounds
on the codes of an input, and the state the command leaves. -/

namespace Sys2Proof.Machine

/-! The packed bitstream -/

/-- Settles O29: bit t of the stream is bit 7 − t mod 8 of byte t div 8, where packing put bit t. -/
theorem streamBitsReadThePackedBits : Obligations.StreamBitsReadThePackedBits := by
  intro s bits hpacked
  refine List.ext_getElem (by simp [State.streamBits]) fun t ht ht' => ?_
  have hbyte : t / 8 < bytesFor bits.length := by unfold bytesFor; omega
  calc (s.streamBits bits.length)[t]
      = s.streamBit t := by simp [State.streamBits]
    _ = (packByte bits (t / 8)).getLsbD (7 - t % 8) := by rw [State.streamBit, hpacked _ hbyte]
    _ = bits.getD (8 * (t / 8) + t % 8) false := packByte_getLsbD _ _ _ (Nat.mod_lt _ (by norm_num))
    _ = bits[t] := by rw [Nat.div_add_mod, List.getD_eq_getElem _ _ ht']

/-! Code lengths -/

/-- A code, or the empty string in its place, has at most 255 bits (R125). -/
theorem codeOf_getD_length_le (F : Byte → Nat) (b : Byte) :
    ((codeOf (buildTree F) b).getD []).length ≤ 255 := by
  cases hcode : codeOf (buildTree F) b with
  | none => exact Nat.zero_le _
  | some c => exact (codeOf_length hcode).2

/-- CODELEN's bytes hold every code length, for none exceeds 255 (R124, R125). -/
theorem codelenIs_buildTree {s : State} {F : Byte → Nat} (h : s.codelen = codeLengths (buildTree F)) :
    s.codelenIs (buildTree F) := by
  intro b
  have hlen := codeOf_getD_length_le F b
  rw [State.codelenAt_of_eq h, BitVec.toNat_ofNat, Nat.mod_eq_of_lt (by omega)]

/-- The codes of a list of bytes have at most 255 bits each (R132). -/
theorem encodeBits_length_le (F : Byte → Nat) (data : List Byte) :
    (encodeBits (buildTree F) data).length ≤ 255 * data.length := by
  induction data with
  | nil => exact Nat.le_refl 0
  | cons b data ih =>
    have hcode := codeOf_getD_length_le F b
    simp only [encodeBits, List.flatMap_cons, List.length_append, List.length_cons] at ih ⊢
    omega

/-! The input and its counts -/

@[simp] theorem inputBytes_length (s : State) : s.inputBytes.length = s.ilen.toNat := by
  simp [State.inputBytes]

@[simp] theorem inputBytes_getElem (s : State) (i : Nat) (h : i < s.inputBytes.length) :
    s.inputBytes[i] = s.ibufAt i := by
  simp [State.inputBytes]

theorem inputBits_length_le (s : State) : s.inputBits.length ≤ 255 * s.ilen.toNat :=
  inputBytes_length s ▸ encodeBits_length_le _ s.inputBytes

/-- Every byte of a list is counted under exactly one symbol (R132). -/
theorem sum_count_of_nodup {symbols : List Byte} (hnodup : symbols.Nodup) (hall : ∀ b, b ∈ symbols)
    (data : List Byte) : (symbols.map fun b => data.count b).sum = data.length := by
  rw [← List.sum_toFinset _ hnodup]
  simpa using Multiset.sum_count_eq_card (m := data) fun b _ => List.mem_toFinset.2 (hall b)

theorem State.hufCounted_freqAt (s : State) (T : Option HuffNode) (b : Byte) :
    (s.hufCounted T).freqAt b = BitVec.ofNat 32 (s.inputBytes.count b) :=
  State.freqAt_of_eq (F := fun a => BitVec.ofNat 32 (s.inputBytes.count a)) rfl b

section
variable {s : State} (hp : s.params.wf = true) (hlen : s.ilen.toNat ≤ s.params.ibufSize)
include hp hlen

/-- An input that IBUF holds has at most 2^24 bytes (R11). -/
theorem ilen_le : s.ilen.toNat ≤ 2 ^ 24 := by
  simp only [Params.wf, Params.ibufOk, Bool.and_eq_true, decide_eq_true_eq] at hp
  omega

theorem inputBits_length_lt : s.inputBits.length < 2 ^ 32 := by
  have hbits := inputBits_length_le s
  have hmax := ilen_le hp hlen
  omega

/-- What HUF_ENCODE writes before its check of the stream's length: every count and every length fits its
register (R130). -/
theorem hufCounted_holds :
    (∀ b, ((s.hufCounted s.inputTree).freqAt b).toNat = s.inputBytes.count b) ∧
      (s.hufCounted s.inputTree).codelenIs s.inputTree ∧
      (s.hufCounted s.inputTree).bitlen.toNat = s.inputBits.length := by
  refine ⟨fun b => ?_, codelenIs_buildTree rfl, ?_⟩
  · have hcount : s.inputBytes.count b ≤ s.inputBytes.length := List.count_le_length
    have hmax := ilen_le hp hlen
    rw [inputBytes_length] at hcount
    rw [State.hufCounted_freqAt, BitVec.toNat_ofNat, Nat.mod_eq_of_lt (by omega)]
  · exact (BitVec.toNat_ofNat _ _).trans (Nat.mod_eq_of_lt (inputBits_length_lt hp hlen))

end

/-! HUF_ENCODE -/

/-- HUF_ENCODE's end step is the end of its one stage (R130, R220). -/
theorem exec_hufEncode (s : State) :
    exec .hufEncode s = .next ((hufEncodeBody s).thenDo 0x01#8 State.successEnd) := rfl

/-- Settles O30, from the body's success and what its writes hold. -/
theorem hufEncodePacksItsInput : Obligations.HufEncodePacksItsInput := by
  intro s hp hlen hfront
  rw [exec_hufEncode, hufEncodeBody_ok hlen hfront]
  obtain ⟨hfreq, hcodelen, hbitlen⟩ := hufCounted_holds hp hlen
  refine ⟨_, rfl, rfl, hfreq, hcodelen, hbitlen, fun q hq => ?_, fun q hq => ?_, fun i => ⟨rfl, rfl⟩⟩
  · refine (State.wbufAt_storeCube (s.hufCounted s.inputTree) _ q).trans ?_
    rw [dif_pos (by simpa using hq), cubeWords_getElem _ _ _ hq]
  · refine (State.wbufAt_storeCube (s.hufCounted s.inputTree) _ q).trans ?_
    rw [dif_neg (by simpa using hq)]
    rfl

/-- Settles O31, from the body's error and what its writes hold. -/
theorem hufEncodeStreamTooLong : Obligations.HufEncodeStreamTooLong := by
  intro s hp hlen hfront
  rw [exec_hufEncode, hufEncodeBody_overflow hlen hfront]
  exact ⟨_, rfl, rfl, hufCounted_holds hp hlen⟩

/-- HUF_ENCODE ends without an error only if both its checks pass (R130 checks HE1 and HE2). -/
theorem hufEncode_noErr {s t : State} (hexec : exec .hufEncode s = .next t)
    (hok : t.status.err = false) :
    s.ilen.toNat ≤ s.params.ibufSize ∧ bytesFor s.inputBits.length ≤ s.params.front := by
  have hend : (hufEncodeBody s).thenDo 0x01#8 State.successEnd = t := Host.Outcome.next.inj hexec
  obtain ⟨u, hbody, -⟩ := StageEnd.of_thenDo_noErr hend hok
  by_cases hlen : s.params.ibufSize < s.ilen.toNat
  · rw [hufEncodeBody_tooLong hlen] at hbody; cases hbody
  by_cases hfront : s.params.front < bytesFor s.inputBits.length
  · rw [hufEncodeBody_overflow (not_lt.1 hlen) hfront] at hbody; cases hbody
  exact ⟨not_lt.1 hlen, not_lt.1 hfront⟩

/-- What HUF_ENCODE leaves when it ends without an error (R130). -/
theorem hufEncode_leaves {s t : State} (hp : s.params.wf = true) (hexec : exec .hufEncode s = .next t)
    (hok : t.status.err = false) :
    (∀ b, (t.freqAt b).toNat = s.inputBytes.count b) ∧ t.bitlen.toNat = s.inputBits.length ∧
      ∀ q < s.params.capacity, t.wbufAt q =
        tagged 0 (if q < bytesFor s.inputBits.length then packByte s.inputBits q else 0#8) := by
  obtain ⟨hlen, hfront⟩ := hufEncode_noErr hexec hok
  obtain ⟨u, hu, -, hfreq, -, hbitlen, hwords, -⟩ := hufEncodePacksItsInput s hp hlen hfront
  obtain rfl : t = u := Host.Outcome.next.inj (hexec.symm.trans hu)
  exact ⟨hfreq, hbitlen, hwords⟩

/-- Settles O32, from what a successful HUF_ENCODE leaves and the bounds on its input. -/
theorem hufEncodeBounds : Obligations.HufEncodeBounds := by
  intro s t hp hexec hok
  obtain ⟨hlen, hfront⟩ := hufEncode_noErr hexec hok
  obtain ⟨hfreq, hbitlen, hwords⟩ := hufEncode_leaves hp hexec hok
  have hmax := ilen_le hp hlen
  rw [hbitlen]
  refine ⟨inputBits_length_le s, by omega, hfront, fun q hq => ⟨by rw [hwords q hq]; rfl,
    fun hbeyond => ?_⟩, hfreq, ?_⟩
  · rw [hwords q hq, if_neg (not_lt.2 hbeyond)]
    rfl
  · rw [← inputBytes_length, ← sum_count_of_nodup allSymbols_nodup mem_allSymbols,
      allSymbols, List.map_map]
    simp only [hfreq, Function.comp_def]

end Sys2Proof.Machine
end

section
/-! Proofs about HUF_DECODE (R140) and the Huffman round trip (R143): what the bit walk emits on the codes of
a list of bytes and how it ends after them, and the state the command leaves after a walk. -/

namespace Sys2Proof.Machine

/-! The bit walk -/

/-- A bit walk emits at most one byte a bit (R140). -/
theorem walkBits_out_length_le_bits (root : HuffNode) (cap : Nat) : ∀ (bits : List Bool)
    (at? : Option HuffNode) (n : Nat), (walkBits root cap bits at? n).out.length ≤ bits.length
  | [], _, _ => Nat.le_refl 0
  | bit :: bits, at?, n => by
    rw [walkBits_cons]
    split
    · exact Nat.zero_le _
    · split
      · exact Nat.zero_le _
      · exact Nat.succ_le_succ (walkBits_out_length_le_bits root cap bits none (n + 1))
    · exact (walkBits_out_length_le_bits root cap bits _ n).trans (Nat.le_succ _)

/-- Decoding the codes of bytes that occur and that fit emits them, and goes on from the root with the rest
of the bits (R140). -/
theorem decodeBits_encode {F : Byte → Nat} {T : HuffNode} (htree : buildTree F = some T) {cap : Nat}
    {out : List Byte} (hout : ∀ b ∈ out, 0 < F b) (hcap : out.length ≤ cap) (rest : List Bool) :
    decodeBits (buildTree F) cap (encodeBits (buildTree F) out ++ rest) =
      ⟨out ++ (walkBits T cap rest none out.length).out, (walkBits T cap rest none out.length).err⟩ := by
  have hcodes : ∀ b ∈ out, (codeOf (some T) b).isSome = true :=
    fun b hb => htree ▸ codeOf_isSome.2 (hout b hb)
  have hwalk := walkBits_encode T (buildTree_isInner htree) cap rest out 0 hcodes (by omega)
  rw [Nat.zero_add] at hwalk
  rw [htree]
  exact hwalk

/-- Decoding nothing but the codes of bytes that occur and fit emits them without an error (R140). -/
theorem decodeBits_codes {F : Byte → Nat} {cap : Nat} {out : List Byte} (hout : ∀ b ∈ out, 0 < F b)
    (hcap : out.length ≤ cap) :
    decodeBits (buildTree F) cap (encodeBits (buildTree F) out) = ⟨out, none⟩ := by
  cases htree : buildTree F with
  | none =>
    have hnil : out = [] := List.eq_nil_iff_forall_not_mem.2 fun b hb =>
      (hout b hb).ne' (buildTree_eq_none_iff.1 htree b)
    subst hnil
    rfl
  | some T =>
    have hwalk := decodeBits_encode htree hout hcap []
    rw [List.append_nil] at hwalk
    simpa [htree, walkBits] using hwalk

/-! HUF_DECODE after a walk -/

/-- HUF_DECODE's end step is the end of its one stage (R140, R220). -/
theorem exec_hufDecode (s : State) :
    exec .hufDecode s = .next ((hufDecodeBody s).thenDo 0x11#8 State.successEnd) := rfl

/-- The state HUF_DECODE ends in after a walk that gave `out` and no error (R140, R53). -/
theorem exec_hufDecode_ok {s : State} {out : List Byte} (hbits : s.bitlen.toNat ≤ 8 * s.params.front)
    (hwalk : s.hufWalk = ⟨out, none⟩) :
    exec .hufDecode s = .next (s.hufDecoded ⟨out, none⟩).successEnd := by
  rw [exec_hufDecode, hufDecodeBody_walks hbits, hwalk]
  rfl

/-- The state HUF_DECODE ends in after a walk that gave `out` and an error (R140, R245, R246). -/
theorem exec_hufDecode_error {s : State} {out : List Byte} {e : CmdError}
    (hbits : s.bitlen.toNat ≤ 8 * s.params.front) (hwalk : s.hufWalk = ⟨out, some e⟩) :
    exec .hufDecode s = .next ((s.hufDecoded ⟨out, some e⟩).errorEnd e 0x11#8) := by
  rw [exec_hufDecode, hufDecodeBody_walks hbits, hwalk]
  rfl

/-- The number of bytes a walk of HUF_DECODE emits fits OLEN: each takes a bit of BITLEN's (R38, R140). -/
theorem hufWalk_out_length_lt (s : State) : s.hufWalk.out.length < 2 ^ 32 := by
  refine Nat.lt_of_le_of_lt ?_ s.bitlen.isLt
  unfold State.hufWalk decodeBits
  cases s.freqTree with
  | none => exact Nat.zero_le _
  | some root =>
    simpa [State.streamBits] using walkBits_out_length_le_bits root s.params.obufSize
      (s.streamBits s.bitlen.toNat) none 0

/-- OBUF after a walk: the bytes it emitted, and every later cell as before (R140). -/
theorem State.hufDecoded_obufAt (s : State) (r : WalkEnd) (n : Nat) :
    (s.hufDecoded r).obufAt n = if h : n < r.out.length then r.out[n] else s.obufAt n := by
  simp only [State.obufAt, State.hufDecoded, Memory.listed_writeFront, Memory.writeFront_era]
  split <;> rfl

/-- What HUF_DECODE writes after its walk: the code lengths, the number of bytes emitted, and the bytes
(R124, R140). -/
theorem hufDecoded_holds {s : State} {out : List Byte} {err : Option CmdError}
    (hwalk : s.hufWalk = ⟨out, err⟩) :
    (s.hufDecoded ⟨out, err⟩).codelenIs s.freqTree ∧
      (s.hufDecoded ⟨out, err⟩).olen.toNat = out.length ∧
      (∀ n, (h : n < out.length) → (s.hufDecoded ⟨out, err⟩).obufAt n = out[n]) ∧
      ∀ n, out.length ≤ n → (s.hufDecoded ⟨out, err⟩).obufAt n = s.obufAt n := by
  have hlt := hufWalk_out_length_lt s
  rw [hwalk] at hlt
  refine ⟨codelenIs_buildTree rfl, ?_, fun n hn => ?_, fun n hn => ?_⟩
  · exact (BitVec.toNat_ofNat _ _).trans (Nat.mod_eq_of_lt hlt)
  · exact (s.hufDecoded_obufAt _ n).trans (dif_pos hn)
  · exact (s.hufDecoded_obufAt _ n).trans (dif_neg (not_lt.2 hn))

/-- Settles O33: the walk emits the list and ends at the root. -/
theorem hufDecodeReadsTheCodes : Obligations.HufDecodeReadsTheCodes := by
  intro s out hbits hout hstream hcap
  have hwalk : s.hufWalk = ⟨out, none⟩ := by
    rw [State.hufWalk, hstream]
    exact decodeBits_codes hout hcap
  obtain ⟨hcodelen, holen, hwritten, hkept⟩ := hufDecoded_holds hwalk
  exact ⟨_, exec_hufDecode_ok hbits hwalk, rfl, hcodelen, holen, hwritten, hkept, fun i => ⟨rfl, rfl⟩⟩

/-- A walk of an Empty tree stops at the first bit (R140 check HD2). -/
theorem hufWalk_of_empty {s : State} (hfreq : ∀ b, s.freqAt b = 0#32) (hbits : 0 < s.bitlen.toNat) :
    s.hufWalk = ⟨[], some .invalidCode⟩ := by
  have htree : s.freqTree = none := buildTree_eq_none_iff.2 fun b => by rw [hfreq b]; rfl
  have hne : s.streamBits s.bitlen.toNat ≠ [] := List.ne_nil_of_length_pos (by simpa [State.streamBits])
  simp [State.hufWalk, htree, decodeBits, hne]

/-- A walk of a one-symbol tree emits the symbol for each zero bit and stops at the first one bit, for the
root has no right child (R140 check HD3). -/
theorem hufWalk_of_sole {s : State} {b : Byte} {n : Nat} {rest : List Bool} (hb : s.freqAt b ≠ 0#32)
    (hother : ∀ c, c ≠ b → s.freqAt c = 0#32)
    (hstream : s.streamBits s.bitlen.toNat = List.replicate n false ++ true :: rest)
    (hcap : n ≤ s.params.obufSize) :
    s.hufWalk = ⟨List.replicate n b, some .invalidCode⟩ := by
  have hpos : 0 < (s.freqAt b).toNat := Nat.pos_of_ne_zero fun h => hb (BitVec.eq_of_toNat_eq h)
  have hzero : ∀ c, c ≠ b → (s.freqAt c).toNat = 0 := fun c hc => by rw [hother c hc]; rfl
  have htree := buildTree_of_one hpos hzero
  have hcode := (symbolsThatOccurHaveCodes _ b).2 hpos hzero
  have hzeros : encodeBits s.freqTree (List.replicate n b) = List.replicate n false := by
    rw [encodeBits, List.flatMap_replicate, State.freqTree, hcode]
    simp
  rw [State.hufWalk, hstream, ← hzeros]
  refine (decodeBits_encode htree (fun c hc => List.eq_of_mem_replicate hc ▸ hpos) (by simpa using hcap)
    (true :: rest)).trans ?_
  simp [walkBits_cons, HuffNode.child?, HuffNode.right?]

/-- Settles O34, from the two walks that reach no node. -/
theorem hufDecodeInvalidCode : Obligations.HufDecodeInvalidCode := by
  refine fun s hbits => ⟨fun hfreq hsome => ?_, fun b n rest hb hother hstream hcap => ?_⟩
  · have hwalk := hufWalk_of_empty hfreq hsome
    obtain ⟨hcodelen, -, -, hkept⟩ := hufDecoded_holds hwalk
    exact ⟨_, exec_hufDecode_error hbits hwalk, rfl, hcodelen, fun n => hkept n (Nat.zero_le n)⟩
  · have hwalk := hufWalk_of_sole hb hother hstream hcap
    obtain ⟨hcodelen, -, hwritten, hkept⟩ := hufDecoded_holds hwalk
    have hlength : (List.replicate n b).length = n := List.length_replicate
    refine ⟨_, exec_hufDecode_error hbits hwalk, ?_, hcodelen, fun i hi => ?_, fun i hi => ?_⟩
    · simp [State.hufDecoded, State.errorEnd, State.failed, CmdError.code]
    · exact (hwritten i (by rwa [hlength])).trans (List.getElem_replicate _)
    · exact hkept i (by rwa [hlength])

/-- Settles O35: the walk emits all bytes but the last, whose code then finds OBUF full. -/
theorem hufDecodeOutputOverflow : Obligations.HufDecodeOutputOverflow := by
  intro s out rest hbits hout hlength hstream
  obtain ⟨init, last, rfl⟩ : ∃ init last, out = init ++ [last] :=
    ⟨out.dropLast, out.getLast (List.ne_nil_of_length_pos (by omega)),
      (List.dropLast_append_getLast _).symm⟩
  have hinit : init.length = s.params.obufSize := by simpa using hlength
  have hlast : (codeOf s.freqTree last).isSome = true := codeOf_isSome.2 (hout last (by simp))
  obtain ⟨c, hc⟩ := Option.isSome_iff_exists.1 hlast
  obtain ⟨T, htree, hcode⟩ := codeOf_eq_some.1 hc
  have hwalk : s.hufWalk = ⟨init, some .outputOverflow⟩ := by
    have hcodes : encodeBits s.freqTree (init ++ [last]) ++ rest =
        encodeBits s.freqTree init ++ (c ++ rest) := by
      simp [encodeBits, hc]
    rw [State.hufWalk, hstream, hcodes]
    refine (decodeBits_encode htree (fun b hb => hout b (by simp [hb])) hinit.le (c ++ rest)).trans ?_
    rw [walkBits_code T _ rest _ c none (buildTree_isInner htree) hcode, if_pos hinit]
    simp
  obtain ⟨hcodelen, holen, hwritten, hkept⟩ := hufDecoded_holds hwalk
  refine ⟨_, exec_hufDecode_error hbits hwalk, rfl, hcodelen, holen.trans hinit, fun n _ hn => ?_,
    fun n hn => hkept n (hinit.trans_le hn)⟩
  rw [List.getElem_append_left (hinit ▸ hn)]
  exact hwritten n (hinit ▸ hn)

/-- Settles O36: the walk emits the list and ends below the root. -/
theorem hufDecodeUnderrunInsideACode : Obligations.HufDecodeUnderrunInsideACode := by
  intro s out b c part hbits hout hcap hc hbegins hne hpart hstream
  obtain ⟨T, htree, hcode⟩ := codeOf_eq_some.1 hc
  have hwalk : s.hufWalk = ⟨out, some .decodeUnderrun⟩ := by
    rw [State.hufWalk, hstream]
    refine (decodeBits_encode htree hout hcap part).trans ?_
    rw [walkBits_part T _ _ c part none (buildTree_isInner htree) hcode hbegins hne (.inl hpart)]
    simp
  obtain ⟨hcodelen, holen, hwritten, hkept⟩ := hufDecoded_holds hwalk
  exact ⟨_, exec_hufDecode_error hbits hwalk, rfl, hcodelen, holen, hwritten, hkept⟩

/-! The round trip -/

/-- Settles O37: the later state's tree, bits and length are the encoder's, so HUF_DECODE reads the codes of
the input. -/
theorem huffmanRoundTrip : Obligations.HuffmanRoundTrip := by
  intro s a d hp hexec hok hparams hfreq hbitlen hpayloads hcap
  obtain ⟨hlen, hfront⟩ := hufEncode_noErr hexec hok
  obtain ⟨hcounts, hlength, hwords⟩ := hufEncode_leaves hp hexec hok
  have hdcounts : ∀ b, (d.freqAt b).toNat = s.inputBytes.count b := fun b => by
    rw [State.freqAt_congr hfreq, hcounts b]
  have htree : d.freqTree = s.inputTree := congrArg buildTree (funext hdcounts)
  have hfits : bytesFor s.inputBits.length ≤ s.params.capacity := by
    have hsizes := Params.front_add_tail s.params hp
    omega
  have hstream : d.streamBits d.bitlen.toNat = encodeBits d.freqTree s.inputBytes := by
    rw [hbitlen, hlength, htree]
    refine streamBitsReadThePackedBits d s.inputBits fun q hq => ?_
    rw [hpayloads q (by rwa [hlength]), hwords q (by omega), if_pos hq]
    rfl
  have hbits : d.bitlen.toNat ≤ 8 * d.params.front := by
    rw [hbitlen, hlength, hparams]
    unfold bytesFor at hfront
    omega
  obtain ⟨t, ht, hframe, -, holen, hout, -⟩ := hufDecodeReadsTheCodes d s.inputBytes hbits
    (fun b hb => hdcounts b ▸ List.count_pos_iff.2 hb) hstream (by rwa [inputBytes_length, hparams])
  refine ⟨t, ht, by rw [hframe]; rfl, by rw [hframe]; rfl, ?_, fun i hi => ?_⟩
  · exact BitVec.eq_of_toNat_eq (holen.trans (inputBytes_length s))
  · rw [hout i (by rwa [inputBytes_length]), inputBytes_getElem]

end Sys2Proof.Machine
end

section
/-! Proofs about the keyed coordinate map (R160, R161, R164): Fwd and Inv undo each other, on coordinates
and on positions, and the source's step-5 loop is Fwd run from the new X back. -/

namespace Sys2Proof.Machine

/-! Coordinates -/

/-- Inv undoes Fwd on the cube: Z and Y come back by K of the new X, then X by K of the old Y (R161). -/
theorem inv_fwd (p : Params) (K : Nat → Nat) {c : Coord} (h : Coord.inCube p c) :
    inv p K (fwd p K c) = c := by
  obtain ⟨hx, hy, hz⟩ := h
  simp only [inv, fwd, subMod_add_mod hx, subMod_add_mod hy, subMod_add_mod hz]

/-- Fwd undoes Inv on the cube (R161). -/
theorem fwd_inv (p : Params) (K : Nat → Nat) {c : Coord} (h : Coord.inCube p c) :
    fwd p K (inv p K c) = c := by
  obtain ⟨hx, hy, hz⟩ := h
  simp only [inv, fwd, add_subMod_mod hx, add_subMod_mod hy, add_subMod_mod hz]

/-- Settles O39, from the two inversion laws and the closure of the cube. -/
theorem fwdAndInvAreInverse : Obligations.FwdAndInvAreInverse := by
  intro p K c hx hy hz
  have h : Coord.inCube p c := ⟨hx, hy, hz⟩
  exact ⟨inv_fwd p K h, fwd_inv p K h, fwd_inCube p K c, inv_inCube p K c⟩

/-- Fwd reads only key shifts below S (R17, R160). -/
theorem fwd_congr {p : Params} {K L : Nat → Nat} (hKL : ∀ i < p.side, K i = L i) {c : Coord}
    (h : Coord.inCube p c) : fwd p K c = fwd p L c := by
  have hX : ∀ a, K (a % p.side) = L (a % p.side) := fun a => hKL _ (Nat.mod_lt a p.side_pos)
  simp only [fwd, hKL c.y h.2.1, hX]

/-! Positions -/

/-- The position whose coordinate is Fwd of that of `q` (R165, R166). -/
def fwdIndex (p : Params) (K : Nat → Nat) (q : Nat) : Nat := lin p (fwd p K (decomp p q))

/-- The position Fwd leads to depends on the key shifts below S alone. -/
theorem fwdIndex_congr {p : Params} {K L : Nat → Nat} (hKL : ∀ i < p.side, K i = L i) {q : Nat}
    (hq : q < p.capacity) : fwdIndex p K q = fwdIndex p L q := by
  rw [fwdIndex, fwdIndex, fwd_congr hKL (decomp_inCube p hq)]

/-- The position whose coordinate is Inv of that of `r` (R170). -/
def invIndex (p : Params) (K : Nat → Nat) (r : Nat) : Nat := lin p (inv p K (decomp p r))

theorem fwdIndex_lt (p : Params) (K : Nat → Nat) (q : Nat) : fwdIndex p K q < p.capacity :=
  lin_lt p (fwd_inCube p K _)

theorem invIndex_lt (p : Params) (K : Nat → Nat) (r : Nat) : invIndex p K r < p.capacity :=
  lin_lt p (inv_inCube p K _)

theorem decomp_fwdIndex (p : Params) (K : Nat → Nat) (q : Nat) :
    decomp p (fwdIndex p K q) = fwd p K (decomp p q) := decomp_lin p (fwd_inCube p K _)

theorem decomp_invIndex (p : Params) (K : Nat → Nat) (r : Nat) :
    decomp p (invIndex p K r) = inv p K (decomp p r) := decomp_lin p (inv_inCube p K _)

theorem invIndex_fwdIndex (p : Params) (K : Nat → Nat) {q : Nat} (h : q < p.capacity) :
    invIndex p K (fwdIndex p K q) = q := by
  rw [invIndex, decomp_fwdIndex, inv_fwd p K (decomp_inCube p h), lin_decomp]

theorem fwdIndex_invIndex (p : Params) (K : Nat → Nat) {r : Nat} (h : r < p.capacity) :
    fwdIndex p K (invIndex p K r) = r := by
  rw [fwdIndex, decomp_invIndex, fwd_inv p K (decomp_inCube p h), lin_decomp]

/-! The source's loop -/

/-- The loop's signed arithmetic gives the non-negative remainder of R13. -/
theorem toNat_sub_add_emod {m : Nat} (hm : 0 < m) (a b : Nat) :
    (((a : Int) - b + m) % m).toNat = subMod m a b := by
  have hb := Nat.mod_lt b hm
  have hdiv : (m : Int) * (b / m : Nat) + (b % m : Nat) = b := mod_cast Nat.div_add_mod b m
  have hshift : (a : Int) - b + m = ((a + (m - b % m) : Nat) : Int) + m * -((b / m : Nat) : Int) := by
    rw [← hdiv]
    push_cast [hb.le]
    ring
  rw [hshift, Int.add_mul_emod_self_left, ← Int.natCast_emod, Int.toNat_natCast, subMod]

/-- Fwd with shifts reduced mod S is Fwd with the whole key bytes (R17, R160). -/
theorem fwd_keyShift (s : State) (c : Coord) :
    fwd s.params s.keyShift c = fwd s.params (fun i => (s.keyAt i).toNat) c := by
  simp only [fwd, State.keyShift, Nat.add_mod_mod]

/-- Settles O40: xLoc is x − KEY[y] mod S, which R13's two laws undo and reach. -/
theorem literalLoopWritesFwd : Obligations.LiteralLoopWritesFwd := by
  intro s x y z _ hx _ _
  have hpos := s.params.side_pos
  simp only [toNat_sub_add_emod hpos]
  have hback := add_subMod_mod hx (s.keyAt y).toNat
  refine ⟨subMod_lt hpos _ _, hback, ?_, fun a ha => ?_⟩
  · rw [fwd_keyShift]
    simp only [fwd, hback]
  · exact ⟨_, Nat.mod_lt _ hpos, subMod_add_mod ha (s.keyAt y).toNat⟩

end Sys2Proof.Machine
end

section
/-! Proofs about CUBE_ENCODE (R165, R166) and CUBE_DECODE (R170, R172): the tail's bytes, what each command
leaves in WBUF, and their round trip (R171). -/

namespace Sys2Proof.Machine

/-! The tail region -/

/-- The first 1024 tail bytes are the table's, four for each symbol (R162). -/
theorem tailByteOf_freq (F : Byte → Word) (B : Word) (b : Byte) {j : Nat} (hj : j < 4) :
    tailByteOf F B (4 * b.toNat + j) = byteBE (F b) j := by
  have hb := b.isLt
  have hsymbol : BitVec.ofNat 8 ((4 * b.toNat + j) / 4) = b := by
    rw [show (4 * b.toNat + j) / 4 = b.toNat by omega]
    simp
  have hbyte : (4 * b.toNat + j) % 4 = j := by omega
  rw [tailByteOf, if_pos (by omega), hsymbol, hbyte]

/-- The last four tail bytes are the bit length's (R162). -/
theorem tailByteOf_bitlen (F : Byte → Word) (B : Word) (j : Nat) :
    tailByteOf F B (1024 + j) = byteBE B j := by
  rw [tailByteOf, if_neg (by omega), Nat.add_sub_cancel_left]

/-- The four bytes of a value, the most significant first, read back as the value (R162, R170). -/
theorem wordBE_byteBE (v : Word) : wordBE (byteBE v 0) (byteBE v 1) (byteBE v 2) (byteBE v 3) = v := by
  have hv := v.isLt
  refine BitVec.eq_of_toNat_eq ?_
  simp only [wordBE_toNat, byteBE_toNat]
  omega

/-- Four tail bytes of a symbol read back as its count (R162, R170). -/
theorem tailWord_freq (F : Byte → Word) (B : Word) (b : Byte) :
    wordBE (tailByteOf F B (4 * b.toNat)) (tailByteOf F B (4 * b.toNat + 1))
      (tailByteOf F B (4 * b.toNat + 2)) (tailByteOf F B (4 * b.toNat + 3)) = F b := by
  have hfirst : tailByteOf F B (4 * b.toNat) = byteBE (F b) 0 :=
    tailByteOf_freq F B b (j := 0) (by norm_num)
  simp only [hfirst, tailByteOf_freq, Nat.reduceLT, wordBE_byteBE]

/-- The last four tail bytes read back as the bit length (R162, R170). -/
theorem tailWord_bitlen (F : Byte → Word) (B : Word) :
    wordBE (tailByteOf F B 1024) (tailByteOf F B 1025) (tailByteOf F B 1026) (tailByteOf F B 1027) = B :=
  wordBE_byteBE B

/-- Settles O42, from where each tail byte comes from and what the bytes of a value are. -/
theorem tailLayoutIsBigEndian : Obligations.TailLayoutIsBigEndian := by
  intro s b j hj
  refine ⟨?_, ?_, tailWord_freq s.freqAt s.bitlen b, tailWord_bitlen s.freqAt s.bitlen⟩
  · rw [State.tailByte, tailByteOf_freq _ _ b hj, byteBE_toNat]
  · rw [State.tailByte, tailByteOf_bitlen, byteBE_toNat]

/-- FREQ after the tail is read (R170). -/
theorem State.readTail_freqAt (s : State) (b : Byte) :
    s.readTail.freqAt b = s.wbufWordBE (s.params.front + 4 * b.toNat) :=
  State.freqAt_of_eq s.readTail_freq b

section
variable {s : State} {F : Byte → Word} {B : Word}
  (htail : ∀ q, s.params.front ≤ q → q < s.params.capacity →
    (s.wbufAt q).payload = tailByteOf F B (q - s.params.front))
include htail

/-- A value in a tail region that holds the tail of a table and a bit length is read from its four bytes. -/
theorem wbufWordBE_of_tail {r : Nat} (hr : s.params.front + r + 3 < s.params.capacity) :
    s.wbufWordBE (s.params.front + r) = wordBE (tailByteOf F B r) (tailByteOf F B (r + 1))
      (tailByteOf F B (r + 2)) (tailByteOf F B (r + 3)) := by
  have hbyte : ∀ j ≤ 3, (s.wbufAt (s.params.front + r + j)).payload = tailByteOf F B (r + j) :=
    fun j hj => by rw [htail _ (by omega) (by omega), Nat.add_assoc, Nat.add_sub_cancel_left]
  have hfirst : (s.wbufAt (s.params.front + r)).payload = tailByteOf F B r := by
    simpa using hbyte 0 (Nat.zero_le 3)
  rw [State.wbufWordBE, hfirst, hbyte 1 (by norm_num), hbyte 2 (by norm_num), hbyte 3 le_rfl]

/-- Reading the tail of a table and a bit length restores both (R162, R170). -/
theorem readTail_of_tail (hp : s.params.wf = true) :
    (∀ b, s.readTail.freqAt b = F b) ∧ s.readTail.bitlen = B := by
  have hsizes := Params.front_add_tail s.params hp
  refine ⟨fun b => ?_, ?_⟩
  · have hb := b.isLt
    rw [s.readTail_freqAt, wbufWordBE_of_tail htail (by omega), tailWord_freq]
  · have hplace : s.params.capacity - 4 = s.params.front + 1024 := by omega
    rw [State.readTail_bitlen, hplace, wbufWordBE_of_tail htail (by omega), tailWord_bitlen]

end

/-! The cube in WBUF -/

/-- WBUF after the cube is stored by position. -/
theorem State.wbufAt_storeCubeWords (s : State) (f : Nat → CubeWord) {q : Nat}
    (hq : q < s.params.capacity) : (s.storeCube (cubeWords s.params f)).wbufAt q = f q := by
  rw [State.wbufAt_storeCube, dif_pos (by simpa using hq), cubeWords_getElem _ _ _ hq]

/-- The first words of WBUF after a list is stored are that list. -/
theorem State.wbufAt_storeCube_range (s : State) (ws : List CubeWord) :
    (List.range ws.length).map (s.storeCube ws).wbufAt = ws := by
  refine List.ext_getElem (by simp) fun q _ hq => ?_
  rw [List.getElem_map, List.getElem_range, State.wbufAt_storeCube, dif_pos hq]

/-- WBUF beyond the cube is as before when a sorted cube is stored. -/
theorem State.wbufAt_storeSorted_beyond (s : State) (f : Nat → CubeWord) {q : Nat}
    (hq : s.params.capacity ≤ q) :
    (s.storeCube (sortAsc s.params (cubeWords s.params f))).wbufAt q = s.wbufAt q :=
  (s.wbufAt_storeCube _ q).trans (dif_neg (by simpa using hq))

/-! CUBE_ENCODE -/

/-- CUBE_ENCODE's end step is the end of its one stage (R165, R220). -/
theorem exec_cubeEncode (s : State) :
    exec .cubeEncode s = .next ((cubeEncodeBody s).thenDo 0x02#8 State.successEnd) := rfl

/-- CUBE_ENCODE's state after its words are written (R165). -/
def State.cubeScattered (s : State) : State :=
  s.storeCube (sortAsc s.params (cubeWords s.params (s.cubeEncoded (bytesFor s.bitlen.toNat))))

theorem cubeEncodeBody_scatters {s : State} (h : bytesFor s.bitlen.toNat ≤ s.params.front) :
    cubeEncodeBody s = .ok { s.cubeScattered with
      fillDraws := s.fillDraws + (s.params.front - bytesFor s.bitlen.toNat) } := cubeEncodeBody_ok h

/-- The sort moves the word of each position to the index of its new coordinate (R166). -/
theorem sortAsc_cubeEncoded {s : State} (hp : s.params.wf = true) (plen : Nat) :
    sortAsc s.params (cubeWords s.params (s.cubeEncoded plen)) =
      cubeWords s.params fun r => s.cubeEncoded plen (invIndex s.params s.keyShift r) :=
  sortAsc_scatter_dst s.params _ (fwdIndex s.params s.keyShift) _ (fun q _ => fwdIndex_lt _ _ q)
    (fun r _ => invIndex_lt _ _ r) (fun _ hr => fwdIndex_invIndex _ _ hr)
    (fun _ hq => invIndex_fwdIndex _ _ hq) fun _ _ => pack_tag _ hp (fwd_inCube _ _ _) _

/-- Rank r holds the word of position Inv(r) (R166). -/
theorem cubeScattered_wbufAt {s : State} (hp : s.params.wf = true) {r : Nat}
    (hr : r < s.params.capacity) : s.cubeScattered.wbufAt r =
      s.cubeEncoded (bytesFor s.bitlen.toNat) (invIndex s.params s.keyShift r) := by
  rw [State.cubeScattered, sortAsc_cubeEncoded hp, s.wbufAt_storeCubeWords _ hr]

/-- The payload of a position below the stream's end is the stream byte there (R165). -/
theorem cubePayload_stream (s : State) {plen q : Nat} (h : q < plen) :
    s.cubePayload plen q = (s.wbufAt q).payload := if_pos h

/-- The payload of a position of the tail region is the tail byte there (R162, R165). -/
theorem cubePayload_tail (s : State) {plen q : Nat} (hplen : plen ≤ s.params.front)
    (h : s.params.front ≤ q) : s.cubePayload plen q = s.tailByte (q - s.params.front) := by
  rw [State.cubePayload, if_neg (by omega), if_neg (by omega)]

/-- Settles O41: the sort is a scatter along Fwd, so each word stands at the index of its fields. -/
theorem cubeEncodePlacesEveryPayload : Obligations.CubeEncodePlacesEveryPayload := by
  intro s hp hfront
  rw [exec_cubeEncode, cubeEncodeBody_scatters hfront]
  refine ⟨_, rfl, rfl, fun q hq => ⟨s.cubePayload (bytesFor s.bitlen.toNat) q, ?_,
    cubePayload_stream s, cubePayload_tail s hfront⟩, fun r hr => ?_,
    fun q hq => s.wbufAt_storeSorted_beyond _ hq, fun _ => ⟨rfl, rfl⟩⟩
  · refine (cubeScattered_wbufAt hp (fwdIndex_lt _ _ q)).trans ?_
    rw [invIndex_fwdIndex _ _ hq, State.cubeEncoded]
  · calc (s.cubeScattered.wbufAt r).tag.toNat
        = fwdIndex s.params s.keyShift (invIndex s.params s.keyShift r) := by
          rw [cubeScattered_wbufAt hp hr]
          exact pack_tag _ hp (fwd_inCube _ _ _) _
      _ = r := fwdIndex_invIndex _ _ hr

/-- CUBE_ENCODE ends without an error only if the stream fits the front region (R165). -/
theorem cubeEncode_noErr {s t : State} (hexec : exec .cubeEncode s = .next t)
    (hok : t.status.err = false) : bytesFor s.bitlen.toNat ≤ s.params.front := by
  have hend : (cubeEncodeBody s).thenDo 0x02#8 State.successEnd = t := Host.Outcome.next.inj hexec
  obtain ⟨u, hbody, -⟩ := StageEnd.of_thenDo_noErr hend hok
  by_contra hfront
  rw [cubeEncodeBody_tooLong (not_le.1 hfront)] at hbody
  cases hbody

/-! CUBE_DECODE -/

/-- CUBE_DECODE's end step is the end of its one stage (R170, R220). -/
theorem exec_cubeDecode (s : State) :
    exec .cubeDecode s = .next ((cubeDecodeBody s).thenDo 0x12#8 State.successEnd) := rfl

/-- CUBE_DECODE's state after its words are written (R170). -/
def State.cubeGathered (s : State) : State :=
  s.storeCube (sortAsc s.params (cubeWords s.params s.cubeUnshifted))

theorem cubeDecodeBody_gathers {s : State} (h : s.wlen.toNat = s.params.capacity) :
    cubeDecodeBody s = .ok s.cubeGathered.readTail := cubeDecodeBody_ok h

/-- The words CUBE_DECODE writes are the sorted un-shifted ones (R170, R18). -/
theorem cubeGathered_range (s : State) : (List.range s.params.capacity).map s.cubeGathered.wbufAt =
    sortAsc s.params (cubeWords s.params s.cubeUnshifted) := by
  have hstored := s.wbufAt_storeCube_range (sortAsc s.params (cubeWords s.params s.cubeUnshifted))
  rwa [sortAsc_length, cubeWords_length] at hstored

/-- The words CUBE_DECODE writes are in ascending order (R172, R18). -/
theorem cubeGathered_ascending (s : State) {q r : Nat} (hqr : q < r) (hr : r < s.params.capacity) :
    (s.cubeGathered.wbufAt q).value ≤ (s.cubeGathered.wbufAt r).value := by
  have hsorted := sortAsc_pairwise s.params (cubeWords s.params s.cubeUnshifted) (by simp)
  rw [← cubeGathered_range, List.pairwise_map] at hsorted
  have hle := List.pairwise_iff_getElem.1 hsorted q r (by simp; omega) (by simpa using hr) hqr
  simpa [wordLe_iff] using hle

/-- Settles O43, from what the sort does to any words and what is read of the tail. -/
theorem cubeDecodeSortsTheUnshiftedWords : Obligations.CubeDecodeSortsTheUnshiftedWords := by
  intro s _ hwlen
  rw [exec_cubeDecode, cubeDecodeBody_gathers hwlen]
  refine ⟨_, rfl, rfl, ?_, fun _ _ hqr hr => cubeGathered_ascending s hqr hr,
    fun b => s.cubeGathered.readTail_freqAt b, rfl, fun _ hq => s.wbufAt_storeSorted_beyond _ hq,
    fun _ => ⟨rfl, rfl⟩⟩
  exact (List.Perm.of_eq (cubeGathered_range s)).trans (sortAsc_perm _ _)

/-! The round trip -/

/-- A word under its own index is un-shifted along Inv of that index's coordinate (R165, R170). -/
theorem cubeUnshifted_of_tag {s : State} {q : Nat} (hq : q < s.params.capacity)
    (htag : (s.wbufAt q).tag.toNat = q) : s.cubeUnshifted q =
      pack s.params (inv s.params s.keyShift (decomp s.params q)) (s.wbufAt q).payload := by
  rw [State.cubeUnshifted, fields_eq_decomp _ _ (by omega), htag]

section
variable {s : State} (hp : s.params.wf = true)
  (htags : ∀ r < s.params.capacity, (s.wbufAt r).tag.toNat = r)
include hp htags

/-- CUBE_DECODE's sort of a cube whose tags are its own indexes moves every word back along Inv (R171). -/
theorem sortAsc_cubeUnshifted : sortAsc s.params (cubeWords s.params s.cubeUnshifted) =
    cubeWords s.params fun q => s.cubeUnshifted (fwdIndex s.params s.keyShift q) :=
  sortAsc_scatter_dst s.params _ (invIndex s.params s.keyShift) _ (fun r _ => invIndex_lt _ _ r)
    (fun q _ => fwdIndex_lt _ _ q) (fun _ hq => invIndex_fwdIndex _ _ hq)
    (fun _ hr => fwdIndex_invIndex _ _ hr) fun r hr => by
      rw [cubeUnshifted_of_tag hr (htags r hr)]
      exact pack_tag _ hp (inv_inCube _ _ _) _

/-- CUBE_DECODE of a cube whose tags are its own indexes puts the payload at the index of Fwd(decomp(q))
under the coordinate of q (R170, R171). -/
theorem cubeGathered_of_tags {q : Nat} (hq : q < s.params.capacity) : s.cubeGathered.wbufAt q =
    pack s.params (decomp s.params q) (s.wbufAt (fwdIndex s.params s.keyShift q)).payload := by
  have hlt := fwdIndex_lt s.params s.keyShift q
  rw [State.cubeGathered, sortAsc_cubeUnshifted hp htags, s.wbufAt_storeCubeWords _ hq,
    cubeUnshifted_of_tag hlt (htags _ hlt), decomp_fwdIndex, inv_fwd _ _ (decomp_inCube _ hq)]

end

/-- Two states with the same count for each symbol have the same FREQ (R43). -/
theorem freq_ext {s t : State} (h : ∀ b, t.freqAt b = s.freqAt b) : t.freq = s.freq := by
  refine Vector.ext fun i hi => ?_
  have hindex : (BitVec.ofNat 8 i).toNat = i := Nat.mod_eq_of_lt hi
  simpa only [State.freqAt, hindex] using h (BitVec.ofNat 8 i)

/-- Settles O44: the encoder's tags are its indexes, so the decoder moves every payload back along Inv. -/
theorem cubeRoundTrip : Obligations.CubeRoundTrip := by
  intro s a d hp hexec hok hparams hkey hwlen hwords
  have hfront := cubeEncode_noErr hexec hok
  obtain ⟨u, hu, -, hplaced, htags, -⟩ := cubeEncodePlacesEveryPayload s hp hfront
  obtain rfl : a = u := Host.Outcome.next.inj (hexec.symm.trans hu)
  rw [← hparams] at hp hkey hwlen hwords hfront hplaced htags ⊢
  have hshift : ∀ i < d.params.side, d.keyShift i = s.keyShift i := fun i hi => by
    rw [State.keyShift, State.keyShift, hkey i hi, hparams]
  have hdtags : ∀ r < d.params.capacity, (d.wbufAt r).tag.toNat = r := fun r hr => by
    rw [hwords r hr, htags r hr]
  have hback : ∀ q < d.params.capacity, d.cubeGathered.wbufAt q =
      pack d.params (decomp d.params q) (a.wbufAt (fwdIndex d.params s.keyShift q)).payload := fun q hq => by
    rw [cubeGathered_of_tags hp hdtags hq, hwords _ (fwdIndex_lt _ _ q), fwdIndex_congr hshift hq]
  have hpayload : ∀ q < d.params.capacity,
      (q < bytesFor s.bitlen.toNat → (d.cubeGathered.wbufAt q).payload = (s.wbufAt q).payload) ∧
      (d.params.front ≤ q →
        (d.cubeGathered.wbufAt q).payload = s.tailByte (q - d.params.front)) := fun q hq => by
    obtain ⟨b, hword, hstream, htail⟩ := hplaced q hq
    have hb : (d.cubeGathered.wbufAt q).payload = b := by rw [hback q hq, fwdIndex, hword]; rfl
    exact ⟨fun h => hb.trans (hstream h), fun h => hb.trans (htail h)⟩
  have htail := fun q hlo hq => (hpayload q hq).2 hlo
  have hcapacity : d.params.front ≤ d.params.capacity := Nat.sub_le _ _
  obtain ⟨hfreq, hbitlen⟩ := readTail_of_tail (s := d.cubeGathered) htail hp
  rw [exec_cubeDecode, cubeDecodeBody_gathers hwlen]
  exact ⟨_, rfl, rfl, rfl, freq_ext hfreq, hbitlen, hback,
    fun q hq => (hpayload q (by omega)).1 hq, htail⟩

end Sys2Proof.Machine
end

section
/-! Proofs about the stride map (R190, R193, R196): the prime both relabel commands select, the congruence
that determines a position, and that the map permutes the positions of the cube. -/

namespace Sys2Proof.Machine

/-! The selected prime -/

/-- The sequence of primes rises (R19). -/
theorem nthPrime_strictMono : StrictMono nthPrime := strictMono_nat_of_lt_succ fun j => (nthPrime_succ j).1

/-- P(255), the prime of the greatest key byte (R190). -/
theorem nthPrime_255 : nthPrime 255 = 1619 := by decide +kernel

/-- The selected prime lies between P(1) and P(255) (R190). -/
theorem selectPrime_bounds {p : Params} (hp : p.wf = true) (kb : Byte) :
    3 ≤ selectPrime kb p.capacity ∧ selectPrime kb p.capacity ≤ 1619 := by
  have hkb : max kb.toNat 1 ≤ 255 := by have := kb.isLt; omega
  have hle := nthPrime_strictMono.monotone hkb
  rw [nthPrime_255] at hle
  rw [selectPrime_eq hp]
  exact ⟨two_lt_nthPrime (le_max_right _ 1), hle⟩

/-- Settles O46: 2 alone divides C, and the sequence rises up to P(255). -/
theorem selectedPrimeIsOdd : Obligations.SelectedPrimeIsOdd := by
  intro p kb hp
  refine ⟨selectPrime_eq hp kb, ?_, selectPrime_bounds hp kb⟩
  rw [selectPrime_eq hp]
  exact nthPrime_prime _

/-! The position of a number -/

/-- pos(i) is the number of 1..C that is −i·prime mod C (R193). -/
theorem stridePos_eq_iff {p : Params} {prime i r : Nat} (hpos : 1 ≤ r) (hle : r ≤ p.capacity) :
    stridePos p prime i = r ↔ p.capacity ∣ r + i * prime := by
  have hmod := Nat.mod_lt (i * prime) p.capacity_pos
  have hreduce : p.capacity ∣ r + i * prime ↔ p.capacity ∣ r + i * prime % p.capacity := by
    simp only [Nat.dvd_iff_mod_eq_zero, Nat.add_mod_mod]
  rw [hreduce, stridePos]
  constructor
  · intro hr
    rw [← hr, Nat.sub_add_cancel hmod.le]
  · intro hdvd
    have hsum := Nat.eq_of_dvd_of_lt_two_mul (by omega) hdvd (by omega)
    omega

@[simp] theorem relabelSource_zero (p : Params) (prime : Nat) : relabelSource p prime 0 = 0 := if_pos rfl

theorem relabelSource_of_pos (p : Params) (prime : Nat) {i : Nat} (h : 1 ≤ i) :
    relabelSource p prime i = stridePos p prime i := if_neg (by omega)

theorem stridePos_pos (p : Params) (prime i : Nat) : 1 ≤ stridePos p prime i :=
  Nat.sub_pos_of_lt (Nat.mod_lt _ p.capacity_pos)

/-- The position whose word gets tag i is −i·prime mod C, for i = 0 too (R194). -/
theorem capacity_dvd_relabelSource_add (p : Params) (prime i : Nat) :
    p.capacity ∣ relabelSource p prime i + i * prime := by
  rcases Nat.eq_zero_or_pos i with rfl | hi
  · simp
  · rw [relabelSource_of_pos p prime hi]
    exact (stridePos_eq_iff (stridePos_pos p prime i) (Nat.sub_le _ _)).1 rfl

/-- Settles O51: a fixed i is its own −i·prime mod C, and at the two instances C divides 8i and 4i. -/
theorem relabelFixedPoints : Obligations.RelabelFixedPoints := by
  have hfixed : ∀ (p : Params) (prime i : Nat), 1 ≤ i → i < p.capacity →
      (relabelSource p prime i = i ↔ p.capacity ∣ i * (prime + 1)) := fun p prime i hi hlt => by
    rw [relabelSource_of_pos p prime hi, stridePos_eq_iff hi hlt.le, Nat.mul_succ, Nat.add_comm]
  refine ⟨relabelSource_zero, hfixed, fun p hw i hlt => ?_, fun p hw i hlt => ?_⟩
  all_goals
    rcases Nat.eq_zero_or_pos i with rfl | hi
    · simp
    · rw [hfixed p _ i hi hlt, Params.capacity, hw]
      omega

/-! The stride map permutes the cube -/

section
variable {p : Params} (hp : p.wf = true) (kb : Byte)
include hp

/-- The prime is invertible mod C, so a position belongs to one number alone (R193). -/
theorem relabelSource_injOn :
    Set.InjOn (relabelSource p (selectPrime kb p.capacity)) (Set.Iio p.capacity) := by
  intro i hi j hj heq
  have hdvd_i := capacity_dvd_relabelSource_add p (selectPrime kb p.capacity) i
  have hdvd_j := capacity_dvd_relabelSource_add p (selectPrime kb p.capacity) j
  rw [heq] at hdvd_i
  have hmul : i * selectPrime kb p.capacity ≡ j * selectPrime kb p.capacity [MOD p.capacity] :=
    Nat.ModEq.add_left_cancel' _
      ((Nat.modEq_zero_iff_dvd.2 hdvd_i).trans (Nat.modEq_zero_iff_dvd.2 hdvd_j).symm)
  have hmod := Nat.ModEq.cancel_right_of_coprime (selectPrime_coprime hp kb).symm hmul
  exact hmod.eq_of_lt_of_lt hi hj

/-- The stride map permutes the positions 0..C−1: it is one to one on a finite set (R193). -/
theorem relabelSource_bijOn :
    Set.BijOn (relabelSource p (selectPrime kb p.capacity)) (Set.Iio p.capacity)
      (Set.Iio p.capacity) :=
  ((Set.finite_Iio _).injOn_iff_bijOn_of_mapsTo fun _ hi => relabelSource_lt hp kb hi).1
    (relabelSource_injOn hp kb)

/-- Every position of the cube is that of one number (R193). -/
theorem exists_relabelSource_eq {r : Nat} (hr : r < p.capacity) :
    ∃ q < p.capacity, relabelSource p (selectPrime kb p.capacity) q = r :=
  (relabelSource_bijOn hp kb).surjOn hr

/-- The list of the positions of 0..C−1 holds each position once (R193). -/
theorem relabelSource_range_perm :
    ((List.range p.capacity).map (relabelSource p (selectPrime kb p.capacity))).Perm
      (List.range p.capacity) := by
  have hbij := relabelSource_bijOn hp kb
  exact range_map_perm hbij.surjOn.mapsTo_invFunOn hbij.invOn_invFunOn.2

end

/-- Settles O47: the permutation of 0..C−1 fixes 0, so it permutes 1..C−1. -/
theorem strideMapIsABijection : Obligations.StrideMapIsABijection := by
  intro p kb hp
  have hsource := fun {i : Nat} => relabelSource_of_pos p (selectPrime kb p.capacity) (i := i)
  refine ⟨fun i hi hlt => ⟨stridePos_pos p _ i, ?_⟩, fun i j hi hilt hj hjlt heq => ?_,
    fun q hq hqlt => ?_⟩
  · rw [← hsource hi]
    exact relabelSource_lt hp kb hlt
  · rw [← hsource hi, ← hsource hj] at heq
    exact relabelSource_injOn hp kb hilt hjlt heq
  · obtain ⟨i, hilt, rfl⟩ := exists_relabelSource_eq hp kb hqlt
    have hi : 1 ≤ i := Nat.pos_of_ne_zero fun h0 => by simp [h0] at hq
    exact ⟨i, hi, hilt, (hsource hi).symm⟩

end Sys2Proof.Machine
end

section
/-! Proofs about RELABEL_ENCODE (R194, R195) and RELABEL_DECODE (R197, R198): what each leaves in WBUF, that
the encoder's words are those of the literal tag array, and the round trip (R199). -/

namespace Sys2Proof.Machine

/-! The sort of tagged words -/

/-- Storing a sorted cube whose tags are a permutation of the positions puts each word at its tag (R18). -/
theorem State.wbufAt_storeSorted_tag (s : State) {f : Nat → CubeWord} {tag : Nat → Nat}
    (hbij : Set.BijOn tag (Set.Iio s.params.capacity) (Set.Iio s.params.capacity))
    (htag : ∀ q < s.params.capacity, (f q).tag.toNat = tag q) {q : Nat} (hq : q < s.params.capacity) :
    (s.storeCube (sortAsc s.params (cubeWords s.params f))).wbufAt (tag q) = f q := by
  have hinv := hbij.invOn_invFunOn
  have hmaps := hbij.surjOn.mapsTo_invFunOn
  rw [sortAsc_scatter_dst s.params f tag _ hbij.mapsTo hmaps hinv.2 hinv.1 htag,
    s.wbufAt_storeCubeWords _ (hbij.mapsTo hq), hinv.1 hq]

/-- The word of the lower tag has the lower value (R18). -/
theorem value_le_of_tag_lt {a b : CubeWord} (h : a.tag.toNat < b.tag.toNat) : a.value ≤ b.value := by
  have := a.payload.isLt
  simp only [CubeWord.value]
  omega

/-- A word whose tag is its index has that index's coordinate as its fields (R16, R198). -/
theorem tagged_eq_pack_decomp (p : Params) {r : Nat} (hr : r < p.capacity) (b : Byte) :
    tagged r b = pack p (decomp p r) b := by
  rw [pack_eq_tagged p (decomp_inCube p hr), lin_decomp]

/-! What the relabel commands leave -/

/-- The state after a relabel command has written PRIME and the sorted words `f` (R194, R197). -/
def State.relabelStored (s : State) (f : Nat → CubeWord) : State :=
  (s.setPrime s.relabelPrime).storeCube (sortAsc s.params (cubeWords s.params f))

/-- PRIME holds the selected prime: 32 bits are enough for it (R41, R191). -/
theorem State.relabelStored_prime {s : State} (hp : s.params.wf = true) (f : Nat → CubeWord) :
    (s.relabelStored f).prime.toNat = s.relabelPrime := by
  obtain ⟨-, hle⟩ := selectPrime_bounds hp (s.keyAt s.kidx.toNat)
  exact Nat.mod_eq_of_lt (hle.trans_lt (by norm_num))

/-- What a relabel command that ran leaves, if its words `f` have the positions as their tags: PRIME, each
word at its tag, and nothing else changed (R56). -/
theorem relabel_spec {s : State} {i : Instr} {f : Nat → CubeWord} {tag : Nat → Nat}
    (hp : s.params.wf = true) (hrun : exec i s = .next (s.relabelStored f).successEnd)
    (hbij : Set.BijOn tag (Set.Iio s.params.capacity) (Set.Iio s.params.capacity))
    (htag : ∀ q < s.params.capacity, (f q).tag.toNat = tag q) :
    ∃ t, exec i s = .next t ∧ t = { s.succeeded with wbuf := t.wbuf, prime := t.prime } ∧
      t.prime.toNat = s.relabelPrime ∧ (∀ q < s.params.capacity, t.wbufAt (tag q) = f q) ∧
      (∀ q, s.params.capacity ≤ q → t.wbufAt q = s.wbufAt q) ∧
      ∀ n, t.ibufAt n = s.ibufAt n ∧ t.obufAt n = s.obufAt n :=
  ⟨_, hrun, rfl, State.relabelStored_prime hp f,
    fun _ hq => (s.setPrime s.relabelPrime).wbufAt_storeSorted_tag hbij htag hq,
    fun _ hq => (s.setPrime s.relabelPrime).wbufAt_storeSorted_beyond f hq, fun _ => ⟨rfl, rfl⟩⟩

/-- RELABEL_ENCODE with a valid KIDX (R194, R195): each word has its index as its tag and the payload of
the position the stride map gives that index. -/
theorem relabelEncode_spec {s : State} (hp : s.params.wf = true) (hk : s.kidx.toNat < 1000) :
    ∃ t, exec .relabelEncode s = .next t ∧
      t = { s.succeeded with wbuf := t.wbuf, prime := t.prime } ∧ t.prime.toNat = s.relabelPrime ∧
      (∀ i < s.params.capacity, t.wbufAt i =
        tagged i (s.wbufAt (relabelSource s.params s.relabelPrime i)).payload) ∧
      (∀ q, s.params.capacity ≤ q → t.wbufAt q = s.wbufAt q) ∧
      ∀ n, t.ibufAt n = s.ibufAt n ∧ t.obufAt n = s.obufAt n := by
  have hrun : exec .relabelEncode s =
      .next (s.relabelStored (s.relabelEncoded s.relabelPrime)).successEnd := by
    rw [exec_eq_runStages, stagesOf, runStages, Stage.body, relabelEncodeBody_ok hk]
    rfl
  exact relabel_spec hp hrun (Set.bijOn_id _) fun q hq => tagged_tag s.params hp hq _

/-- RELABEL_DECODE with WLEN = C and a valid KIDX (R197, R198): the payload of each position stands at, and
under, the position the stride map gives it. -/
theorem relabelDecode_spec {s : State} (hp : s.params.wf = true)
    (hwlen : s.wlen.toNat = s.params.capacity) (hk : s.kidx.toNat < 1000) :
    ∃ t, exec .relabelDecode s = .next t ∧
      t = { s.succeeded with wbuf := t.wbuf, prime := t.prime } ∧ t.prime.toNat = s.relabelPrime ∧
      (∀ q < s.params.capacity, t.wbufAt (relabelSource s.params s.relabelPrime q) =
        tagged (relabelSource s.params s.relabelPrime q) (s.wbufAt q).payload) ∧
      (∀ q, s.params.capacity ≤ q → t.wbufAt q = s.wbufAt q) ∧
      ∀ n, t.ibufAt n = s.ibufAt n ∧ t.obufAt n = s.obufAt n := by
  have hrun : exec .relabelDecode s =
      .next (s.relabelStored (s.relabelDecoded s.relabelPrime)).successEnd := by
    rw [exec_eq_runStages, stagesOf, runStages, Stage.body, relabelDecodeBody_ok hwlen hk]
    rfl
  exact relabel_spec hp hrun (relabelSource_bijOn hp _)
    fun q hq => tagged_tag s.params hp (relabelSource_lt hp _ hq) _

/-- RELABEL_ENCODE ends without an error only if KIDX is valid (R194). -/
theorem relabelEncode_noErr {s t : State} (hexec : exec .relabelEncode s = .next t)
    (hok : t.status.err = false) : s.kidx.toNat < 1000 := by
  rw [exec_eq_runStages] at hexec
  have hend : (relabelEncodeBody s).thenDo 0x03#8 State.successEnd = t := Host.Outcome.next.inj hexec
  obtain ⟨u, hbody, -⟩ := StageEnd.of_thenDo_noErr hend hok
  by_contra hk
  rw [relabelEncodeBody_badConfig (not_lt.1 hk)] at hbody
  cases hbody

/-! The closed forms -/

/-- Settles O48: the words are made in the order of their tags, so the sort leaves them there. -/
theorem relabelEncodeClosedForm : Obligations.RelabelEncodeClosedForm := by
  intro s hp hk
  obtain ⟨t, hexec, hframe, hprime, hword, hbeyond, hbuffers⟩ := relabelEncode_spec hp hk
  refine ⟨t, hexec, hframe, hprime, ?_, fun i hi hlt => ?_, fun r hr => ?_, hbeyond, hbuffers⟩
  · rw [hword 0 s.params.capacity_pos, relabelSource_zero]
  · rw [hword i hlt, relabelSource_of_pos _ _ hi, stridePos, hprime]
  · rw [hword r hr]
    exact tagged_tag s.params hp hr _

/-- Settles O50: the stride map permutes the tags, so every index is the tag of one word. -/
theorem relabelDecodeClosedForm : Obligations.RelabelDecodeClosedForm := by
  intro s hp hwlen hk
  obtain ⟨t, hexec, hframe, hprime, hword, hbeyond, hbuffers⟩ := relabelDecode_spec hp hwlen hk
  refine ⟨t, hexec, hframe, hprime, ?_, fun q hq hlt => ?_, fun r hr => ?_, hbeyond, hbuffers⟩
  · have h0 := hword 0 s.params.capacity_pos
    rwa [relabelSource_zero] at h0
  · have hq' := hword q hlt
    rwa [relabelSource_of_pos _ _ hq, ← hprime] at hq'
  · obtain ⟨q, hlt, hqr⟩ := exists_relabelSource_eq hp (s.keyAt s.kidx.toNat) hr
    have hr' : t.wbufAt r = tagged r (s.wbufAt q).payload := by
      have hq' := hword q hlt
      rwa [State.relabelPrime, hqr] at hq'
    have hpack := tagged_eq_pack_decomp s.params hr (s.wbufAt q).payload
    rw [hr']
    refine ⟨tagged_tag s.params hp hr _, hpack, ?_⟩
    rw [hpack, fields_pack s.params hp (decomp_inCube s.params hr)]

/-! The literal tag array -/

/-- Settles O49: the word of tag i is the tag array's word at pos(i), and pos permutes the positions. -/
theorem relabelEncodeAgreesWithTheTagArray : Obligations.RelabelEncodeAgreesWithTheTagArray := by
  intro s t tag hp hexec hok htag0 htag
  obtain ⟨u, hu, -, hprime, hword, -⟩ := relabelEncode_spec hp (relabelEncode_noErr hexec hok)
  obtain rfl : t = u := Host.Outcome.next.inj (hexec.symm.trans hu)
  rw [hprime] at htag
  have hsource : ∀ i < s.params.capacity, tag (relabelSource s.params s.relabelPrime i) = i :=
    fun i hlt => by
      rcases Nat.eq_zero_or_pos i with rfl | hi
      · rw [relabelSource_zero, htag0]
      · rw [relabelSource_of_pos _ _ hi, htag i hi hlt]
  refine ⟨?_, fun q r hqr hr => value_le_of_tag_lt ?_⟩
  · have hwords : (List.range s.params.capacity).map t.wbufAt =
        ((List.range s.params.capacity).map (relabelSource s.params s.relabelPrime)).map
          fun q => tagged (tag q) (s.wbufAt q).payload := by
      rw [List.map_map]
      refine List.map_congr_left fun i hi => ?_
      have hlt := List.mem_range.1 hi
      rw [hword i hlt, Function.comp_apply, hsource i hlt]
    rw [hwords]
    exact (relabelSource_range_perm hp (s.keyAt s.kidx.toNat)).map _
  · rw [hword q (hqr.trans hr), hword r hr, tagged_tag s.params hp (hqr.trans hr),
      tagged_tag s.params hp hr]
    exact hqr

/-! The round trip -/

/-- Settles O52: the decoder moves the payload of each i back to pos(i), where the encoder took it. -/
theorem relabelRoundTrip : Obligations.RelabelRoundTrip := by
  intro s a d hp htags hexec hok hparams hkey hkidx hwlen hpayload
  have hk := relabelEncode_noErr hexec hok
  obtain ⟨u, hu, -, -, hword, -⟩ := relabelEncode_spec hp hk
  obtain rfl : a = u := Host.Outcome.next.inj (hexec.symm.trans hu)
  have hprime : d.relabelPrime = s.relabelPrime := by
    rw [State.relabelPrime, State.relabelPrime, hparams, hkidx, hkey]
  obtain ⟨t, ht, hframe, -, hback, -⟩ := relabelDecode_spec (s := d) (by rwa [hparams])
    (by rwa [hparams]) (by rwa [hkidx])
  rw [hparams, hprime] at hback
  refine ⟨t, ht, by rw [hframe]; rfl, by rw [hframe]; rfl, fun r hr => ?_⟩
  obtain ⟨i, hlt, rfl⟩ := exists_relabelSource_eq hp (s.keyAt s.kidx.toNat) hr
  calc t.wbufAt (relabelSource s.params s.relabelPrime i)
      = tagged (relabelSource s.params s.relabelPrime i) (a.wbufAt i).payload := by
        rw [hback i hlt, hpayload i hlt]
    _ = tagged (relabelSource s.params s.relabelPrime i)
          (s.wbufAt (relabelSource s.params s.relabelPrime i)).payload := by
        rw [hword i hlt, tagged_payload]
    _ = s.wbufAt (relabelSource s.params s.relabelPrime i) := (eq_tagged _ (htags _ hr)).symm

end Sys2Proof.Machine
end

section
/-! Proofs about dispatch (R220), NOP (R221) and the whole-pipeline commands stage by stage (R222, R223). A
stage reads neither the phase nor STATUS, so one that runs inside a pipeline does what it does when it is
issued alone on what the stage before it left, DONE apart. -/

namespace Sys2Proof.Machine

/-- Settles O4: the engine's turn while BUSY ends the command, and that is the one CUR decodes to. -/
theorem stepRunsTheAcceptedCommand : Obligations.StepRunsTheAcceptedCommand := by
  intro s rest i hbusy hnext hdec
  refine ⟨by cases i <;> rfl, ?_⟩
  have hfetch : State.fetch { s with inputs := rest } = .ok i := hdec
  rw [step_engineNext hbusy hnext, endCommand, hfetch]

/-- Settles O25: NOP has no stage, so its end step is the end alone. -/
theorem nopOnlyEnds : Obligations.NopOnlyEnds := fun s => exec_eq_runStages .nop s

/-! Stages issued alone -/

/-- The command that runs a stage alone (R102). -/
def Stage.command : Stage → Instr
  | .hufEncode => .hufEncode
  | .cubeEncode => .cubeEncode
  | .relabelEncode => .relabelEncode
  | .hufDecode => .hufDecode
  | .cubeDecode => .cubeDecode
  | .relabelDecode => .relabelDecode

/-- The stage, issued alone at `s`, raises no error and leaves `t`. -/
def Stage.Completes (g : Stage) (s t : State) : Prop := ∃ u, g.body s = .ok u ∧ t = u.successEnd

theorem Stage.exec_command (g : Stage) (s : State) :
    exec g.command s = .next ((g.body s).thenDo g.op State.successEnd) := by
  cases g <;> rfl

theorem Stage.completes_of_noErr {g : Stage} {s t : State} (hexec : exec g.command s = .next t)
    (hok : t.status.err = false) : g.Completes s t := by
  rw [g.exec_command] at hexec
  exact StageEnd.of_thenDo_noErr (Host.Outcome.next.inj hexec) hok

theorem Stage.completes_of_ok {g : Stage} {s t u : State} (hexec : exec g.command s = .next t)
    (hbody : g.body s = .ok u) : g.Completes s t := by
  rw [g.exec_command, hbody] at hexec
  exact ⟨u, hbody, (Host.Outcome.next.inj hexec).symm⟩

theorem Stage.Completes.exec {g : Stage} {s t : State} (h : g.Completes s t) :
    exec g.command s = .next t := by
  obtain ⟨u, hbody, rfl⟩ := h
  rw [g.exec_command, hbody, StageEnd.thenDo_ok]

/-- No stage writes STATUS before the command's end. -/
theorem Stage.body_status (g : Stage) (s : State) : (g.body s).left.status = s.status := by
  cases g with
  | hufEncode => exact hufEncodeBody_status s
  | cubeEncode => exact cubeEncodeBody_status s
  | relabelEncode => exact relabelEncodeBody_status s
  | hufDecode => exact hufDecodeBody_status s
  | cubeDecode => exact cubeDecodeBody_status s
  | relabelDecode => exact relabelDecodeBody_status s

/-- No stage reads the phase or STATUS. -/
theorem Stage.body_withControl (g : Stage) (s : State) (ph : Phase) (st : Status) :
    g.body (s.withControl ph st) = (g.body s).withControl ph st := by
  cases g with
  | hufEncode => exact hufEncodeBody_withControl s ph st
  | cubeEncode => exact cubeEncodeBody_withControl s ph st
  | relabelEncode => exact relabelEncodeBody_withControl s ph st
  | hufDecode => exact hufDecodeBody_withControl s ph st
  | cubeDecode => exact cubeDecodeBody_withControl s ph st
  | relabelDecode => exact relabelDecodeBody_withControl s ph st

/-- A stage after the success end of another does what it does before that end, and adds that end. -/
theorem Stage.body_successEnd (g : Stage) (s : State) :
    (∃ u, u.status = s.status ∧ g.body s = .ok u ∧ g.body s.successEnd = .ok u.successEnd) ∨
      ∃ e u, u.status = s.status ∧ g.body s = .error e u ∧
        g.body s.successEnd = .error e u.successEnd := by
  have hstatus := g.body_status s
  rw [s.successEnd_eq, g.body_withControl]
  cases hbody : g.body s with
  | ok u =>
    rw [hbody, StageEnd.left_ok] at hstatus
    exact .inl ⟨u, hstatus, rfl, by rw [u.successEnd_eq, hstatus]; rfl⟩
  | error e u =>
    rw [hbody, StageEnd.left_error] at hstatus
    exact .inr ⟨e, u, hstatus, rfl, by rw [u.successEnd_eq, hstatus]; rfl⟩

/-- Whether a stage completes, and what it leaves, does not depend on a success end before it. -/
theorem Stage.completes_successEnd_iff {g : Stage} {s t : State} :
    g.Completes s.successEnd t ↔ g.Completes s t := by
  rcases g.body_successEnd s with ⟨u, -, hbody, hbody'⟩ | ⟨e, u, -, hbody, hbody'⟩
  · simp only [Completes, hbody, hbody', StageEnd.ok.injEq, exists_eq_left']
    rfl
  · simp [Completes, hbody, hbody']

/-- A stage that fails after a success end fails alike without it, but for DONE, which that end set. -/
theorem Stage.exec_of_successEnd_err {g : Stage} {s t : State} (hs : s.status.err = false)
    (hexec : exec g.command s.successEnd = .next t) (herr : t.status.err = true) :
    exec g.command s =
      .next { t with status := { t.status with done := s.status.done } } := by
  rw [g.exec_command] at hexec ⊢
  obtain rfl := Host.Outcome.next.inj hexec
  rcases g.body_successEnd s with ⟨u, hu, hbody, hbody'⟩ | ⟨e, u, hu, hbody, hbody'⟩
  · simp [hbody', hu, hs] at herr
  · rw [hbody, hbody', StageEnd.thenDo_error, StageEnd.thenDo_error, ← hu]
    rfl

/-- The success end of a stage writes DONE and leaves the rest of STATUS (R53). -/
theorem Stage.Completes.status {g : Stage} {s t : State} (h : g.Completes s t) :
    t.status = { s.status with done := true } := by
  obtain ⟨u, hbody, rfl⟩ := h
  have hu := g.body_status s
  rw [hbody, StageEnd.left_ok] at hu
  rw [State.successEnd_status, hu]

/-- A stage that completes writes none of the constants, KEY, WLEN and KIDX (R56). -/
theorem Stage.Completes.keeps {g : Stage} {s t : State} (h : g.Completes s t) :
    t.params = s.params ∧ t.key = s.key ∧ t.wlen = s.wlen ∧ t.kidx = s.kidx := by
  obtain ⟨⟨hparams, hkey, -, -, hwlen, hkidx, -⟩, -⟩ := commandsKeepToTheirWriteSets _ _ _ h.exec
  exact ⟨hparams, hkey, hwlen, hkidx⟩

/-- A stage that completes leaves ERR as it was (R53). -/
theorem Stage.Completes.err {g : Stage} {s t : State} (h : g.Completes s t) :
    t.status.err = s.status.err := by
  rw [h.status]

/-! Runs of stages -/

theorem runStages_of_ok {g : Stage} {s u : State} (hbody : g.body s = .ok u) (gs : List Stage) :
    runStages (g :: gs) s = runStages gs u := by
  rw [runStages, hbody, StageEnd.thenDo_ok]

theorem exec_command_eq_runStages (g : Stage) (s : State) :
    exec g.command s = .next (runStages [g] s) := g.exec_command s

/-- A run whose first two stages complete, each issued alone on what the one before left, goes on with the
rest at the state they leave before their ends. -/
theorem runStages_of_completes {g₁ g₂ : Stage} {s a b : State} (h₁ : g₁.Completes s a)
    (h₂ : g₂.Completes a b) (gs : List Stage) : ∃ v, b = v.successEnd ∧ v.status = s.status ∧
      runStages (g₁ :: g₂ :: gs) s = runStages gs v := by
  obtain ⟨u, hbody₁, rfl⟩ := h₁
  obtain ⟨v, hbody₂, rfl⟩ := Stage.completes_successEnd_iff.1 h₂
  have hu := g₁.body_status s
  have hv := g₂.body_status u
  rw [hbody₁] at hu
  rw [hbody₂] at hv
  exact ⟨v, rfl, hv.trans hu, by rw [runStages_of_ok hbody₁, runStages_of_ok hbody₂]⟩

theorem runStages_of_error {g : Stage} {s u : State} {e : CmdError} (hbody : g.body s = .error e u)
    (gs : List Stage) : runStages (g :: gs) s = u.errorEnd e g.op := by
  rw [runStages, hbody, StageEnd.thenDo_error]

/-- A run ends where its first stage fails, as that stage does when issued alone. -/
theorem runStages_of_fails {g : Stage} {s t : State} (hs : s.status.err = false)
    (hexec : exec g.command s = .next t) (herr : t.status.err = true) (gs : List Stage) :
    runStages (g :: gs) s = t := by
  rw [g.exec_command] at hexec
  obtain ⟨e, u, hbody, rfl⟩ := StageEnd.of_thenDo_err (Host.Outcome.next.inj hexec)
    (by rwa [g.body_status]) herr
  exact runStages_of_error hbody gs

/-- A run that ends without an error goes on from where its first stage ended. -/
theorem runStages_cons_noErr {g : Stage} {gs : List Stage} {s : State}
    (hok : (runStages (g :: gs) s).status.err = false) :
    ∃ u, g.body s = .ok u ∧ runStages (g :: gs) s = runStages gs u := by
  cases hbody : g.body s with
  | ok u => exact ⟨u, rfl, runStages_of_ok hbody gs⟩
  | error e u => simp [runStages_of_error hbody] at hok

/-! Commands of three stages -/

/-- A command whose first two stages complete, each issued alone on what the one before left, does what its
third stage does at the state they leave before their ends (R222, R223). -/
theorem exec_eq_third {i : Instr} {g₁ g₂ g₃ : Stage} (hi : stagesOf i = [g₁, g₂, g₃]) {s a b : State}
    (h₁ : g₁.Completes s a) (h₂ : g₂.Completes a b) :
    ∃ v, b = v.successEnd ∧ v.status = s.status ∧ exec i s = exec g₃.command v := by
  obtain ⟨v, hb, hstatus, hrun⟩ := runStages_of_completes h₁ h₂ [g₃]
  refine ⟨v, hb, hstatus, ?_⟩
  rw [exec_eq_runStages, hi, hrun, exec_command_eq_runStages]

/-- A command whose three stages complete, each issued alone on what the one before left, leaves what the
third leaves (R222, R223). -/
theorem exec_of_completes {i : Instr} {g₁ g₂ g₃ : Stage} (hi : stagesOf i = [g₁, g₂, g₃])
    {s a b c : State} (h₁ : g₁.Completes s a) (h₂ : g₂.Completes a b) (h₃ : g₃.Completes b c) :
    exec i s = .next c := by
  obtain ⟨v, rfl, -, hexec⟩ := exec_eq_third hi h₁ h₂
  exact hexec.trans (Stage.completes_successEnd_iff.1 h₃).exec

/-- A command that ends without an error is its three stages, each completing on what the one before
left (R222, R223). -/
theorem completes_of_exec_noErr {i : Instr} {g₁ g₂ g₃ : Stage} (hi : stagesOf i = [g₁, g₂, g₃])
    {s c : State} (hexec : exec i s = .next c) (hok : c.status.err = false) :
    ∃ a b, g₁.Completes s a ∧ g₂.Completes a b ∧ g₃.Completes b c := by
  rw [exec_eq_runStages, hi] at hexec
  obtain rfl := Host.Outcome.next.inj hexec
  obtain ⟨u, hbody₁, hrun₁⟩ := runStages_cons_noErr hok
  rw [hrun₁] at hok ⊢
  obtain ⟨v, hbody₂, hrun₂⟩ := runStages_cons_noErr hok
  rw [hrun₂] at hok ⊢
  obtain ⟨w, hbody₃, hrun₃⟩ := runStages_cons_noErr hok
  exact ⟨u.successEnd, v.successEnd, ⟨u, hbody₁, rfl⟩,
    Stage.completes_successEnd_iff.2 ⟨v, hbody₂, rfl⟩,
    Stage.completes_successEnd_iff.2 ⟨w, hbody₃, hrun₃⟩⟩

/-- Settles O53: each stage that ends without an error completes. -/
theorem pipelineCommandsRunTheirStages : Obligations.PipelineCommandsRunTheirStages := by
  intro s a b c ha hb hc
  refine ⟨fun h₁ h₂ h₃ => ?_, fun h₁ h₂ h₃ => ?_⟩
  · exact exec_of_completes (i := .encodeAll) rfl (Stage.completes_of_noErr (g := .hufEncode) h₁ ha)
      (Stage.completes_of_noErr (g := .cubeEncode) h₂ hb)
      (Stage.completes_of_noErr (g := .relabelEncode) h₃ hc)
  · exact exec_of_completes (i := .decodeAll) rfl
      (Stage.completes_of_noErr (g := .relabelDecode) h₁ ha)
      (Stage.completes_of_noErr (g := .cubeDecode) h₂ hb)
      (Stage.completes_of_noErr (g := .hufDecode) h₃ hc)

/-- RELABEL_ENCODE with an invalid KIDX ends with BAD_CONFIG and writes STATUS alone (R194, R246). -/
theorem exec_relabelEncode_badConfig {s : State} (h : 1000 ≤ s.kidx.toNat) :
    exec .relabelEncode s = .next (s.failed 7#4 0x03#8) := by
  rw [exec_eq_runStages, stagesOf, runStages_of_error (g := .relabelEncode) (relabelEncodeBody_badConfig h)]
  rfl

/-- DECODE_ALL ends where RELABEL_DECODE fails (R223, R245). -/
theorem exec_decodeAll_of_error {s u : State} {e : CmdError} (h : relabelDecodeBody s = .error e u) :
    exec .decodeAll s = .next (u.errorEnd e 0x13#8) := by
  rw [exec_eq_runStages, stagesOf, runStages_of_error (g := .relabelDecode) h]
  rfl

/-- No command writes KIDX (R56). -/
theorem exec_kidx {i : Instr} {s t : State} (h : exec i s = .next t) : t.kidx = s.kidx :=
  exec_keeps (·.kidx) (fun _ _ _ => rfl) h fun g _ u => by simp [g.keeps_hostState u]

/-- Settles O55: HUF_ENCODE's error ends the command; after the first two stages, which keep KIDX, the
check of RELABEL_ENCODE does. -/
theorem encodeAllStopsAtTheFirstError : Obligations.EncodeAllStopsAtTheFirstError := by
  refine fun s => ⟨fun a hs hexec herr => ?_, fun a b h₁ ha h₂ hb hk => ?_⟩
  · rw [exec_eq_runStages, stagesOf, runStages_of_fails (g := .hufEncode) hs hexec herr]
  · have hkidx : b.kidx = s.kidx := (exec_kidx h₂).trans (exec_kidx h₁)
    obtain ⟨v, rfl, hstatus, hexec⟩ := exec_eq_third (i := .encodeAll) rfl
      (Stage.completes_of_noErr (g := .hufEncode) h₁ ha)
      (Stage.completes_of_noErr (g := .cubeEncode) h₂ hb)
    rw [State.successEnd_kidx] at hkidx
    rw [hexec, ← hstatus]
    exact exec_relabelEncode_badConfig (hkidx ▸ hk)

/-- Settles O57: RELABEL_DECODE makes its checks in turn; after the first two stages HUF_DECODE fails as it
does alone, on a STATUS that the ends of the two have not written. -/
theorem decodeAllStopsAtTheFirstError : Obligations.DecodeAllStopsAtTheFirstError := by
  refine fun s => ⟨fun hwlen => exec_decodeAll_of_error (relabelDecodeBody_mismatch hwlen),
    fun hwlen hk => exec_decodeAll_of_error (relabelDecodeBody_badConfig hwlen hk),
    fun a b c h₁ ha h₂ hb h₃ hc => ?_⟩
  obtain ⟨v, rfl, hstatus, hexec⟩ := exec_eq_third (i := .decodeAll) rfl
    (Stage.completes_of_noErr (g := .relabelDecode) h₁ ha)
    (Stage.completes_of_noErr (g := .cubeDecode) h₂ hb)
  rw [hexec, ← hstatus]
  exact Stage.exec_of_successEnd_err (g := .hufDecode) hb h₃ hc

end Sys2Proof.Machine
end

section
/-! Proofs about what the whole-pipeline commands leave (R222, R223, R226): where each byte of ENCODE_ALL's
output comes from, what DECODE_ALL reads from such bytes, and their round trip, which is the round trips of
their stages one inside the other. -/

namespace Sys2Proof.Machine

/-! ENCODE_ALL -/

/-- HUF_ENCODE's state after its words are written (R130). -/
def State.hufPacked (s : State) : State :=
  (s.hufCounted s.inputTree).storeCube (cubeWords s.params fun q =>
    tagged 0 (if q < bytesFor s.inputBits.length then packByte s.inputBits q else 0#8))

/-- CUBE_ENCODE's state after its words are written and its fill drawn (R163, R165). -/
def State.cubeFilled (s : State) : State :=
  { s.cubeScattered with
    fillDraws := s.fillDraws + (s.params.front - bytesFor s.bitlen.toNat) }

/-- The stream bytes stand at the front of WBUF after HUF_ENCODE (R126, R130). -/
theorem hufPacked_payload (s : State) {q : Nat} (hq : q < s.params.capacity)
    (hstream : q < bytesFor s.inputBits.length) :
    (s.hufPacked.wbufAt q).payload = packByte s.inputBits q := by
  have hword := (s.hufCounted s.inputTree).wbufAt_storeCubeWords (fun q =>
    tagged 0 (if q < bytesFor s.inputBits.length then packByte s.inputBits q else 0#8)) hq
  rw [if_pos hstream] at hword
  exact congrArg CubeWord.payload hword

section
variable {s : State} (hp : s.params.wf = true) (hlen : s.ilen.toNat ≤ s.params.ibufSize)
  (hfront : bytesFor s.inputBits.length ≤ s.params.front)
include hp hlen hfront

/-- ENCODE_ALL of an input that fits ends as RELABEL_ENCODE after the other two stages (R222). -/
theorem exec_encodeAll_of_fits :
    exec .encodeAll s = exec .relabelEncode s.hufPacked.cubeFilled := by
  obtain ⟨-, -, hbitlen⟩ := hufCounted_holds hp hlen
  have hhuf : hufEncodeBody s = .ok s.hufPacked := hufEncodeBody_ok hlen hfront
  have hcube : cubeEncodeBody s.hufPacked = .ok s.hufPacked.cubeFilled :=
    cubeEncodeBody_scatters (s := s.hufPacked) (hbitlen ▸ hfront)
  rw [exec_eq_runStages, stagesOf, runStages_of_ok (g := .hufEncode) hhuf,
    runStages_of_ok (g := .cubeEncode) hcube, exec_eq_runStages, stagesOf]

/-- What the cube's rank r holds after the first two stages of ENCODE_ALL: the stream byte or the tail byte
of the position q that Fwd moves there (R165, R166). -/
theorem cubeFilled_payload {r : Nat} (hr : r < s.params.capacity) :
    (invIndex s.params s.keyShift r < bytesFor s.inputBits.length →
      (s.hufPacked.cubeFilled.wbufAt r).payload =
        packByte s.inputBits (invIndex s.params s.keyShift r)) ∧
    (s.params.front ≤ invIndex s.params s.keyShift r →
      (s.hufPacked.cubeFilled.wbufAt r).payload =
        s.hufPacked.tailByte (invIndex s.params s.keyShift r - s.params.front)) := by
  obtain ⟨-, -, hbitlen⟩ := hufCounted_holds hp hlen
  have hlt := invIndex_lt s.params s.keyShift r
  have hpayload : (s.hufPacked.cubeFilled.wbufAt r).payload =
      s.hufPacked.cubePayload (bytesFor s.inputBits.length) (invIndex s.params s.keyShift r) := by
    rw [← hbitlen]
    exact congrArg CubeWord.payload (cubeScattered_wbufAt (s := s.hufPacked) hp hr)
  rw [hpayload]
  refine ⟨fun hstream => ?_, cubePayload_tail s.hufPacked hfront⟩
  rw [cubePayload_stream _ hstream, hufPacked_payload s hlt hstream]

/-- What ENCODE_ALL hands to its last stage (R222): the counts, the lengths and the shifted cube of the
input, and all else as before. -/
theorem exec_encodeAll_third : ∃ v, exec .encodeAll s = exec .relabelEncode v ∧
    v = { s with
      freq := v.freq, codelen := v.codelen, bitlen := v.bitlen, wbuf := v.wbuf
      fillDraws := v.fillDraws } ∧
    (∀ b, (v.freqAt b).toNat = s.inputBytes.count b) ∧ v.codelenIs s.inputTree ∧
    v.bitlen.toNat = s.inputBits.length ∧
    ∀ r < s.params.capacity,
      (invIndex s.params s.keyShift r < bytesFor s.inputBits.length →
        (v.wbufAt r).payload = packByte s.inputBits (invIndex s.params s.keyShift r)) ∧
      (s.params.front ≤ invIndex s.params s.keyShift r → (v.wbufAt r).payload =
        tailByteOf v.freqAt v.bitlen (invIndex s.params s.keyShift r - s.params.front)) := by
  obtain ⟨hfreq, hcodelen, hbitlen⟩ := hufCounted_holds hp hlen
  exact ⟨_, exec_encodeAll_of_fits hp hlen hfront, rfl, hfreq, hcodelen, hbitlen,
    fun _ hr => cubeFilled_payload hp hlen hfront hr⟩

end

/-- Settles O54: RELABEL_ENCODE takes each payload from the cube's rank, and that took it from the stream or
the tail. -/
theorem encodeAllPlacesEveryByte : Obligations.EncodeAllPlacesEveryByte := by
  intro s hp hlen hfront hk
  obtain ⟨v, hpipe, hv, hfreq, hcodelen, hbitlen, hranks⟩ := exec_encodeAll_third hp hlen hfront
  have hparams : v.params = s.params := by rw [hv]
  have hkidx : v.kidx = s.kidx := by rw [hv]
  have hkey : v.keyAt = s.keyAt := State.keyAt_congr (by rw [hv])
  obtain ⟨t, hexec, hframe, hprime, hword, -, -⟩ :=
    relabelEncode_spec (hparams ▸ hp) (hkidx ▸ hk)
  rw [State.relabelPrime, hkey, hkidx, hparams] at hprime hword
  have htfreq : t.freqAt = v.freqAt := State.freqAt_congr (by rw [hframe]; rfl)
  have htbitlen : t.bitlen = v.bitlen := by rw [hframe]; rfl
  have hibuf : t.ibuf = s.ibuf := by rw [hframe, hv]; rfl
  have hobuf : t.obuf = s.obuf := by rw [hframe, hv]; rfl
  refine ⟨t, hpipe.trans hexec, by rw [hframe, hv]; rfl, fun b => by rw [htfreq, hfreq],
    by rw [hframe]; exact hcodelen, by rw [htbitlen, hbitlen], hprime, fun i hi => ?_,
    fun i => ⟨congrFun (State.ibufAt_congr hibuf) i, congrFun (State.obufAt_congr hobuf) i⟩⟩
  rw [hword i hi, tagged_payload, hprime, htfreq, htbitlen]
  exact ⟨tagged_tag s.params hp hi _, hranks _ (relabelSource_lt hp _ hi)⟩

/-! DECODE_ALL -/

/-- RELABEL_DECODE's state after its words are written (R197). -/
def State.relabelUndone (s : State) : State := s.relabelStored (s.relabelDecoded s.relabelPrime)

section
variable {s : State} {g : Nat → Byte} (hp : s.params.wf = true)
  (hfile : ∀ i < s.params.capacity, (s.wbufAt i).payload =
    g (invIndex s.params s.keyShift (relabelSource s.params s.relabelPrime i)))
include hp hfile

/-- RELABEL_DECODE moves the byte of position q of the file to the rank Fwd moves q to (R197, R198). -/
theorem relabelUndone_wbufAt {r : Nat} (hr : r < s.params.capacity) :
    s.relabelUndone.wbufAt r = tagged r (g (invIndex s.params s.keyShift r)) := by
  obtain ⟨i, hi, rfl⟩ := exists_relabelSource_eq hp (s.keyAt s.kidx.toNat) hr
  have hword := (s.setPrime s.relabelPrime).wbufAt_storeSorted_tag
    (f := s.relabelDecoded s.relabelPrime) (relabelSource_bijOn hp (s.keyAt s.kidx.toNat))
    (fun q hq => tagged_tag s.params hp (relabelSource_lt hp _ hq) _) hi
  refine hword.trans ?_
  rw [State.relabelDecoded, hfile i hi]
  rfl

/-- CUBE_DECODE then moves each byte of the file to its position, in order (R170, R171). -/
theorem cubeGathered_relabelUndone_wbufAt {q : Nat} (hq : q < s.params.capacity) :
    s.relabelUndone.cubeGathered.wbufAt q = tagged q (g q) := by
  have htags : ∀ r < s.params.capacity, (s.relabelUndone.wbufAt r).tag.toNat = r := fun r hr => by
    rw [relabelUndone_wbufAt hp hfile hr]
    exact tagged_tag s.params hp hr _
  refine (cubeGathered_of_tags (s := s.relabelUndone) hp htags hq).trans ?_
  have hrank := relabelUndone_wbufAt hp hfile (fwdIndex_lt s.params s.keyShift q)
  rw [invIndex_fwdIndex _ _ hq] at hrank
  rw [tagged_eq_pack_decomp s.params hq, ← tagged_payload (fwdIndex s.params s.keyShift q) (g q), ← hrank]
  rfl

/-- What DECODE_ALL hands to its last stage (R223): the table, the length and the bytes of the file, and all
else as before. -/
theorem exec_decodeAll_third (hwlen : s.wlen.toNat = s.params.capacity) (hk : s.kidx.toNat < 1000)
    {F : Byte → Word} {B : Word} (htail : ∀ r < 1028, g (s.params.front + r) = tailByteOf F B r) :
    ∃ v, exec .decodeAll s = exec .hufDecode v ∧
      v = { s with freq := v.freq, bitlen := B, wbuf := v.wbuf, prime := v.prime } ∧
      (∀ b, v.freqAt b = F b) ∧ v.prime.toNat = s.relabelPrime ∧
      ∀ q < s.params.capacity, v.wbufAt q = tagged q (g q) := by
  have hrelabel : relabelDecodeBody s = .ok s.relabelUndone := relabelDecodeBody_ok hwlen hk
  have hcube : cubeDecodeBody s.relabelUndone = .ok s.relabelUndone.cubeGathered.readTail :=
    cubeDecodeBody_gathers (s := s.relabelUndone) hwlen
  have hwords : ∀ q < s.params.capacity, s.relabelUndone.cubeGathered.wbufAt q = tagged q (g q) :=
    fun q hq => cubeGathered_relabelUndone_wbufAt hp hfile hq
  have hsizes := Params.front_add_tail s.params hp
  have hbytes : ∀ q, s.params.front ≤ q → q < s.params.capacity →
      (s.relabelUndone.cubeGathered.wbufAt q).payload = tailByteOf F B (q - s.params.front) :=
    fun q hlo hq => by
      rw [hwords q hq, tagged_payload, ← htail _ (by omega), Nat.add_sub_cancel' hlo]
  obtain ⟨hfreq, hbitlen⟩ := readTail_of_tail (s := s.relabelUndone.cubeGathered) hbytes hp
  refine ⟨s.relabelUndone.cubeGathered.readTail, ?_, by rw [← hbitlen]; rfl, hfreq,
    State.relabelStored_prime hp (s.relabelDecoded s.relabelPrime), hwords⟩
  rw [exec_eq_runStages, stagesOf, runStages_of_ok (g := .relabelDecode) hrelabel,
    runStages_of_ok (g := .cubeDecode) hcube, exec_eq_runStages, stagesOf]

end

/-- The stream bits of words whose payloads are the bytes `g` are the bits of `g` (R126). -/
theorem streamBits_of_payloads {s : State} {g : Nat → Byte} {n : Nat}
    (h : ∀ q < bytesFor n, (s.wbufAt q).payload = g q) :
    s.streamBits n = (List.range n).map fun t => (g (t / 8)).getLsbD (7 - t % 8) := by
  refine List.map_congr_left fun t ht => ?_
  have hbyte : t / 8 < bytesFor n := by
    have := List.mem_range.1 ht
    unfold bytesFor
    omega
  rw [State.streamBit, h _ hbyte]

/-- Settles O56: the first two stages bring the file's bytes into order, and HUF_DECODE reads its codes. -/
theorem decodeAllReadsTheFile : Obligations.DecodeAllReadsTheFile := by
  intro s g F B out hp hwlen hk hfile htail hB hout hcodes hcap
  obtain ⟨v, hpipe, hv, hfreq, hprime, hwords⟩ := exec_decodeAll_third hp hfile hwlen hk htail
  have hparams : v.params = s.params := by rw [hv]
  have hbitlen : v.bitlen = B := by rw [hv]
  have htree : v.freqTree = buildTree fun b => (F b).toNat := by
    simp only [State.freqTree, hfreq]
  have hsizes := Params.front_add_tail s.params hp
  have hstream : v.streamBits v.bitlen.toNat = encodeBits v.freqTree out := by
    rw [htree, hbitlen, ← hcodes]
    refine streamBits_of_payloads fun q hq => ?_
    unfold bytesFor at hq
    rw [hwords q (by omega), tagged_payload]
  obtain ⟨t, hexec, hframe, hcodelen, holen, hwritten, hkept, hsame⟩ :=
    hufDecodeReadsTheCodes v out (by rwa [hbitlen, hparams])
      (fun b hb => by rw [hfreq]; exact hout b hb) hstream (by rwa [hparams])
  have htfreq : t.freqAt = v.freqAt := State.freqAt_congr (by rw [hframe]; rfl)
  have htprime : t.prime = v.prime := by rw [hframe]; rfl
  have hibuf : v.ibufAt = s.ibufAt := State.ibufAt_congr (by rw [hv])
  have hobuf : v.obufAt = s.obufAt := State.obufAt_congr (by rw [hv])
  refine ⟨t, hpipe.trans hexec, by rw [hframe, hv]; rfl, fun b => by rw [htfreq, hfreq],
    htree ▸ hcodelen, by rw [htprime]; exact hprime, fun q hq => ?_, holen, hwritten, fun n hn => ?_,
    fun i => ?_⟩
  · rw [(hsame q).2, hwords q hq]
  · rw [hkept n hn, hobuf]
  · rw [(hsame i).1, hibuf]

/-! The round trip -/

/-- After a CUBE_ENCODE that completes each word of the cube has its index as its tag (R166). -/
theorem cubeEncode_tags {s t : State} (hp : s.params.wf = true)
    (h : Stage.cubeEncode.Completes s t) (hok : t.status.err = false) :
    ∀ q < s.params.capacity, (t.wbufAt q).tag.toNat = q := by
  obtain ⟨u, hu, -, -, htags, -⟩ := cubeEncodePlacesEveryPayload s hp (cubeEncode_noErr h.exec hok)
  obtain rfl : t = u := Host.Outcome.next.inj (h.exec.symm.trans hu)
  exact htags

section
variable {s a d : State} (hp : s.params.wf = true) (hok : a.status.err = false)
  (hparams : d.params = s.params) (hkey : d.key = s.key) (hwlen : d.wlen.toNat = s.params.capacity)
include hp hok hparams hkey hwlen

/-- RELABEL_DECODE of the bytes that RELABEL_ENCODE left completes and restores the words (R199). -/
theorem relabelDecode_completes (htags : ∀ q < s.params.capacity, (s.wbufAt q).tag.toNat = q)
    (hencode : Stage.relabelEncode.Completes s a) (hkidx : d.kidx = s.kidx)
    (hpayloads : ∀ r < s.params.capacity, (d.wbufAt r).payload = (a.wbufAt r).payload) :
    ∃ t, Stage.relabelDecode.Completes d t ∧ ∀ q < s.params.capacity, t.wbufAt q = s.wbufAt q := by
  have hk : d.kidx.toNat < 1000 := hkidx ▸ relabelEncode_noErr hencode.exec hok
  obtain ⟨t, hexec, -, -, hwords⟩ := relabelRoundTrip s a d hp htags hencode.exec hok hparams
    (congrFun (State.keyAt_congr hkey) _) hkidx hwlen hpayloads
  have hbody := relabelDecodeBody_ok (by rw [hwlen, hparams]) hk
  exact ⟨t, Stage.completes_of_ok (g := .relabelDecode) hexec hbody, hwords⟩

/-- CUBE_DECODE of the words that CUBE_ENCODE left completes and restores the metadata and the stream
(R171). -/
theorem cubeDecode_completes (hencode : Stage.cubeEncode.Completes s a)
    (hwords : ∀ q < s.params.capacity, d.wbufAt q = a.wbufAt q) :
    ∃ t, Stage.cubeDecode.Completes d t ∧ t.freq = s.freq ∧ t.bitlen = s.bitlen ∧
      ∀ q < bytesFor s.bitlen.toNat, (t.wbufAt q).payload = (s.wbufAt q).payload := by
  obtain ⟨t, hexec, -, -, hfreq, hbitlen, -, hstream, -⟩ := cubeRoundTrip s a d hp hencode.exec hok
    hparams (fun i _ => congrFun (State.keyAt_congr hkey) i) hwlen hwords
  have hbody := cubeDecodeBody_ok (s := d) (by rw [hwlen, hparams])
  exact ⟨t, Stage.completes_of_ok (g := .cubeDecode) hexec hbody, hfreq, hbitlen, hstream⟩

end

/-- Settles O58: the relabel's round trip inside the cube's, and that inside the codec's. -/
theorem fullRoundTrip : Obligations.FullRoundTrip := by
  intro s a d hp hexec hok hparams hkey hkidx hwlen hpayloads hcap
  obtain ⟨e₁, e₂, hhuf, hcube, hrelabel⟩ :=
    completes_of_exec_noErr (i := .encodeAll) (g₁ := .hufEncode) (g₂ := .cubeEncode)
      (g₃ := .relabelEncode) rfl hexec hok
  have hok₂ : e₂.status.err = false := hrelabel.err ▸ hok
  have hok₁ : e₁.status.err = false := hcube.err ▸ hok₂
  obtain ⟨hparams₁, hkey₁, -, hkidx₁⟩ := hhuf.keeps
  obtain ⟨hparams₂, hkey₂, -, hkidx₂⟩ := hcube.keeps
  rw [hparams₁] at hparams₂
  have htags := cubeEncode_tags (hparams₁ ▸ hp) hcube hok₂
  obtain ⟨d₁, hrelabel', hwords⟩ := relabelDecode_completes (s := e₂) (hparams₂ ▸ hp) hok
    (hparams.trans hparams₂.symm) (by rw [hkey, hkey₂, hkey₁]) (by rw [hwlen, hparams₂])
    (by rwa [hparams₂, ← hparams₁]) hrelabel (by rw [hkidx, hkidx₂, hkidx₁]) (by rwa [hparams₂])
  obtain ⟨hparams', hkey', hwlen', -⟩ := hrelabel'.keeps
  obtain ⟨d₂, hcube', hfreq, hbitlen, hstream⟩ := cubeDecode_completes (s := e₁) (hparams₁ ▸ hp) hok₂
    (by rw [hparams', hparams, hparams₁]) (by rw [hkey', hkey, hkey₁])
    (by rw [hwlen', hwlen, hparams₁]) hcube (by rwa [hparams₁, ← hparams₂])
  have hsize : d₂.params = s.params := by rw [hcube'.keeps.1, hparams', hparams]
  obtain ⟨v, rfl, hstatus, hpipe⟩ := exec_eq_third (i := .decodeAll) rfl hrelabel' hcube'
  obtain ⟨t, ht, hidle, hdone, hout⟩ := huffmanRoundTrip s e₁ v hp hhuf.exec hok₁ hsize hfreq
    hbitlen hstream hcap
  exact ⟨t, hpipe.trans ht, hstatus ▸ hdone, hidle, hout⟩

end Sys2Proof.Machine
end

section
/-! Proofs about the engine's turn while IDLE (R259) and the IRQ output (R250, R251). IRQ is IE with DONE or
ERR, so what each event makes of these two flags decides it: the end of a command sets one of them, and no
other event sets either. -/

namespace Sys2Proof.Machine

/-! The engine's turn -/

/-- Asked for in the inputs or left to the engine when they are empty, its turn is the same (R84). -/
theorem step_eq_engineTurn {s : State} {rest : List Input} (h : s.engineNext rest) :
    step s = engineTurn { s with inputs := rest } := by
  rcases h with hin | ⟨hin, rfl⟩
  · simp only [step, hin]
  · have hs : ({ s with inputs := [] } : State) = s := by rw [← hin]
    rw [hs]
    simp only [step, hin]

theorem engineTurn_idle {s : State} (h : s.phase = .idle) : engineTurn s = .next s := by
  rw [engineTurn, h]

/-- Settles O6: the turn is the engine's, and it has no step while IDLE. -/
theorem idleEngineKeepsAllState : Obligations.IdleEngineKeepsAllState := by
  intro s rest hidle hnext
  rw [step_eq_engineTurn hnext]
  exact engineTurn_idle (s := { s with inputs := rest }) hidle

/-- A step is the engine's turn, a host access, or a hardware reset (R84). -/
theorem engineNext_or_outside (s : State) : (∃ rest, s.engineNext rest) ∨
    (∃ a rest, step s = hostAccess { s with inputs := rest } a) ∨
    ∃ rest, step s = .next (State.hardReset { s with inputs := rest }) := by
  rcases step_cases s with ⟨hin, -⟩ | ⟨rest, hin, -⟩ | ⟨a, rest, -, hstep⟩ | ⟨rest, -, hstep⟩
  · exact .inl ⟨[], .inr ⟨hin, rfl⟩⟩
  · exact .inl ⟨rest, .inl hin⟩
  · exact .inr (.inl ⟨a, rest, hstep⟩)
  · exact .inr (.inr ⟨rest, hstep⟩)

/-! Events that set neither DONE nor ERR -/

/-- DONE and ERR are 1 in `st'` only where they are in `st`. -/
def Status.SetsNoEnd (st st' : Status) : Prop :=
  (st'.done = true → st.done = true) ∧ (st'.err = true → st.err = true)

theorem Status.SetsNoEnd.of_eq {st st' : Status} (hdone : st'.done = st.done)
    (herr : st'.err = st.err) : st.SetsNoEnd st' :=
  ⟨fun h => hdone ▸ h, fun h => herr ▸ h⟩

theorem Status.SetsNoEnd.of_clear {st st' : Status} (hdone : st'.done = false)
    (herr : st'.err = false) : st.SetsNoEnd st' := by
  simp [SetsNoEnd, hdone, herr]

/-- The acknowledge takes flags away (R34, R248). -/
theorem Status.SetsNoEnd.acknowledge (st : Status) (v : Word) : st.SetsNoEnd (st.acknowledge v) := by
  simp only [SetsNoEnd, Status.acknowledge, Bool.and_eq_true]
  exact ⟨And.left, And.left⟩

/-- A flag that was 0 is not set. -/
theorem Status.SetsNoEnd.not_set {st st' : Status} (h : st.SetsNoEnd st') :
    ¬ ((st.done = false ∧ st'.done = true) ∨ (st.err = false ∧ st'.err = true)) := by
  rintro (⟨hclear, hset⟩ | ⟨hclear, hset⟩)
  · simp [h.1 hset] at hclear
  · simp [h.2 hset] at hclear

theorem readLoc_setsNoEnd (s : State) (l : Loc) : s.status.SetsNoEnd (s.readLoc l).status := by
  cases ho : s.ownedNow l with
  | false => rw [readLoc_free ho]; exact .of_eq rfl rfl
  | true => rw [readLoc_owned ho]; exact .of_eq rfl rfl

theorem writeSlot_setsNoEnd (s : State) (l : Loc) (v : Word) :
    s.status.SetsNoEnd (s.writeSlot l v).status := by
  cases l with
  | ctrl =>
    cases hv : v.getLsbD 1 with
    | true => rw [writeSlot_ctrl_reset s hv]; exact .of_clear rfl rfl
    | false => rw [writeSlot_ctrl_ie s hv]; exact .of_eq rfl rfl
  | status => exact .acknowledge s.status v
  | cmd =>
    cases hph : s.phase with
    | idle => rw [writeSlot_cmd_idle v hph]; exact .of_clear rfl rfl
    | busy => rw [writeSlot_cmd_busy v hph]; exact .of_eq rfl rfl
  | _ => exact .of_eq rfl rfl

theorem writeLoc_setsNoEnd (s : State) (l : Loc) (v : Word) :
    s.status.SetsNoEnd (s.writeLoc l v).status := by
  cases ho : s.ownedNow l with
  | false => rw [writeLoc_free v ho]; exact writeSlot_setsNoEnd s l v
  | true => rw [State.writeLoc, if_pos ho]; exact .of_eq rfl rfl

theorem hostAccess_setsNoEnd {s t : State} {a : Access} (h : hostAccess s a = .next t) :
    s.status.SetsNoEnd t.status := by
  obtain ⟨l, ⟨addr, n, -, -, rfl⟩ | ⟨addr, n, v, -, -, rfl⟩⟩ := hostAccess_next h
  · exact readLoc_setsNoEnd s l
  · exact writeLoc_setsNoEnd s l v

/-- Only the end of a command, the engine's turn while BUSY, sets DONE or ERR. -/
theorem busy_engineNext_or_setsNoEnd {s t : State} (h : step s = .next t) :
    (s.phase = .busy ∧ ∃ rest, s.engineNext rest) ∨ s.status.SetsNoEnd t.status := by
  rcases engineNext_or_outside s with ⟨rest, hnext⟩ | ⟨a, rest, hstep⟩ | ⟨rest, hstep⟩
  · cases hph : s.phase with
    | busy => exact .inl ⟨rfl, rest, hnext⟩
    | idle =>
      rw [idleEngineKeepsAllState s rest hph hnext] at h
      cases h
      exact .inr (.of_eq rfl rfl)
  · rw [hstep] at h
    exact .inr (hostAccess_setsNoEnd (s := { s with inputs := rest }) h)
  · rw [hstep] at h
    cases h
    exact .inr (.of_clear rfl rfl)

/-! IRQ -/

theorem State.irq_iff (s : State) :
    s.irq = true ↔ s.ie = true ∧ (s.status.done = true ∨ s.status.err = true) := by
  simp [State.irq]

/-- After an end, with success or an error, IRQ is IE (R250). -/
theorem irq_of_endsAs {s t : State} (hie : t.ie = s.ie) (hend : s.status.EndsAs t.status) :
    t.irq = s.ie := by
  rcases hend with hok | ⟨e, op, herr⟩
  · simp [State.irq, hie, hok]
  · simp [State.irq, hie, herr]

/-- No command writes CTRL (R56). -/
theorem exec_ie {i : Instr} {s t : State} (h : exec i s = .next t) : t.ie = s.ie :=
  exec_keeps (·.ie) (fun _ _ _ => rfl) h fun g _ u => by simp [g.keeps_hostState u]

theorem exec_irq {i : Instr} {s t : State} (h : exec i s = .next t) : t.irq = s.ie := by
  obtain ⟨t', hexec, -, hend⟩ := exec_next i s
  obtain rfl : t' = t := Host.Outcome.next.inj (hexec.symm.trans h)
  exact irq_of_endsAs (exec_ie h) hend

/-- The end of every accepted word, an illegal one too, leaves IRQ at IE (R103, R250). -/
theorem endCommand_irq {s t : State} (h : endCommand s = .next t) : t.irq = s.ie := by
  cases hdec : decode s.cur with
  | ok i =>
    have hexec : exec i s = .next t := by rwa [endCommand, State.fetch, hdec] at h
    exact exec_irq hexec
  | error e =>
    rw [endCommand_of_illegal hdec] at h
    cases h
    exact irq_of_endsAs rfl (.inr ⟨.illegalCmd, s.cur.setWidth 8, rfl⟩)

/-- Settles O11: IRQ follows DONE and ERR, which acceptance clears, misuse leaves alone, and only the end of
a command sets. -/
theorem irqFollowsCompletion : Obligations.IrqFollowsCompletion := by
  refine ⟨State.irq_iff, fun s t hstep hset => ?_, fun s t rest hbusy hnext hstep => ?_,
    fun _ _ _ => exec_irq, fun s v => by simp [State.irq], fun _ => ⟨rfl, rfl⟩⟩
  · exact (busy_engineNext_or_setsNoEnd hstep).resolve_right fun hnone => hnone.not_set hset
  · rw [step_engineNext hbusy hnext] at hstep
    exact endCommand_irq (s := { s with inputs := rest }) hstep

end Sys2Proof.Machine
end

section
/-! Proofs about the errors of the commands (R241, R243 to R246): which errors a stage can raise, which
stages of the whole-pipeline commands can raise none (R222, R223), and the checks made before anything is
written. -/

namespace Sys2Proof.Machine

/-! The errors of a stage -/

/-- The errors a stage can raise (R243). -/
def Stage.errors : Stage → List CmdError
  | .hufEncode | .cubeEncode => [.inputTooLarge]
  | .relabelEncode => [.badConfig]
  | .hufDecode => [.decodeUnderrun, .invalidCode, .outputOverflow]
  | .cubeDecode => [.cubeSizeMismatch]
  | .relabelDecode => [.cubeSizeMismatch, .badConfig]

/-- The errors of HUF_DECODE's walk (R140 checks HD2 to HD5). -/
theorem decodeBits_err {T : Option HuffNode} {cap : Nat} {bits : List Bool} {e : CmdError}
    (h : (decodeBits T cap bits).err = some e) : e ∈ Stage.hufDecode.errors := by
  cases T with
  | none =>
    cases bits with
    | nil => simp [decodeBits] at h
    | cons bit bits =>
      obtain rfl : CmdError.invalidCode = e := by simpa [decodeBits] using h
      simp [Stage.errors]
  | some root =>
    rcases walkBits_err root cap bits none 0 e h with rfl | rfl | rfl
    all_goals simp [Stage.errors]

/-- A stage raises only its errors, check by check. -/
theorem Stage.error_mem (g : Stage) {s u : State} {e : CmdError} (h : g.body s = .error e u) :
    e ∈ g.errors := by
  cases g with
  | hufEncode =>
    by_cases hlen : s.params.ibufSize < s.ilen.toNat
    · rw [body, hufEncodeBody_tooLong hlen] at h
      cases h
      simp [errors]
    · by_cases hfront : s.params.front < bytesFor s.inputBits.length
      · rw [body, hufEncodeBody_overflow (not_lt.1 hlen) hfront] at h
        cases h
        simp [errors]
      · rw [body, hufEncodeBody_ok (not_lt.1 hlen) (not_lt.1 hfront)] at h
        cases h
  | cubeEncode =>
    by_cases hfront : s.params.front < bytesFor s.bitlen.toNat
    · rw [body, cubeEncodeBody_tooLong hfront] at h
      cases h
      simp [errors]
    · rw [body, cubeEncodeBody_ok (not_lt.1 hfront)] at h
      cases h
  | relabelEncode =>
    by_cases hk : 1000 ≤ s.kidx.toNat
    · rw [body, relabelEncodeBody_badConfig hk] at h
      cases h
      simp [errors]
    · rw [body, relabelEncodeBody_ok (not_le.1 hk)] at h
      cases h
  | hufDecode =>
    by_cases hbits : 8 * s.params.front < s.bitlen.toNat
    · rw [body, hufDecodeBody_underrun hbits] at h
      cases h
      simp [errors]
    · rw [body, hufDecodeBody_walks (not_lt.1 hbits)] at h
      cases hwalk : s.hufWalk.err with
      | none => simp [hwalk] at h
      | some e' =>
        obtain ⟨rfl, -⟩ : e' = e ∧ _ := by simpa [hwalk] using h
        exact decodeBits_err hwalk
  | cubeDecode =>
    by_cases hwlen : s.wlen.toNat = s.params.capacity
    · rw [body, cubeDecodeBody_ok hwlen] at h
      cases h
    · rw [body, cubeDecodeBody_mismatch hwlen] at h
      cases h
      simp [errors]
  | relabelDecode =>
    by_cases hwlen : s.wlen.toNat = s.params.capacity
    · by_cases hk : 1000 ≤ s.kidx.toNat
      · rw [body, relabelDecodeBody_badConfig hwlen hk] at h
        cases h
        simp [errors]
      · rw [body, relabelDecodeBody_ok hwlen (not_le.1 hk)] at h
        cases h
    · rw [body, relabelDecodeBody_mismatch hwlen] at h
      cases h
      simp [errors]

/-! The checks that cannot fail inside a pipeline -/

/-- After HUF_ENCODE check CE1 passes: check HE2 has bounded the stream BITLEN counts (R222). -/
theorem cubeEncodeBody_after_hufEncodeBody {s u : State} (h : hufEncodeBody s = .ok u) :
    ∃ v, cubeEncodeBody u = .ok v := by
  by_cases hlen : s.params.ibufSize < s.ilen.toNat
  · rw [hufEncodeBody_tooLong hlen] at h
    cases h
  by_cases hfront : s.params.front < bytesFor s.inputBits.length
  · rw [hufEncodeBody_overflow (not_lt.1 hlen) hfront] at h
    cases h
  rw [hufEncodeBody_ok (not_lt.1 hlen) (not_lt.1 hfront)] at h
  cases h
  have hbits : (BitVec.ofNat 32 s.inputBits.length).toNat ≤ s.inputBits.length := by
    rw [BitVec.toNat_ofNat]
    exact Nat.mod_le _ _
  have hbytes : bytesFor (BitVec.ofNat 32 s.inputBits.length).toNat ≤ bytesFor s.inputBits.length :=
    Nat.div_le_div_right (Nat.add_le_add_right hbits 7)
  exact ⟨_, cubeEncodeBody_ok (hbytes.trans (not_lt.1 hfront))⟩

/-- After RELABEL_DECODE check CD1 passes: RELABEL_DECODE has checked WLEN, which it keeps (R223). -/
theorem cubeDecodeBody_after_relabelDecodeBody {s u : State} (h : relabelDecodeBody s = .ok u) :
    ∃ v, cubeDecodeBody u = .ok v := by
  have hparams := relabelDecodeBody_params s
  have hkept := relabelDecodeBody_wlen s
  rw [h, StageEnd.left_ok] at hparams hkept
  by_cases hwlen : s.wlen.toNat = s.params.capacity
  · exact ⟨_, cubeDecodeBody_ok (by rwa [hkept, hparams])⟩
  · rw [relabelDecodeBody_mismatch hwlen] at h
    cases h

/-! What a failing command reports -/

/-- ERROP and ERRCODE as numbers. -/
def State.errorPair (t : State) : Nat × Nat := (t.status.errop.toNat, t.status.errcode.toNat)

/-- A stage's errors, each under the stage's opcode. -/
def Stage.errorPairs (g : Stage) : List (Nat × Nat) :=
  g.errors.map fun e => (g.op.toNat, e.code.toNat)

theorem Stage.errorPair_errorEnd_mem (g : Stage) {s u : State} {e : CmdError}
    (h : g.body s = .error e u) : (u.errorEnd e g.op).errorPair ∈ g.errorPairs :=
  List.mem_map.2 ⟨e, g.error_mem h, rfl⟩

/-- What a stage that fails when issued alone reports (R243). -/
theorem Stage.exec_command_errorPair_mem (g : Stage) {s t : State} (hs : s.status.err = false)
    (hexec : exec g.command s = .next t) (herr : t.status.err = true) :
    t.errorPair ∈ g.errorPairs := by
  rw [g.exec_command] at hexec
  obtain ⟨e, u, hbody, rfl⟩ := StageEnd.of_thenDo_err (Host.Outcome.next.inj hexec)
    (by rwa [g.body_status]) herr
  exact g.errorPair_errorEnd_mem hbody

/-- What a command of three stages reports, when its second stage cannot fail after its first (R222,
R223). -/
theorem exec_errorPair_mem_of_second_ok {i : Instr} {g₁ g₂ g₃ : Stage}
    (hi : stagesOf i = [g₁, g₂, g₃])
    (hsecond : ∀ {s u}, g₁.body s = .ok u → ∃ v, g₂.body u = .ok v) {s t : State}
    (hs : s.status.err = false) (hexec : exec i s = .next t) (herr : t.status.err = true) :
    t.errorPair ∈ g₁.errorPairs ++ g₃.errorPairs := by
  rw [exec_eq_runStages, hi] at hexec
  obtain rfl := Host.Outcome.next.inj hexec
  cases hfirst : g₁.body s with
  | error e u =>
    rw [runStages_of_error hfirst]
    exact List.mem_append_left _ (g₁.errorPair_errorEnd_mem hfirst)
  | ok u =>
    obtain ⟨v, hv⟩ := hsecond hfirst
    have hu := g₁.body_status s
    have hstatus := g₂.body_status u
    rw [hfirst, StageEnd.left_ok] at hu
    rw [hv, StageEnd.left_ok, hu] at hstatus
    rw [runStages_of_ok hfirst, runStages_of_ok hv] at herr ⊢
    exact List.mem_append_right _
      (g₃.exec_command_errorPair_mem (hstatus ▸ hs) (exec_command_eq_runStages g₃ v) herr)

/-- Settles O23: a command of one stage reports that stage's errors, and one of three those of its first and
third. -/
theorem commandsRaiseOnlyTheirErrors : Obligations.CommandsRaiseOnlyTheirErrors := by
  intro i s t hs hexec herr
  cases i with
  | nop =>
    rw [nopOnlyEnds s] at hexec
    cases hexec
    simp [State.succeeded, hs] at herr
  | hufEncode => exact Stage.exec_command_errorPair_mem .hufEncode hs hexec herr
  | cubeEncode => exact Stage.exec_command_errorPair_mem .cubeEncode hs hexec herr
  | relabelEncode => exact Stage.exec_command_errorPair_mem .relabelEncode hs hexec herr
  | hufDecode => exact Stage.exec_command_errorPair_mem .hufDecode hs hexec herr
  | cubeDecode => exact Stage.exec_command_errorPair_mem .cubeDecode hs hexec herr
  | relabelDecode => exact Stage.exec_command_errorPair_mem .relabelDecode hs hexec herr
  | encodeAll =>
    exact exec_errorPair_mem_of_second_ok (g₁ := .hufEncode) (g₂ := .cubeEncode)
      (g₃ := .relabelEncode) rfl cubeEncodeBody_after_hufEncodeBody hs hexec herr
  | decodeAll =>
    exact exec_errorPair_mem_of_second_ok (g₁ := .relabelDecode) (g₂ := .cubeDecode)
      (g₃ := .hufDecode) rfl cubeDecodeBody_after_relabelDecodeBody hs hexec herr

/-! The checks made before anything is written -/

/-- A stage issued alone that fails before it writes changes STATUS alone (R245, R246). -/
theorem Stage.exec_command_of_error_self (g : Stage) {s : State} {e : CmdError}
    (h : g.body s = .error e s) : exec g.command s = .next (s.failed e.code g.op) := by
  rw [g.exec_command, h]
  rfl

/-- Settles O24: each of these checks is made before its stage's first write. -/
theorem earlyChecksWriteOnlyStatus : Obligations.EarlyChecksWriteOnlyStatus := fun _ =>
  ⟨fun h => Stage.exec_command_of_error_self .hufEncode (hufEncodeBody_tooLong h),
    fun h => Stage.exec_command_of_error_self .cubeEncode (cubeEncodeBody_tooLong h),
    exec_relabelEncode_badConfig,
    fun h => Stage.exec_command_of_error_self .hufDecode (hufDecodeBody_underrun h),
    fun h => Stage.exec_command_of_error_self .cubeDecode (cubeDecodeBody_mismatch h),
    fun h => Stage.exec_command_of_error_self .relabelDecode (relabelDecodeBody_mismatch h),
    fun h hk => Stage.exec_command_of_error_self .relabelDecode (relabelDecodeBody_badConfig h hk)⟩

end Sys2Proof.Machine
end

section
/-! Proofs about the soft reset (R33, R272): WBUF and OBUF keep their contents unless a running command
whose write set holds them is aborted (R56). -/

namespace Sys2Proof.Machine

/-! When a soft reset keeps a memory -/

/-- A soft reset aborts no command that writes the memory when none runs, or when CUR is the word of none
that writes it. An illegal word writes nothing (R103). -/
theorem State.aborts_eq_false {s : State} {inWriteSet : Except IllegalWord Instr → Bool}
    {writers : List Nat} (hillegal : ∀ e, inWriteSet (.error e) = false)
    (hwriters : ∀ i, inWriteSet (.ok i) = true → (encode i).toNat ∈ writers)
    (h : s.phase = .idle ∨ s.cur.toNat ∉ writers) : s.aborts inWriteSet = false := by
  rcases h with hidle | hcur
  · rw [State.aborts, hidle]
    rfl
  · have hnot : inWriteSet (decode s.cur) = false := by
      cases hdec : decode s.cur with
      | error e => exact hillegal e
      | ok i =>
        rw [(decode_eq_ok_iff_eq_encode _ i).1 hdec] at hcur
        exact Bool.eq_false_iff.2 fun hi => hcur (hwriters i hi)
    rw [State.aborts, hnot, Bool.and_false]

/-- The commands whose write set holds WBUF (R56). -/
theorem encode_mem_of_writesWbuf (i : Instr) (h : writesWbuf (.ok i) = true) :
    (encode i).toNat ∈ [0x01, 0x02, 0x03, 0x0F, 0x12, 0x13, 0x1F] := by
  cases i with
  | nop | hufDecode => cases h
  | hufEncode | cubeEncode | relabelEncode | encodeAll => decide
  | cubeDecode | relabelDecode | decodeAll => decide

/-- The commands whose write set holds OBUF (R56). -/
theorem encode_mem_of_writesObuf (i : Instr) (h : writesObuf (.ok i) = true) :
    (encode i).toNat ∈ [0x11, 0x1F] := by
  cases i with
  | nop | hufEncode | cubeEncode | relabelEncode | encodeAll => cases h
  | cubeDecode | relabelDecode => cases h
  | hufDecode | decodeAll => decide

theorem softReset_wbufAt {s : State}
    (h : s.phase = .idle ∨ s.cur.toNat ∉ [0x01, 0x02, 0x03, 0x0F, 0x12, 0x13, 0x1F]) (q : Nat) :
    s.softReset.wbufAt q = s.wbufAt q := by
  have hkept : s.aborts writesWbuf = false :=
    State.aborts_eq_false (fun _ => rfl) encode_mem_of_writesWbuf h
  simp [State.wbufAt, hkept]

theorem softReset_obufAt {s : State} (h : s.phase = .idle ∨ s.cur.toNat ∉ [0x11, 0x1F]) (n : Nat) :
    s.softReset.obufAt n = s.obufAt n := by
  have hkept : s.aborts writesObuf = false :=
    State.aborts_eq_false (fun _ => rfl) encode_mem_of_writesObuf h
  simp [State.obufAt, hkept]

/-! The step -/

/-- CTRL is not engine-owned, so a write of it with bit 1 set resets at any time (R33, R272). -/
theorem step_softReset {s : State} {v : Word} {rest : List Input} (hp : s.params.wf = true)
    (hv : v.getLsbD 1 = true) (h : s.writesNext .ctrl v rest) :
    step s = .next (State.softReset { s with inputs := rest }) := by
  rw [step_writesNext (l := .ctrl) hp trivial h, writeLoc_free v (ownedNow_of_free _ rfl),
    writeSlot_ctrl_reset _ hv]

/-- Settles O18: the step is the soft reset, which zeroes the registers and forgets only the memories an
aborted command could write. -/
theorem softResetKeepsWhatItShould : Obligations.SoftResetKeepsWhatItShould := by
  intro s v rest hp hv h
  refine ⟨_, step_softReset hp hv h, ?_⟩
  have hstatus : (State.softReset { s with inputs := rest }).statusWord = 0#32 :=
    statusWord_of_reset rfl rfl
  have htables (b : Byte) : (State.softReset { s with inputs := rest }).freqAt b = 0#32 ∧
      (State.softReset { s with inputs := rest }).codelenAt b = 0#8 :=
    ⟨freqAt_zeros rfl b, codelenAt_zeros rfl b⟩
  exact ⟨rfl, hstatus, ctrlWord_eq _, rfl, rfl, rfl, rfl, rfl, rfl, rfl, htables, rfl,
    fun _ => ⟨rfl, rfl⟩, softReset_wbufAt (s := { s with inputs := rest }),
    softReset_obufAt (s := { s with inputs := rest }), rfl, rfl, rfl⟩

end Sys2Proof.Machine
end
